-- ==== Sys2Proof/Word.lean ====
section
/-! DEFINITION. The word types of the block: host words (R80) and binary32 samples held as bit patterns (R16, R31). -/

namespace Sys2Proof

/-- A word of the host interface (R15: all words of the host interface are 32 bits wide). -/
abbrev Word32 := BitVec 32

/-- A binary32 value, held as its bit pattern (R87: bit 31 sign, bits [30:23] exponent, bits [22:0]
fraction). -/
abbrev F32 := BitVec 32

/-- `ceil(a/b)` of R19. -/
abbrev ceilDiv (a b : Nat) : Nat := (a + b - 1) / b

/-- The list `[f 0, …, f (n-1)]`: how the rules fill an array for an index in `[0, n)`. -/
abbrev tabulate {α : Type} (n : Nat) (f : Nat → α) : List α := (List.range n).map f

end Sys2Proof
end

