-- ==== Sys2Proof/Config.lean ====
section
/-! DEFINITION. What a build of the block fixes (R7 to R13) and the values the spec leaves open. Every
constant marked opaque has no body: nothing in Lean can evaluate it, so a claim holds whatever it is. -/

namespace Sys2Proof

/-- Which numeric path the PRF takes (R13, R215): the reference configuration PRF_IDEAL of R214, or the
implementation's own PRF_FN, of which nothing is known. -/
inductive PrfPath where
  | ideal
  | implementation
deriving DecidableEq, Repr

/-- The build parameters of R7 to R13: N, L, C_MAX, OUT_DEPTH and the PRF's numeric path. -/
structure Build where
  n : Nat
  l : Nat
  cMax : Nat
  outDepth : Nat
  prf : PrfPath
deriving DecidableEq, Repr

/-- N·L, the output samples per channel per frame (R9). -/
abbrev Build.nl (b : Build) : Nat := b.n * b.l

/-- The groups one lane's frame of bits makes: `ceil(N·L / 8)` (R12). -/
abbrev Build.groups (b : Build) : Nat := ceilDiv b.nl 8

/-- The construction-time contract of R11 and R354. -/
def Build.valid (b : Build) : Bool :=
  decide (1 ≤ b.n) && decide (b.n ≤ 2 ^ 24) && decide (1 ≤ b.l) && decide (b.l ≤ 2 ^ 16)
    && decide (b.nl ≤ 2 ^ 24) && decide (1 ≤ b.cMax) && decide (b.cMax ≤ 255)
    && decide (b.cMax * b.groups ≤ b.outDepth)

namespace Config

/-- Open (R8): fixes L. -/
opaque oversampleSeed : Nat
/-- Open (R7): fixes N. -/
opaque frameSizeSeed : Nat
/-- Open (R10): fixes C_MAX. -/
opaque laneSeed : Nat
/-- Open (R12): the FIFO entries beyond the required minimum. -/
opaque spareDepth : Nat

/-- L of this build: any number in 1 to 2^16 (R8). -/
def oversample : Nat := oversampleSeed % 2 ^ 16 + 1
/-- N of this build: any number with N ≥ 1 and N·L ≤ 2^24 (R7, R9). -/
def frameSize : Nat := frameSizeSeed % (2 ^ 24 / oversample) + 1
/-- C_MAX of this build: any number in 1 to 255 (R10). -/
def laneCount : Nat := laneSeed % 255 + 1

/-- The build: ANY legal one, since the seeds are free (log 1). Its PRF is the implementation's own. -/
def build : Build :=
  { n := frameSize
    l := oversample
    cMax := laneCount
    outDepth := laneCount * ceilDiv (frameSize * oversample) 8 + spareDepth
    prf := .implementation }

/-- PRF_FN of R13 and R205: for N, L and the 2N values of INBUF, the value `yhat[m]`. The only thing the
spec says of it is R210, which `Safety.lean` states as a proposition (log 6). -/
opaque prfFn (n l : Nat) (b : List F32) (m : Nat) : F32

/-- EPS_RS of R13: an open number. -/
opaque epsRs : Rat

/-- Free words, one for each index: what a read whose value the spec leaves open returns (U3, U18). -/
opaque freeWord (k : Nat) : Word32

/-- The free value behind a search for a correctly rounded value. It is never taken: the searches for the values
of the spec always settle (log 8; Laws/Settle.lean). -/
opaque unsettled (args : List Int) : F32

end Config

end Sys2Proof
end

