-- ==== Sys2Proof/Syntax.lean ====
section
/-! DEFINITION. The host transactions, the command words and `Instr`: one constructor for each row of
spec/opcode_table.json. -/

namespace Sys2Proof

/-- A host transaction (R80, R127): WE = 1 is a write, ADDR the byte offset, DATA the word of a write
(a read carries none; the model keeps 0 there). -/
structure Transaction where
  we : Bool
  addr : BitVec 8
  data : Word32
deriving DecidableEq, Repr

/-- What a command word decodes to when it is not ILLEGAL (R122, R125). -/
inductive Command where
  | nop
  | srst
  | start
  | abort
  | nsStep (ch : BitVec 8)
  | nsLoad (ch : BitVec 8)
deriving DecidableEq, Repr

/-- The two formats of the opcode table (R128): a command word, or a transaction selected by its key. -/
inductive Encoding where
  | cmd (w : Word32)
  | bus (t : Transaction)
deriving DecidableEq, Repr

/-- One constructor for each row of the opcode table: six commands (format CMD), then the 38 register
accesses (format BUS) in the table's order. A write carries its data word `v`. -/
inductive Instr where
  | nop
  | srst
  | start
  | abort
  | nsStep (ch : BitVec 8)
  | nsLoad (ch : BitVec 8)
  | rdId
  | rdParamN
  | rdParamL
  | rdParamC
  | wrCmd (v : Word32)
  | rdStatus
  | rdErrAddr
  | rdErrData
  | wrIrqEn (v : Word32)
  | rdIrqEn
  | wrChCount (v : Word32)
  | rdChCount
  | wrDurationLo (v : Word32)
  | rdDurationLo
  | wrDurationHi (v : Word32)
  | rdDurationHi
  | wrSampleIn (v : Word32)
  | rdBitsOut
  | rdOutLevel
  | rdFillPos
  | rdFrameIdxLo
  | rdFrameIdxHi
  | rdInCountLo
  | rdInCountHi
  | rdOutCountLo
  | rdOutCountHi
  | wrChSel (v : Word32)
  | rdChSel
  | rdDbgZ
  | rdDbgZ1
  | rdDbgZ2
  | wrData0 (v : Word32)
  | rdData0
  | wrData1 (v : Word32)
  | rdData1
  | wrData2 (v : Word32)
  | rdData2
  | rdResult
deriving DecidableEq, Repr

/-- The instruction a command is. -/
abbrev Command.toInstr : Command → Instr
  | .nop => .nop
  | .srst => .srst
  | .start => .start
  | .abort => .abort
  | .nsStep ch => .nsStep ch
  | .nsLoad ch => .nsLoad ch

end Sys2Proof
end

