-- ==== Sys2Proof/WellFormed.lean ====
section
/-! DEFINITION. Which instructions are legal (R123: the lane operand is below C_MAX), which transactions
have a row of the table by their address alone, and which build parameters are refused (R11, R354). -/

namespace Sys2Proof

/-- The one operand check of the table: the CH field of NS_STEP and NS_LOAD is below C_MAX (R123). Every
other operand is a data word and any value of it is legal. -/
def Instr.wellFormed (cMax : Nat) (i : Instr) : Bool :=
  match i with
  | .nsStep ch => decide (ch.toNat < cMax)
  | .nsLoad ch => decide (ch.toNat < cMax)
  | .nop | .srst | .start | .abort | .rdId | .rdParamN | .rdParamL | .rdParamC | .wrCmd _ | .rdStatus
  | .rdErrAddr | .rdErrData | .wrIrqEn _ | .rdIrqEn | .wrChCount _ | .rdChCount | .wrDurationLo _
  | .rdDurationLo | .wrDurationHi _ | .rdDurationHi | .wrSampleIn _ | .rdBitsOut | .rdOutLevel
  | .rdFillPos | .rdFrameIdxLo | .rdFrameIdxHi | .rdInCountLo | .rdInCountHi | .rdOutCountLo
  | .rdOutCountHi | .wrChSel _ | .rdChSel | .rdDbgZ | .rdDbgZ1 | .rdDbgZ2 | .wrData0 _ | .rdData0
  | .wrData1 _ | .rdData1 | .wrData2 _ | .rdData2 | .rdResult => true

/-- Access direction of a register (R81): read-only, write-only or both. -/
inductive Access where
  | ro
  | wo
  | rw
deriving DecidableEq, Repr

/-- The register map of R81: offset and access of each of the 30 registers. -/
def registerMap : List (BitVec 8 × Access) :=
  [(0x00, .ro), (0x04, .ro), (0x08, .ro), (0x0C, .ro), (0x10, .wo), (0x14, .ro), (0x18, .ro), (0x1C, .ro),
   (0x20, .rw), (0x24, .rw), (0x28, .rw), (0x2C, .rw), (0x30, .wo), (0x34, .ro), (0x38, .ro), (0x3C, .ro)]
  ++
  [(0x40, .ro), (0x44, .ro), (0x48, .ro), (0x4C, .ro), (0x50, .ro), (0x54, .ro), (0x58, .rw), (0x5C, .ro),
   (0x60, .ro), (0x64, .ro), (0x68, .rw), (0x6C, .rw), (0x70, .rw), (0x74, .ro)]

/-- The access of the register at an offset; `none` where the offset names no register (misaligned, R82,
or reserved, R83). -/
def accessAt (addr : BitVec 8) : Option Access :=
  (registerMap.find? fun r => r.1 == addr).map Prod.snd

/-- A transaction that names a register and has the direction the register allows. Every other one is a
structural access error: it follows R82 to R84 (R127). -/
def Transaction.onMap (t : Transaction) : Bool :=
  match accessAt t.addr with
  | none => false
  | some .ro => !t.we
  | some .wo => t.we
  | some .rw => true

end Sys2Proof
end

