-- ==== Sys2Proof/Decode.lean ====
section
/-! DEFINITION. The decoder of command words (R125), the decoder of transaction keys (R127), the encoder
(R121, R122, R127, R133), and the word layout in which the host's table is asked about. -/

namespace Sys2Proof

/-- The OP field of a command word (R121). -/
def opField (w : Word32) : BitVec 8 := w.extractLsb' 24 8
/-- The CH field of a command word (R121). -/
def chField (w : Word32) : BitVec 8 := w.extractLsb' 16 8
/-- The IMM field of a command word (R121, R124: reserved, must be 0). -/
def immField (w : Word32) : BitVec 16 := w.extractLsb' 0 16

/-- R125: every 32-bit word is exactly one command or ILLEGAL (`none`). -/
def decodeCommand (cMax : Nat) (w : Word32) : Option Command :=
  let op := opField w
  let ch := chField w
  if immField w ≠ 0 then none
  else if op = 0x00 ∧ ch = 0 then some .nop
  else if op = 0x01 ∧ ch = 0 then some .srst
  else if op = 0x02 ∧ ch = 0 then some .start
  else if op = 0x03 ∧ ch = 0 then some .abort
  else if op = 0x10 ∧ ch.toNat < cMax then some (.nsStep ch)
  else if op = 0x11 ∧ ch.toNat < cMax then some (.nsLoad ch)
  else none

/-- The rows of format BUS that are reads, by offset (R81, R127). -/
def readRow (addr : BitVec 8) : Option Instr :=
  match addr.toNat with
  | 0x00 => some .rdId
  | 0x04 => some .rdParamN
  | 0x08 => some .rdParamL
  | 0x0C => some .rdParamC
  | 0x14 => some .rdStatus
  | 0x18 => some .rdErrAddr
  | 0x1C => some .rdErrData
  | 0x20 => some .rdIrqEn
  | 0x24 => some .rdChCount
  | 0x28 => some .rdDurationLo
  | 0x2C => some .rdDurationHi
  | 0x34 => some .rdBitsOut
  | 0x38 => some .rdOutLevel
  | 0x3C => some .rdFillPos
  | 0x40 => some .rdFrameIdxLo
  | 0x44 => some .rdFrameIdxHi
  | 0x48 => some .rdInCountLo
  | 0x4C => some .rdInCountHi
  | 0x50 => some .rdOutCountLo
  | 0x54 => some .rdOutCountHi
  | 0x58 => some .rdChSel
  | 0x5C => some .rdDbgZ
  | 0x60 => some .rdDbgZ1
  | 0x64 => some .rdDbgZ2
  | 0x68 => some .rdData0
  | 0x6C => some .rdData1
  | 0x70 => some .rdData2
  | 0x74 => some .rdResult
  | _ => none

/-- The rows of format BUS that are writes, by offset (R81, R127). -/
def writeRow (addr : BitVec 8) (v : Word32) : Option Instr :=
  match addr.toNat with
  | 0x10 => some (.wrCmd v)
  | 0x20 => some (.wrIrqEn v)
  | 0x24 => some (.wrChCount v)
  | 0x28 => some (.wrDurationLo v)
  | 0x2C => some (.wrDurationHi v)
  | 0x30 => some (.wrSampleIn v)
  | 0x58 => some (.wrChSel v)
  | 0x68 => some (.wrData0 v)
  | 0x6C => some (.wrData1 v)
  | 0x70 => some (.wrData2 v)
  | _ => none

/-- R127: the row a transaction's key selects; `none` for every key without a row. -/
def decodeBus (t : Transaction) : Option Instr :=
  if t.we then writeRow t.addr t.data else readRow t.addr

/-- R128: a decoder that handles the rows of both formats. -/
def decode (cMax : Nat) (e : Encoding) : Option Instr :=
  match e with
  | .cmd w => (decodeCommand cMax w).map Command.toInstr
  | .bus t => decodeBus t

/-- The command word with the given opcode and lane (R121, R133: `(OP << 24) | (ch << 16)`). -/
def commandWord (op ch : BitVec 8) : Word32 := op ++ ch ++ (0 : BitVec 16)

/-- The word of each command (R122). -/
def encodeCommand (c : Command) : Word32 :=
  match c with
  | .nop => commandWord 0x00 0
  | .srst => commandWord 0x01 0
  | .start => commandWord 0x02 0
  | .abort => commandWord 0x03 0
  | .nsStep ch => commandWord 0x10 ch
  | .nsLoad ch => commandWord 0x11 ch

/-- A read transaction. -/
def readOf (addr : BitVec 8) : Transaction := { we := false, addr := addr, data := 0 }
/-- A write transaction. -/
def writeOf (addr : BitVec 8) (v : Word32) : Transaction := { we := true, addr := addr, data := v }

/-- The encoding of an instruction: its command word, or its key and data (R122, R127). -/
def encode (i : Instr) : Encoding :=
  match i with
  | .nop => .cmd (encodeCommand .nop)
  | .srst => .cmd (encodeCommand .srst)
  | .start => .cmd (encodeCommand .start)
  | .abort => .cmd (encodeCommand .abort)
  | .nsStep ch => .cmd (encodeCommand (.nsStep ch))
  | .nsLoad ch => .cmd (encodeCommand (.nsLoad ch))
  | .rdId => .bus (readOf 0x00)
  | .rdParamN => .bus (readOf 0x04)
  | .rdParamL => .bus (readOf 0x08)
  | .rdParamC => .bus (readOf 0x0C)
  | .wrCmd v => .bus (writeOf 0x10 v)
  | .rdStatus => .bus (readOf 0x14)
  | .rdErrAddr => .bus (readOf 0x18)
  | .rdErrData => .bus (readOf 0x1C)
  | .wrIrqEn v => .bus (writeOf 0x20 v)
  | .rdIrqEn => .bus (readOf 0x20)
  | .wrChCount v => .bus (writeOf 0x24 v)
  | .rdChCount => .bus (readOf 0x24)
  | .wrDurationLo v => .bus (writeOf 0x28 v)
  | .rdDurationLo => .bus (readOf 0x28)
  | .wrDurationHi v => .bus (writeOf 0x2C v)
  | .rdDurationHi => .bus (readOf 0x2C)
  | .wrSampleIn v => .bus (writeOf 0x30 v)
  | .rdBitsOut => .bus (readOf 0x34)
  | .rdOutLevel => .bus (readOf 0x38)
  | .rdFillPos => .bus (readOf 0x3C)
  | .rdFrameIdxLo => .bus (readOf 0x40)
  | .rdFrameIdxHi => .bus (readOf 0x44)
  | .rdInCountLo => .bus (readOf 0x48)
  | .rdInCountHi => .bus (readOf 0x4C)
  | .rdOutCountLo => .bus (readOf 0x50)
  | .rdOutCountHi => .bus (readOf 0x54)
  | .wrChSel v => .bus (writeOf 0x58 v)
  | .rdChSel => .bus (readOf 0x58)
  | .rdDbgZ => .bus (readOf 0x5C)
  | .rdDbgZ1 => .bus (readOf 0x60)
  | .rdDbgZ2 => .bus (readOf 0x64)
  | .wrData0 v => .bus (writeOf 0x68 v)
  | .rdData0 => .bus (readOf 0x68)
  | .wrData1 v => .bus (writeOf 0x6C v)
  | .rdData1 => .bus (readOf 0x6C)
  | .wrData2 v => .bus (writeOf 0x70 v)
  | .rdData2 => .bus (readOf 0x70)
  | .rdResult => .bus (readOf 0x74)

/-- The host transaction that carries an encoding: a command word is written to CMD (R128, R133). -/
def Encoding.transaction (e : Encoding) : Transaction :=
  match e with
  | .cmd w => writeOf 0x10 w
  | .bus t => t

/-- The transaction of an instruction. -/
def transactionOf (i : Instr) : Transaction := (encode i).transaction

/-- The encoding that a row of the opcode table numbers as `w` in `nbits` bits (log 17): 32 bits are a
command word; a key is 9 bits, {WE, ADDR[7:0]} in its own 16 bits, and the 32-bit data word, where it is
given, stands above them. -/
def encodingOfWord (nbits w : Nat) : Encoding :=
  if nbits = 32 then .cmd (BitVec.ofNat 32 w)
  else .bus { we := w.testBit 8, addr := BitVec.ofNat 8 w, data := BitVec.ofNat 32 (w / 2 ^ 16) }

/-- The instruction the decoder reads from a row's word. Bits 15 to 9 of a key's 16 bits are no part of
the key and must be 0. -/
def decodeTableWord (nbits w : Nat) : Option Instr :=
  if nbits = 32 then
    if w < 2 ^ 32 then decode Config.laneCount (encodingOfWord nbits w) else none
  else if w % 2 ^ 16 < 2 ^ 9 then decode Config.laneCount (encodingOfWord nbits w)
  else none

end Sys2Proof
end

