-- ==== Sys2Proof/Machine/Float.lean ====
section
/-! DEFINITION. The binary32 arithmetic of R16: RNE32, fadd, fsub, fmul. Every finite value is an integer
multiple of 2^-149, so sums and products are computed exactly on integers and rounded once. -/

namespace Sys2Proof.Machine

/-- Bit 31 of a sample word (R87): the sign. -/
def signBit (a : F32) : Bool := a.msb
/-- Bits [30:23] (R87): the biased exponent. -/
def expField (a : F32) : Nat := (a.toNat / 2 ^ 23) % 2 ^ 8
/-- Bits [22:0] (R87): the fraction. -/
def fracField (a : F32) : Nat := a.toNat % 2 ^ 23

/-- A sample word is finite iff its exponent field is not 0xFF (R129). -/
def isFinite (a : F32) : Bool := expField a != 0xFF
/-- A NaN: exponent field 0xFF and a nonzero fraction (U18). -/
def isNaN (a : F32) : Bool := expField a == 0xFF && fracField a != 0
/-- An infinity: exponent field 0xFF and fraction zero. -/
def isInf (a : F32) : Bool := expField a == 0xFF && fracField a == 0

/-- The NaN the model's own arithmetic produces; U18 allows this pattern and lets no rule depend on it.
What a host reads of it is a free pattern (log 9). -/
def coreNaN : F32 := 0x7FC00000#32
/-- The infinity of a sign. -/
def infinity (neg : Bool) : F32 := if neg then 0xFF800000#32 else 0x7F800000#32
/-- The zero of a sign. -/
def zeroOf (neg : Bool) : F32 := if neg then 0x80000000#32 else 0x00000000#32
/-- +1.0 and -1.0, the values of the decision in arithmetic (R33). -/
def unitOf (plus : Bool) : F32 := if plus then 0x3F800000#32 else 0xBF800000#32

/-- The magnitude of a finite value in units of 2^-149. -/
def magnitude (a : F32) : Nat :=
  if expField a = 0 then fracField a else (2 ^ 23 + fracField a) * 2 ^ (expField a - 1)

/-- A finite value in units of 2^-149. -/
def scaled (a : F32) : Int := if signBit a then - (magnitude a : Int) else magnitude a

/-- The low `drop` bits of `mag` removed, rounding to nearest, ties to even. -/
def roundShift (mag drop : Nat) : Nat :=
  let q := mag / 2 ^ drop
  let r := mag % 2 ^ drop
  if 2 * r < 2 ^ drop then q
  else if 2 ^ drop < 2 * r then q + 1
  else q + q % 2

/-- How many bits of `mag`, in units of 2^-(149 + extra), lie below the last place of its binary32
neighbours: all of `extra` (the quantum of subnormals), or what leaves 24 significant bits. -/
def dropBits (mag extra : Nat) : Nat := max extra (mag.log2 - 23)

/-- The bit pattern, sign apart, of the nearest binary32 magnitude before the overflow check. Adding the
rounded significand to the shifted exponent carries into the exponent by itself. -/
def roundedBits (mag extra : Nat) : Nat :=
  let d := dropBits mag extra
  (d - extra) * 2 ^ 23 + roundShift mag d

/-- RNE32 (R16) of `(-1)^neg · mag · 2^-(149 + extra)`, overflowing to infinity and keeping subnormals.
A zero result takes the given sign: for a product that is R16's IEEE rule, for a nonzero value of R214 that rounds
to zero it is the model's choice (log 23). -/
def roundScaled (neg : Bool) (mag extra : Nat) : F32 :=
  let bits := roundedBits mag extra
  if 0x7F800000 ≤ bits then infinity neg
  else if neg then BitVec.ofNat 32 (2 ^ 31 + bits) else BitVec.ofNat 32 bits

/-- RNE32 of the rational `(-1)^neg · num / den`: the quotient to 151 binary places, and a last bit that
is set iff something was cut off (it decides only that no tie is seen where there is none). -/
def roundRatio (neg : Bool) (num den : Nat) : F32 :=
  let q := num * 2 ^ 151 / den
  let sticky := if num * 2 ^ 151 % den = 0 then 0 else 1
  roundScaled neg (2 * q + sticky) 3

/-- RNE32 of `num / den` for an integer numerator; an exact zero gives +0.0. -/
def roundIntRatio (num : Int) (den : Nat) : F32 := roundRatio (decide (num < 0)) num.natAbs den

/-- The bit pattern with the sign inverted. -/
def negate (a : F32) : F32 := a ^^^ 0x80000000#32

/-- `fadd` of R16: RNE32(a + b) with the IEEE rules for signed zeros, infinities and NaN. -/
def fadd (a b : F32) : F32 :=
  if isNaN a || isNaN b then coreNaN
  else if isInf a then (if isInf b && signBit a != signBit b then coreNaN else a)
  else if isInf b then b
  else
    let z := scaled a + scaled b
    if z = 0 then zeroOf (signBit a && signBit b)
    else roundScaled (decide (z < 0)) z.natAbs 0

/-- `fsub` of R16: RNE32(a - b), which is a plus b with its sign inverted. -/
def fsub (a b : F32) : F32 := fadd a (negate b)

/-- `fmul` of R16: RNE32(a · b); an exactly zero product is -0 when exactly one factor is negative,
and so is one that rounds to zero (the IEEE rules for signed zeros that R16 names). -/
def fmul (a b : F32) : F32 :=
  let neg := signBit a != signBit b
  if isNaN a || isNaN b then coreNaN
  else if isInf a || isInf b then
    (if magnitude a = 0 || magnitude b = 0 then coreNaN else infinity neg)
  else roundScaled neg (magnitude a * magnitude b) 149

/-- The IEEE comparison `a ≥ 0.0` of R263: both zeros satisfy it, a NaN does not. -/
def geZero (a : F32) : Bool := !isNaN a && (!signBit a || magnitude a == 0)

end Sys2Proof.Machine
end

