-- ==== Sys2Proof/Machine/Enclosure.lean ====
section
/-! DEFINITION. Correct rounding of the irrational values of R201, R202 and R214: integer intervals that
enclose 2^F times the value, from the alternating series of arctan and sin with every division rounded
outward, refined until both ends round to the same binary32 word. -/

namespace Sys2Proof.Machine

/-- An interval at some scale 2^F: the enclosed number x has `lo ≤ x·2^F ≤ hi`. -/
structure Interval where
  lo : Int
  hi : Int
deriving DecidableEq, Repr

/-- The sum of two intervals. -/
def Interval.add (a b : Interval) : Interval := { lo := a.lo + b.lo, hi := a.hi + b.hi }
/-- The difference of two intervals. -/
def Interval.sub (a b : Interval) : Interval := { lo := a.lo - b.hi, hi := a.hi - b.lo }
/-- An integer multiple of an interval. -/
def Interval.scale (c : Int) (a : Interval) : Interval :=
  if 0 ≤ c then { lo := c * a.lo, hi := c * a.hi } else { lo := c * a.hi, hi := c * a.lo }
/-- An interval times num/den, rounded outward. -/
def Interval.ratio (a : Interval) (num den : Nat) : Interval :=
  { lo := a.lo * num / den, hi := a.hi * num / den + 1 }
/-- The interval of every number of magnitude at most the interval's upper end. -/
def Interval.error (a : Interval) : Interval := { lo := -a.hi, hi := a.hi }

/-- An alternating sum of `k` terms made by `next`, and the error of the terms after them: the first term
left out bounds it. -/
def alternating (next : Nat → Interval → Interval) : Nat → Nat → Interval → Interval
  | 0, _, t => t.error
  | k + 1, i, t => t.sub (alternating next k (i + 1) (next i t))

/-- The `i`-th term `1/((2i+1)·x^(2i+1))` of arctan(1/x) at scale 2^F. -/
def arctanTerm (x F i : Nat) : Interval :=
  { lo := ((2 ^ F / ((2 * i + 1) * x ^ (2 * i + 1)) : Nat) : Int)
    hi := ((2 ^ F / ((2 * i + 1) * x ^ (2 * i + 1)) : Nat) : Int) + 1 }

/-- arctan(1/x) at scale 2^F, for x ≥ 5. -/
def arctanInv (x F : Nat) : Interval :=
  alternating (fun i _ => arctanTerm x F (i + 1)) (F / 4 + 1) 0 (arctanTerm x F 0)

/-- π at scale 2^F: 16·arctan(1/5) - 4·arctan(1/239). -/
def piInterval (F : Nat) : Interval :=
  ((arctanInv 5 F).scale 16).sub ((arctanInv 239 F).scale 4)

/-- The next term of the sine series from the `i`-th: times θ², over (2i+2)(2i+3). -/
def sineNext (F : Nat) (theta : Interval) (i : Nat) (t : Interval) : Interval :=
  { lo := t.lo * (theta.lo * theta.lo) / ((2 ^ (2 * F) * ((2 * i + 2) * (2 * i + 3)) : Nat) : Int)
    hi := t.hi * (theta.hi * theta.hi) / ((2 ^ (2 * F) * ((2 * i + 2) * (2 * i + 3)) : Nat) : Int) + 1 }

/-- sin(π·a/b) at scale 2^F, for 0 ≤ a/b ≤ 1/2. -/
def sinPi (a b F : Nat) : Interval :=
  let theta := (piInterval F).ratio a b
  alternating (sineNext F theta) (F / 8 + 8) 0 theta

/-- cos(2π·j/P) at scale 2^F for 0 ≤ j < P, reduced to a sine in the first quarter turn. -/
def cosTurn (P F j : Nat) : Interval :=
  let a := if P < 2 * j then 2 * P - 2 * j else 2 * j
  if 2 * a ≤ P then sinPi (P - 2 * a) (2 * P) F
  else (sinPi (2 * a - P) (2 * P) F).scale (-1)

/-- The word both ends of an interval round to, where they agree; the value is the interval over
`2^F · den`. -/
def settle (r : Interval) (den : Nat) : Option F32 :=
  if roundIntRatio r.lo den = roundIntRatio r.hi den then some (roundIntRatio r.lo den) else none

/-- The precisions a search tries: `start`, doubled until one lies beyond `need`, the number of bits at which
the value is known to be told from every number it could be confused with (log 8). -/
def precisions (start need : Nat) : List Nat :=
  (List.range ((need / start).log2 + 2)).map fun k => start * 2 ^ k

/-- The first word settled on, over growing precisions. -/
def firstSettled (precisions : List Nat) (f : Nat → Option F32) : Option F32 := precisions.findSome? f

end Sys2Proof.Machine
end

