-- ==== Sys2Proof/Machine/Window.lean ====
section
/-! DEFINITION. The window tables WA and WS (R37, R201, R202): each entry is the exact value rounded once. -/

namespace Sys2Proof.Machine

/-- Bits that tell `sin(π·i/(2·len-1)) / den` from every rounding boundary near it (log 8): 2^151·den times the
difference is a nonzero algebraic integer in the field of the (8·len-4)-th roots of unity, and near the value
no conjugate of it exceeds 2^153. -/
def windowNeed (len : Nat) : Nat := 2500 * len + 1024

/-- The search for `RNE32(sin(π·i/(2·len-1)) / den)`, i > 0: an enclosure whose two ends round alike. -/
def windowSearch (len den i : Nat) : Option F32 :=
  firstSettled (precisions 64 (windowNeed len)) fun F => settle (sinPi i (2 * len - 1) F) (2 ^ F * den)

/-- `RNE32(sin(π·i/(2·len-1)) / den)`. For i = 0 it is +0.0 exactly; every other value is irrational, so
neither a tie nor an exact case occurs, and the last precision tried is enough to settle it (`windowSearch_settles`
of Laws/Settle.lean): the free value is never taken. -/
def windowEntry (len den i : Nat) : F32 :=
  if i = 0 then 0x00000000#32
  else (windowSearch len den i).getD (Config.unsettled [(len : Int), (den : Int), (i : Int)])

/-- WA of R201: length N, scale 1/(2N). -/
def analysisWindow (b : Build) : List F32 := tabulate b.n (windowEntry b.n (2 * b.n))

/-- WS of R202: length N·L, no scale. -/
def synthesisWindow (b : Build) : List F32 := tabulate b.nl (windowEntry b.nl 1)

end Sys2Proof.Machine
end

