-- ==== Sys2Proof/Machine/State.lean ====
section
/-! DEFINITION. The state of the block (R30 to R61) as plain data, its reset value (R381), and the reasons a
step can stop. -/

namespace Sys2Proof.Machine

/-- FSR.STATE (R40). Codes 5 and 6 are never produced, so they have no constructor (U4). -/
inductive FsrState where
  | idle
  | filling
  | resampling
  | draining
  | done
  | fault
deriving DecidableEq, Repr

/-- The error codes of R341; codes 7 to 15 are reserved and never produced (U5). -/
inductive ErrCode where
  | none
  | illegalCmd
  | badState
  | badConfig
  | badAccess
  | inNotReady
  | badSample
deriving DecidableEq, Repr

/-- One lane (R32): the decision z (true is +1, R33), the integrators (R34), INBUF (R35) and TAIL (R36). -/
structure Lane where
  z : Bool
  z1 : F32
  z2 : F32
  inbuf : List F32
  tail : List F32
deriving DecidableEq, Repr

/-- One entry of the output FIFO (R39, R130). -/
structure Group where
  ch : BitVec 8
  nbits : Nat
  bits : BitVec 8
deriving DecidableEq, Repr

/-- The frame_state_register (R40 to R44). -/
structure Fsr where
  state : FsrState
  frameIdx : BitVec 64
  inCount : BitVec 64
  outCount : BitVec 64
  pos : BitVec 24
  chPtr : BitVec 8
deriving DecidableEq, Repr

/-- The host registers of R46 to R51. -/
structure HostRegs where
  chCount : BitVec 8
  duration : BitVec 64
  irqEn : BitVec 4
  chSel : BitVec 8
  data0 : Word32
  data1 : Word32
  data2 : Word32
  result : Word32
deriving DecidableEq, Repr

/-- ERR, ERR_ADDR and ERR_DATA (R53). -/
structure ErrorRecord where
  code : ErrCode
  addr : BitVec 8
  data : Word32
deriving DecidableEq, Repr

/-- The read shadows SH_FRAME, SH_IN and SH_OUT (R57). -/
structure Shadows where
  frame : Word32
  input : Word32
  output : Word32
deriving DecidableEq, Repr

/-- One turn of an agent (R14): a host transaction, a chance for the core to run a frame step, or the
reset input RST (R380). -/
inductive Turn where
  | host (t : Transaction)
  | core
  | reset
deriving DecidableEq, Repr

/-- The whole state. `build`, `wa` and `ws` are the constants of R54 and R37. The last three fields are the
MODEL's own, not the block's: the turns still to come (log 2), the word the last host read returned (log 4)
and the number of free values used (log 11). -/
structure State where
  build : Build
  wa : List F32
  ws : List F32
  lanes : List Lane
  frameBuf : List (List F32)
  fifo : List Group
  fsr : Fsr
  regs : HostRegs
  err : ErrorRecord
  shadows : Shadows
  schedule : List Turn
  response : Option Word32
  freeCount : Nat
deriving DecidableEq, Repr

/-- The reasons a step stops with a fault. There is none: the FAULT of R342 is a state of the block, in
which it goes on answering the host (R343), and the core never faults (R346). Log 18. -/
inductive Fault where
deriving DecidableEq, Repr

/-- The reasons something is refused. -/
inductive Refusal where
  /-- Raised by an arm of `exec` whose instruction has no meaning yet. Safe. No arm is left so. -/
  | notModelled (mnemonic : String)
  /-- Raised by `State.instantiate` alone, for build parameters outside the contract of R11 and R354: no
  block is built. Safe: it is the spec's own refusal. -/
  | illegalBuild
deriving DecidableEq, Repr

/-- A fresh lane (R33 to R36): z = +1, everything else +0.0. -/
def Lane.resetFor (b : Build) : Lane :=
  { z := true
    z1 := 0x00000000#32
    z2 := 0x00000000#32
    inbuf := List.replicate (2 * b.n) 0x00000000#32
    tail := List.replicate b.nl 0x00000000#32 }

/-- The FSR after reset (R40 to R44). -/
def Fsr.reset : Fsr :=
  { state := .idle, frameIdx := 0, inCount := 0, outCount := 0, pos := 0, chPtr := 0 }

/-- The host registers after reset (R46 to R51): CH_COUNT is 1, the others are 0. -/
def HostRegs.reset : HostRegs :=
  { chCount := 1, duration := 0, irqEn := 0, chSel := 0, data0 := 0, data1 := 0, data2 := 0, result := 0 }

/-- No error recorded (R53). -/
def ErrorRecord.reset : ErrorRecord := { code := .none, addr := 0, data := 0 }

/-- The read shadows after reset (R57). -/
def Shadows.reset : Shadows := { frame := 0, input := 0, output := 0 }

/-- The block of a given build right after reset (R381), with no turn to come. -/
def State.resetFor (b : Build) : State :=
  { build := b
    wa := analysisWindow b
    ws := synthesisWindow b
    lanes := List.replicate b.cMax (Lane.resetFor b)
    frameBuf := List.replicate b.cMax (List.replicate b.n 0x00000000#32)
    fifo := []
    fsr := Fsr.reset
    regs := HostRegs.reset
    err := ErrorRecord.reset
    shadows := Shadows.reset
    schedule := []
    response := none
    freeCount := 0 }

/-- The machine right after reset (R381, R382), for the open build of `Config` (log 1). -/
def State.reset : State := State.resetFor Config.build

/-- Building a block (R11, R354): refused unless the parameters meet the contract. -/
def State.instantiate (b : Build) : Host.Outcome State Fault Refusal :=
  if b.valid then .next (State.resetFor b) else .refused .illegalBuild

end Sys2Proof.Machine
end

