-- ==== Sys2Proof/Machine/Ops.lean ====
section
/-! DEFINITION. The shared operations: the two transaction preambles (R160, R180), fault entry (R342), reset
(R380), the lanes, the FIFO, and the placing of a transaction for the next step. -/

namespace Sys2Proof.Machine

/-- What a step or a meaning answers. -/
abbrev Answer := Host.Outcome State Fault Refusal

/-- Fault entry (R342): ERR, ERR_ADDR and ERR_DATA record the write, STATE becomes FAULT, and nothing else
of the block changes. -/
def enterFault (code : ErrCode) (addr : BitVec 8) (v : Word32) (s : State) : State :=
  { s with
    err := { code := code, addr := addr, data := v }
    fsr := { s.fsr with state := .fault } }

/-- Reset (R163, R380, R381), and with it the only exit from FAULT (R344): every state element takes its
reset value. The constants of R37 and R54 and the model's own fields stay (log 5). -/
def resetBlock (s : State) : State :=
  { s with
    lanes := List.replicate s.build.cMax (Lane.resetFor s.build)
    frameBuf := List.replicate s.build.cMax (List.replicate s.build.n 0x00000000#32)
    fifo := []
    fsr := Fsr.reset
    regs := HostRegs.reset
    err := ErrorRecord.reset
    shadows := Shadows.reset }

/-- The outcome of a write's own rule: its effect, or the error it raises, which ends the transaction with
no other effect (R17, R342). -/
def settleWrite (addr : BitVec 8) (v : Word32) (s : State) (r : Except ErrCode State) : State :=
  match r with
  | .ok t => t
  | .error code => enterFault code addr v s

/-- The write preamble (R160) before the rule of one register: in FAULT the write is ignored; otherwise
the rule runs. A write returns no word. SRST is the one write that has its own path (`execSrst`). -/
def hostWrite (addr : BitVec 8) (v : Word32) (s : State) (rule : State → Except ErrCode State) : Answer :=
  if s.fsr.state = .fault then .next { s with response := none }
  else .next { settleWrite addr v s (rule s) with response := none }

/-- The end of a read (R180): its word is answered. No read faults, in any state. -/
def hostRead (w : Word32) (s : State) : Answer := .next { s with response := some w }

/-- A read whose value the spec leaves open: the next free word, shaped by the limits the spec sets. -/
def hostReadFree (shape : Word32 → Word32) (s : State) : Answer :=
  hostRead (shape (Config.freeWord s.freeCount)) { s with freeCount := s.freeCount + 1 }

/-- A transaction whose key has no row (R127): misaligned (R82), reserved (R83) or of the wrong direction
(R84). A write raises BAD_ACCESS unless the block is in FAULT; a read returns 0 with no side effect. -/
def structuralAccess (t : Transaction) (s : State) : Answer :=
  if t.we then hostWrite t.addr t.data s fun _ => .error .badAccess
  else hostRead 0 s

/-- STATE is IDLE or DONE: no stream is running. -/
def betweenStreams (s : State) : Bool := s.fsr.state = .idle || s.fsr.state = .done

/-- STATE is RESAMPLING or DRAINING: a frame step may be pending (R389). -/
def framePending (s : State) : Bool := s.fsr.state = .resampling || s.fsr.state = .draining

/-- Lane c; a number without a lane reads as a fresh lane (log 19). -/
def laneAt (s : State) (c : Nat) : Lane := s.lanes.getD c (Lane.resetFor s.build)

/-- Lane c replaced. -/
def setLane (s : State) (c : Nat) (l : Lane) : State := { s with lanes := s.lanes.set c l }

/-- Every lane, FRAMEBUF, the FSR counters and RESULT as at the start of a stream (R164, R165, R383). The
STATE is the caller's. -/
def freshStream (s : State) (st : FsrState) : State :=
  { s with
    lanes := List.replicate s.build.cMax (Lane.resetFor s.build)
    frameBuf := List.replicate s.build.cMax (List.replicate s.build.n 0x00000000#32)
    fsr := { Fsr.reset with state := st }
    regs := { s.regs with result := 0 } }

/-- The transaction put first among the turns to come: the one the next step performs. -/
def placeTransaction (t : Transaction) (s : State) : State :=
  { s with schedule := .host t :: s.schedule }

end Sys2Proof.Machine
end

