-- ==== Sys2Proof/Machine/Operands.lean ====
section
/-! DEFINITION. The words the host writes and reads: operand forms of the commands (R129, R131, R135) and the
contents of the registers (R46 to R58, R130). -/

namespace Sys2Proof.Machine

/-- ID (R54): the ASCII bytes "DSD1". -/
def idWord : Word32 := 0x44534431#32

/-- PARAM_C (R54): C_MAX in bits [7:0], 0 above. -/
def paramCWord (b : Build) : Word32 := (BitVec.ofNat 8 b.cMax).setWidth 32

/-- The low and high words of a 64-bit quantity (R86). -/
def lowWord (x : BitVec 64) : Word32 := x.extractLsb' 0 32
/-- Bits [63:32] (R86). -/
def highWord (x : BitVec 64) : Word32 := x.extractLsb' 32 32
/-- Bits [31:0] replaced (R171). -/
def withLow (x : BitVec 64) (v : Word32) : BitVec 64 := highWord x ++ v
/-- Bits [63:32] replaced (R172). -/
def withHigh (x : BitVec 64) (v : Word32) : BitVec 64 := v ++ lowWord x

/-- D as an integer (R135: unsigned). -/
def durationOf (s : State) : Nat := s.regs.duration.toNat

/-- The decision bit NS_LOAD takes from DATA0 (R131): bit 0, the other bits ignored. -/
def loadedDecision (w : Word32) : Bool := w.getLsbD 0

/-- A decision as a bit of a word (R264): 1 for +1. -/
def bitWord (z : Bool) : Word32 := if z then 1 else 0

/-- The group word of R130: VALID, CH, NBITS, GROUP. -/
def groupWord (g : Group) : Word32 :=
  (1 : BitVec 1) ++ (0 : BitVec 7) ++ g.ch ++ (0 : BitVec 4) ++ BitVec.ofNat 4 g.nbits ++ g.bits

/-- FILL_POS (R56): POS above CH_PTR. -/
def fillPosWord (s : State) : Word32 := s.fsr.pos ++ s.fsr.chPtr

/-- OUT_LEVEL (R55). -/
def outLevelWord (s : State) : Word32 := BitVec.ofNat 32 s.fifo.length

/-- A free word as a NaN pattern, any one (U18): exponent 0xFF, a nonzero fraction. -/
def asNaN (w : Word32) : Word32 :=
  let quiet := w ||| 0x7F800000#32
  if quiet.extractLsb' 0 23 = 0 then quiet ||| 0x00400000#32 else quiet

end Sys2Proof.Machine
end

