-- ==== Sys2Proof/Machine/Overlap.lean ====
section
/-! DEFINITION. The overlap-add accumulator (R240 to R243). -/

namespace Sys2Proof.Machine

/-- The emitted output of R241: `out[j] = fadd(fmul(yhat[j], WS[j]), TAIL[j])` for j in [0, N·L). -/
def olaOutput (b : Build) (ws : List F32) (tail yhat : List F32) : List F32 :=
  tabulate b.nl fun j => fadd (fmul (yhat.getD j 0) (ws.getD j 0)) (tail.getD j 0)

/-- The new tail of R242: `TAIL[j] = fmul(yhat[NL + j], WS[NL - 1 - j])`: the window is reversed, the
samples are not. -/
def olaTail (b : Build) (ws : List F32) (yhat : List F32) : List F32 :=
  tabulate b.nl fun j => fmul (yhat.getD (b.nl + j) 0) (ws.getD (b.nl - 1 - j) 0)

/-- OLA_CALL of R241: the output is formed from the old tail, then the tail is replaced. -/
def olaCall (b : Build) (ws : List F32) (l : Lane) (yhat : List F32) : Lane × List F32 :=
  ({ l with tail := olaTail b ws yhat }, olaOutput b ws l.tail yhat)

end Sys2Proof.Machine
end

