-- ==== Sys2Proof/Machine/Resampler.lean ====
section
/-! DEFINITION. The resampler PRF (R200 to R218): the two buffer writes, the transform, and PRF_IDEAL (R214)
computed from the polyphase form of the exact map (R211). -/

namespace Sys2Proof.Machine

/-- A period-P array of integer coefficients. -/
abbrev Coeffs := List Int

/-- The coefficient at index `j` increased by `v`. -/
def bump (c : Coeffs) (j : Nat) (v : Int) : Coeffs := c.modify j (· + v)

/-- The contribution of input `n` with value `v` (in units of 2^-149) to output `m`, as coefficients of
cos(2π·j/(2NL)) (R211): `v·(1 + (-1)^(m+n))` at j = 0 and `2v` at `j = k·(m - nL) mod 2NL` for
`0 < k < N`. -/
def addInput (n l m : Nat) (c : Coeffs) (i : Nat) (v : Int) : Coeffs :=
  let period := 2 * n * l
  let base := bump c 0 (v + if (m + i) % 2 = 0 then v else -v)
  (List.range (n - 1)).foldl (fun c k => bump c (((k + 1) * (m + (period - i * l % period))) % period) (2 * v))
    base

/-- `2^149 · y[m]` of R211 as coefficients of cos(2π·j/(2NL)). -/
def mapCoeffs (n l : Nat) (b : List F32) (m : Nat) : Coeffs :=
  (List.range (2 * n)).foldl (fun c i => addInput n l m c i (scaled (b.getD i 0)))
    (List.replicate (2 * n * l) 0)

/-- `f(x)·(1 - x^k)` modulo `x^P - 1`. -/
def timesOneMinus (f : Coeffs) (k : Nat) : Coeffs :=
  tabulate f.length fun j => f.getD j 0 - f.getD ((j + f.length - k) % f.length) 0

/-- Whether `f` vanishes at a primitive P-th root of unity, P its length. Multiplying by `1 - x^(P/d)` for
every divisor d > 1 of P kills every root of `x^P - 1` that is not primitive and no primitive one, so `f`
vanishes there iff the product is zero modulo `x^P - 1`. -/
def vanishesAtRoot (f : Coeffs) : Bool :=
  (((List.range (f.length + 1)).filter fun d => 1 < d && f.length % d == 0).foldl
    (fun g d => timesOneMinus g (f.length / d)) f).all (· == 0)

/-- Whether the sum of `c[j]·cos(2π·j/P)` is exactly zero: twice it is the value at a primitive root of the
symmetrised coefficients. -/
def cosSumIsZero (c : Coeffs) : Bool :=
  vanishesAtRoot (tabulate c.length fun j => c.getD j 0 + c.getD ((c.length - j) % c.length) 0)

/-- The sum of `c[j]·cos(2π·j/P)` at scale 2^F. -/
def cosSum (c : Coeffs) (F : Nat) : Interval :=
  (List.range c.length).foldl
    (fun acc j => if c.getD j 0 = 0 then acc else acc.add ((cosTurn c.length F j).scale (c.getD j 0)))
    { lo := 0, hi := 0 }

/-- The integer nearest to the middle of an interval at scale 2^F. -/
def nearestInt (r : Interval) (F : Nat) : Int := (r.lo + r.hi + 2 ^ F) / 2 ^ (F + 1)

/-- The sum of the coefficients' magnitudes: no value of the sum of `c[j]·cos(2π·j/P)`, and no conjugate of it,
exceeds it. -/
def coeffWeight (c : Coeffs) : Nat := c.foldl (fun acc v => acc + Int.natAbs v) 0

/-- Bits enough for the sum to be known to well below one unit, with room for the interval's width, which
grows with the precision. -/
def mapPrecision (c : Coeffs) : Nat := (coeffWeight c).log2 + 2 * (coeffWeight c).log2.log2 + 40

/-- Bits that tell an irrational sum from every rounding boundary near it (log 8): twice the difference is a
nonzero algebraic integer in the field of the P-th roots of unity, and near the sum no conjugate of it exceeds
8 times the weight. So its magnitude is at least the inverse of that bound to the power P. -/
def mapNeed (c : Coeffs) : Nat := 2 * ((c.length + 2) * ((coeffWeight c).log2 + 4)) + 64

/-- The word RNE32 gives for `2^-149` times the sum of `c[j]·cos(2π·j/P)`. The sum is an algebraic integer:
it is an integer, found and tested exactly, or irrational, and then no tie occurs and the last precision
tried is enough to settle it, however near a boundary it lies (log 8; Laws/Settle.lean). An exact zero gives +0.0 (R214). -/
def cosSumSearch (c : Coeffs) : Option F32 :=
  let F := mapPrecision c
  let q := nearestInt (cosSum c F) F
  if cosSumIsZero (bump c 0 (-q)) then some (roundScaled (decide (q < 0)) q.natAbs 0)
  else firstSettled (precisions F (mapNeed c)) fun p => settle (cosSum c p) (2 ^ p * 2 ^ 149)

/-- The word the search finds. The free value stands where a search finds none, which never happens for the
coefficients of the map (`cosSumSearch_settles` of Laws/Settle.lean). -/
def roundCosSum (c : Coeffs) : F32 := (cosSumSearch c).getD (Config.unsettled c)

/-- PRF_IDEAL of R214: the exact value rounded once. R214 speaks of finite buffers only; on any other the
value is the implementation's (log 7). Where a nonzero exact value rounds to zero, R214 does not say which zero; the
model keeps the exact value's sign, which is its choice (log 23). -/
def prfIdeal (n l : Nat) (b : List F32) (m : Nat) : F32 :=
  if (b.take (2 * n)).all isFinite then roundCosSum (mapCoeffs n l b m) else Config.prfFn n l b m

/-- PRF_FN of R205 on the path the build takes (R13): yhat[0..2NL), each value a binary32 word that depends
on the 2N values of INBUF alone (R210). -/
def prfFn (b : Build) (inbuf : List F32) : List F32 :=
  match b.prf with
  | .ideal => tabulate (2 * b.nl) (prfIdeal b.n b.l inbuf)
  | .implementation => tabulate (2 * b.nl) (Config.prfFn b.n b.l inbuf)

/-- INBUF[N..2N) replaced (R204): `INBUF[N + i] = fmul(x[i], WA[N - 1 - i])`. -/
def writeSecondHalf (b : Build) (wa : List F32) (inbuf x : List F32) : List F32 :=
  tabulate b.n (fun i => inbuf.getD i 0) ++ tabulate b.n fun i => fmul (x.getD i 0) (wa.getD (b.n - 1 - i) 0)

/-- INBUF[0..N) replaced (R206): `INBUF[i] = fmul(x[i], WA[i])`. -/
def writeFirstHalf (b : Build) (wa : List F32) (inbuf x : List F32) : List F32 :=
  (tabulate b.n fun i => fmul (x.getD i 0) (wa.getD i 0)) ++ tabulate b.n fun i => inbuf.getD (b.n + i) 0

/-- PRF_CALL of R200: second-half write, transform, first-half write, in that order. -/
def prfCall (b : Build) (wa : List F32) (l : Lane) (x : List F32) : Lane × List F32 :=
  let buf := writeSecondHalf b wa l.inbuf x
  ({ l with inbuf := writeFirstHalf b wa buf x }, prfFn b buf)

end Sys2Proof.Machine
end

