-- ==== Sys2Proof/Machine/Shaper.lean ====
section
/-! DEFINITION. The second-order noise shaper (R260 to R269). -/

namespace Sys2Proof.Machine

/-- NSStep of R261 on one lane: every operation rounded on its own, left to right (R262); both
subtractions use the old decision; the new decision is formed last (R263). The Bool answered is the output
bit (R264). -/
def nsStep (l : Lane) (x : F32) : Lane × Bool :=
  let zf := unitOf l.z
  let t := fadd l.z2 x
  let z2n := fsub t zf
  let u := fadd l.z1 z2n
  let z1n := fsub u zf
  let zn := geZero z1n
  ({ l with z := zn, z1 := z1n, z2 := z2n }, zn)

/-- NSStep over a run of samples in time order (R265), with the bits in time order. -/
def nsRun (l : Lane) : List F32 → Lane × List Bool
  | [] => (l, [])
  | x :: xs =>
    let step := nsStep l x
    let rest := nsRun step.1 xs
    (rest.1, step.2 :: rest.2)

end Sys2Proof.Machine
end

