-- ==== Sys2Proof/Machine/FrameState.lean ====
section
/-! DEFINITION. The frame state register (R290 to R310): sample acceptance, the frame step of the core, and
the next state. -/

namespace Sys2Proof.Machine

/-- Short final frame (R294): positions from `pos` on are zero-filled in every active channel. -/
def zeroFill (s : State) (pos : Nat) : List (List F32) :=
  s.frameBuf.mapIdx fun c row =>
    if c < s.regs.chCount.toNat then row.take pos ++ List.replicate (s.build.n - pos) 0x00000000#32 else row

/-- CompleteFrame of R294, with POS as it stands after the last slot (it may be N, which POS itself never
holds). -/
def completeFrame (pos : Nat) (s : State) : State :=
  { s with
    frameBuf := zeroFill s pos
    fsr := { s.fsr with pos := 0, state := .resampling } }

/-- `FRAMEBUF[CH_PTR][POS] <- v` of R293. -/
def storeSample (v : F32) (s : State) : State :=
  { s with frameBuf := s.frameBuf.modify s.fsr.chPtr.toNat fun row => row.set s.fsr.pos.toNat v }

/-- The last sample of a time slot has been stored (R293): the slot is counted, and the frame completed if
it is full or the stream has all its samples. -/
def finishSlot (s : State) : State :=
  let pos := s.fsr.pos.toNat + 1
  let count := s.fsr.inCount + 1
  let t := { s with fsr := { s.fsr with chPtr := 0, pos := BitVec.ofNat 24 pos, inCount := count } }
  if pos = s.build.n ∨ count = s.regs.duration then completeFrame pos t else t

/-- AcceptSample of R293. -/
def acceptSample (v : F32) (s : State) : State :=
  let t := storeSample v s
  if s.fsr.chPtr.toNat + 1 < s.regs.chCount.toNat then
    { t with fsr := { t.fsr with chPtr := s.fsr.chPtr + 1 } }
  else finishSlot t

/-- R295: the frame step is enabled exactly when STATE is RESAMPLING or DRAINING and the FIFO is empty. -/
def frameEnabled (s : State) : Bool := framePending s && s.fifo.isEmpty

/-- W of R296: nothing in the first frame (R298), and never beyond D·L (R299). -/
def pushWidth (s : State) : Nat :=
  if s.fsr.frameIdx = 0 then 0 else min s.build.nl (s.build.l * durationOf s - s.fsr.outCount.toNat)

/-- The frame a lane processes (R296): all +0.0 in DRAINING (R297), FRAMEBUF[c] otherwise. -/
def frameInput (s : State) (c : Nat) : List F32 :=
  if s.fsr.state = .draining then List.replicate s.build.n 0x00000000#32 else s.frameBuf.getD c []

/-- One lane of a frame step (R296): PRF, then OLA, then NS. -/
def laneFrame (b : Build) (wa ws : List F32) (l : Lane) (x : List F32) : Lane × List Bool :=
  let prf := prfCall b wa l x
  let ola := olaCall b ws prf.1 prf.2
  nsRun ola.1 ola.2

/-- The 8-bit GROUP of at most 8 bits in time order, the first at bit 7 (R130, R300). -/
def packBits (bits : List Bool) : BitVec 8 :=
  BitVec.ofNat 8 ((List.range 8).foldl (fun acc t => acc + if bits.getD t false then 2 ^ (7 - t) else 0) 0)

/-- The groups of one lane's first `w` bits (R300): cut in eights from the frame's first bit. -/
def groupsOf (c w : Nat) (bits : List Bool) : List Group :=
  tabulate (ceilDiv w 8) fun g =>
    let nb := min 8 (w - 8 * g)
    { ch := BitVec.ofNat 8 c, nbits := nb, bits := packBits ((bits.drop (8 * g)).take nb) }

/-- The lanes of a frame step in channel order (R296): what each of the active lanes becomes, with its
bits. -/
def activeLanes (s : State) : List (Lane × List Bool) :=
  tabulate s.regs.chCount.toNat fun c => laneFrame s.build s.wa s.ws (laneAt s c) (frameInput s c)

/-- NextState of R302. -/
def nextState (s : State) : FsrState :=
  if s.fsr.state = .draining then .done
  else if s.fsr.inCount = s.regs.duration then .draining
  else .filling

/-- FrameStep of R296: the single operation of the core. Lanes from CH_COUNT on are not touched. -/
def frameStep (s : State) : State :=
  let w := pushWidth s
  let run := activeLanes s
  { s with
    lanes := run.map Prod.fst ++ s.lanes.drop s.regs.chCount.toNat
    fifo := s.fifo ++ (run.mapIdx fun c r => groupsOf c w r.2).flatten
    fsr :=
      { s.fsr with
        outCount := s.fsr.outCount + BitVec.ofNat 64 w
        frameIdx := s.fsr.frameIdx + 1
        state := nextState s } }

/-- The core's turn (R295): a frame step if one is enabled, nothing otherwise. -/
def coreTurn (s : State) : State := if frameEnabled s then frameStep s else s

end Sys2Proof.Machine
end

