-- ==== Sys2Proof/Machine/Commands.lean ====
section
/-! DEFINITION. The commands (R162 to R167) and the CMD write that decodes them (R161). Each is a host write of
its command word to CMD, so it runs under the write preamble (R160). -/

namespace Sys2Proof.Machine

/-- The offset of CMD (R81). -/
def cmdAddr : BitVec 8 := 0x10

/-- A write of one command's word to CMD (R133, R160). -/
def hostCommand (c : Command) (s : State) (rule : State → Except ErrCode State) : Answer :=
  hostWrite cmdAddr (encodeCommand c) s rule

/-- NOP (R162): no operation. -/
def execNop (s : State) : Answer := hostCommand .nop s .ok

/-- SRST (R163): accepted in every state, FAULT included (R160). -/
def execSrst (s : State) : Answer := .next { resetBlock s with response := none }

/-- The checks and the effect of START (R164), in the order R345 gives. D = 0 goes straight to DRAINING
(R306). -/
def startStream (s : State) : Except ErrCode State :=
  if !betweenStreams s then .error .badState
  else if !s.fifo.isEmpty then .error .badState
  else if s.regs.chCount.toNat < 1 || s.build.cMax < s.regs.chCount.toNat then .error .badConfig
  else if 2 ^ 64 - 1 < s.build.l * durationOf s then .error .badConfig
  else .ok (freshStream s (if s.regs.duration = 0 then .draining else .filling))

/-- START (R164): begin a stream. -/
def execStart (s : State) : Answer := hostCommand .start s startStream

/-- The effect of ABORT (R165): the configuration stays, the stream and the FIFO go. -/
def abandonStream (s : State) : State := { freshStream s .idle with fifo := [] }

/-- ABORT (R165): abandon the stream; ignored in FAULT by the preamble. -/
def execAbort (s : State) : Answer := hostCommand .abort s fun s => .ok (abandonStream s)

/-- The effect of NS_STEP (R166): one noise-shaper step on lane ch, its bit in RESULT. -/
def testStep (ch : BitVec 8) (s : State) : Except ErrCode State :=
  if s.build.cMax ≤ ch.toNat then .error .illegalCmd
  else if !betweenStreams s then .error .badState
  else if !isFinite s.regs.data0 then .error .badSample
  else
    let r := nsStep (laneAt s ch.toNat) s.regs.data0
    let t := setLane s ch.toNat r.1
    .ok { t with regs := { t.regs with result := 0x80000000#32 ||| bitWord r.2 } }

/-- NS_STEP (R166). A lane operand at or above C_MAX makes the word illegal (R123, R125; log 16). -/
def execNsStep (ch : BitVec 8) (s : State) : Answer := hostCommand (.nsStep ch) s (testStep ch)

/-- The effect of NS_LOAD (R167): z, z1 and z2 of lane ch from DATA0, DATA1 and DATA2. -/
def testLoad (ch : BitVec 8) (s : State) : Except ErrCode State :=
  if s.build.cMax ≤ ch.toNat then .error .illegalCmd
  else if !betweenStreams s then .error .badState
  else if !isFinite s.regs.data1 || !isFinite s.regs.data2 then .error .badSample
  else
    .ok (setLane s ch.toNat
      { laneAt s ch.toNat with z := loadedDecision s.regs.data0, z1 := s.regs.data1, z2 := s.regs.data2 })

/-- NS_LOAD (R167). A lane operand at or above C_MAX makes the word illegal (R123, R125; log 16). -/
def execNsLoad (ch : BitVec 8) (s : State) : Answer := hostCommand (.nsLoad ch) s (testLoad ch)

/-- WR_CMD (R161, R128): the data word is decoded a second time and its command executed; a word that
decodes to ILLEGAL raises ILLEGAL_CMD (R126). In FAULT only SRST has an effect (R160). -/
def execWrCmd (v : Word32) (s : State) : Answer :=
  match decodeCommand s.build.cMax v with
  | some .nop => execNop s
  | some .srst => execSrst s
  | some .start => execStart s
  | some .abort => execAbort s
  | some (.nsStep ch) => execNsStep ch s
  | some (.nsLoad ch) => execNsLoad ch s
  | none => hostWrite cmdAddr v s fun _ => .error .illegalCmd

end Sys2Proof.Machine
end

