-- ==== Sys2Proof/Machine/Flags.lean ====
section
/-! DEFINITION. The STATUS fields (R52), the error code (R341) and the interrupt line (R347): functions of the
state, with no storage of their own. -/

namespace Sys2Proof.Machine

/-- The 3-bit code of STATE (R40). -/
def stateCode (st : FsrState) : BitVec 3 :=
  match st with
  | .idle => 0
  | .filling => 1
  | .resampling => 2
  | .draining => 3
  | .done => 4
  | .fault => 7

/-- The 4-bit error code (R341). -/
def errCode (e : ErrCode) : BitVec 4 :=
  match e with
  | .none => 0
  | .illegalCmd => 1
  | .badState => 2
  | .badConfig => 3
  | .badAccess => 4
  | .inNotReady => 5
  | .badSample => 6

/-- IN_READY: STATE is FILLING. -/
def inReady (s : State) : Bool := s.fsr.state = .filling
/-- OUT_VALID: the FIFO is not empty. -/
def outValid (s : State) : Bool := !s.fifo.isEmpty
/-- DONE: STATE is DONE. -/
def doneFlag (s : State) : Bool := s.fsr.state = .done
/-- FAULT: STATE is FAULT. -/
def faultFlag (s : State) : Bool := s.fsr.state = .fault
/-- DISCARD_PENDING: no frame of the running stream has been processed. -/
def discardPending (s : State) : Bool :=
  s.fsr.frameIdx = 0 && (s.fsr.state = .filling || s.fsr.state = .resampling || s.fsr.state = .draining)

/-- STATUS (R52). -/
def statusWord (s : State) : Word32 :=
  (0 : BitVec 19) ++ BitVec.ofBool (discardPending s) ++ errCode s.err.code ++ BitVec.ofBool (faultFlag s)
    ++ BitVec.ofBool (doneFlag s) ++ BitVec.ofBool (outValid s) ++ BitVec.ofBool (inReady s) ++ (0 : BitVec 1)
    ++ stateCode s.fsr.state

/-- The interrupt line (R347): level-sensitive, a function of the current state only. -/
def irq (s : State) : Bool :=
  (s.regs.irqEn.getLsbD 0 && inReady s) || (s.regs.irqEn.getLsbD 1 && outValid s)
    || (s.regs.irqEn.getLsbD 2 && doneFlag s) || (s.regs.irqEn.getLsbD 3 && faultFlag s)

end Sys2Proof.Machine
end

