-- ==== Sys2Proof/Machine/RegisterReads.lean ====
section
/-! DEFINITION. The register reads but BITS_OUT: the plain reads (R178), the latching counter reads and their
shadows (R176, R177), and the debug views (R179). -/

namespace Sys2Proof.Machine

/-- RD_ID (R178, R54). -/
def execRdId (s : State) : Answer := hostRead idWord s
/-- RD_PARAM_N (R178, R54): N. -/
def execRdParamN (s : State) : Answer := hostRead (BitVec.ofNat 32 s.build.n) s
/-- RD_PARAM_L (R178, R54): L. -/
def execRdParamL (s : State) : Answer := hostRead (BitVec.ofNat 32 s.build.l) s
/-- RD_PARAM_C (R178, R54): C_MAX in bits [7:0]. -/
def execRdParamC (s : State) : Answer := hostRead (paramCWord s.build) s
/-- RD_STATUS (R178, R52). -/
def execRdStatus (s : State) : Answer := hostRead (statusWord s) s
/-- RD_ERR_ADDR (R178, R53). -/
def execRdErrAddr (s : State) : Answer := hostRead (s.err.addr.setWidth 32) s
/-- RD_ERR_DATA (R178, R53). -/
def execRdErrData (s : State) : Answer := hostRead s.err.data s
/-- RD_IRQ_EN (R178, R48): bits [31:4] read 0. -/
def execRdIrqEn (s : State) : Answer := hostRead (s.regs.irqEn.setWidth 32) s
/-- RD_CH_COUNT (R178, R46): bits [31:8] read 0. -/
def execRdChCount (s : State) : Answer := hostRead (s.regs.chCount.setWidth 32) s
/-- RD_DURATION_LO (R178, R47). -/
def execRdDurationLo (s : State) : Answer := hostRead (lowWord s.regs.duration) s
/-- RD_DURATION_HI (R178, R47). -/
def execRdDurationHi (s : State) : Answer := hostRead (highWord s.regs.duration) s
/-- RD_OUT_LEVEL (R178, R55). -/
def execRdOutLevel (s : State) : Answer := hostRead (outLevelWord s) s
/-- RD_FILL_POS (R178, R56). -/
def execRdFillPos (s : State) : Answer := hostRead (fillPosWord s) s
/-- RD_CH_SEL (R178, R49): bits [31:8] read 0. -/
def execRdChSel (s : State) : Answer := hostRead (s.regs.chSel.setWidth 32) s
/-- RD_DATA0 (R178, R50). -/
def execRdData0 (s : State) : Answer := hostRead s.regs.data0 s
/-- RD_DATA1 (R178, R50). -/
def execRdData1 (s : State) : Answer := hostRead s.regs.data1 s
/-- RD_DATA2 (R178, R50). -/
def execRdData2 (s : State) : Answer := hostRead s.regs.data2 s
/-- RD_RESULT (R178, R51). -/
def execRdResult (s : State) : Answer := hostRead s.regs.result s

/-- RD_FRAME_IDX_LO (R176): the low half is returned, the high half latched in SH_FRAME. -/
def execRdFrameIdxLo (s : State) : Answer :=
  hostRead (lowWord s.fsr.frameIdx) { s with shadows := { s.shadows with frame := highWord s.fsr.frameIdx } }
/-- RD_IN_COUNT_LO (R176), latching SH_IN. -/
def execRdInCountLo (s : State) : Answer :=
  hostRead (lowWord s.fsr.inCount) { s with shadows := { s.shadows with input := highWord s.fsr.inCount } }
/-- RD_OUT_COUNT_LO (R176), latching SH_OUT. -/
def execRdOutCountLo (s : State) : Answer :=
  hostRead (lowWord s.fsr.outCount) { s with shadows := { s.shadows with output := highWord s.fsr.outCount } }

/-- RD_FRAME_IDX_HI (R177): the shadow, not the live counter. -/
def execRdFrameIdxHi (s : State) : Answer := hostRead s.shadows.frame s
/-- RD_IN_COUNT_HI (R177). -/
def execRdInCountHi (s : State) : Answer := hostRead s.shadows.input s
/-- RD_OUT_COUNT_HI (R177). -/
def execRdOutCountHi (s : State) : Answer := hostRead s.shadows.output s

/-- A debug view (R179): unspecified while a frame step may be pending (R389, U3; log 10), 0 where CH_SEL
selects no lane, else the selected lane's word. -/
def debugRead (s : State) (view : Lane → Answer) : Answer :=
  if framePending s then hostReadFree id s
  else if s.build.cMax ≤ s.regs.chSel.toNat then hostRead 0 s
  else view (laneAt s s.regs.chSel.toNat)

/-- The word of an integrator: its bits, or any NaN pattern where it holds a NaN, which only the core can
have made (U18; log 9). -/
def integratorRead (a : F32) (s : State) : Answer :=
  if isNaN a then hostReadFree asNaN s else hostRead a s

/-- RD_DBG_Z (R179). -/
def execRdDbgZ (s : State) : Answer := debugRead s fun l => hostRead (bitWord l.z) s
/-- RD_DBG_Z1 (R179). -/
def execRdDbgZ1 (s : State) : Answer := debugRead s fun l => integratorRead l.z1 s
/-- RD_DBG_Z2 (R179). -/
def execRdDbgZ2 (s : State) : Answer := debugRead s fun l => integratorRead l.z2 s

end Sys2Proof.Machine
end

