-- ==== Sys2Proof/Machine/RegisterWrites.lean ====
section
/-! DEFINITION. The writes of the configuration and operand registers (R170 to R175). -/

namespace Sys2Proof.Machine

/-- A write of a register that may change only between streams (R170 to R172, R387): BAD_STATE otherwise. -/
def configure (s : State) (regs : HostRegs) : Except ErrCode State :=
  if betweenStreams s then .ok { s with regs := regs } else .error .badState

/-- WR_IRQ_EN (R173): bits [3:0]; the others are ignored. -/
def execWrIrqEn (v : Word32) (s : State) : Answer :=
  hostWrite 0x20 v s fun s => .ok { s with regs := { s.regs with irqEn := v.extractLsb' 0 4 } }

/-- WR_CH_COUNT (R170): bits [7:0]; an out-of-range count is stored and checked by START. -/
def execWrChCount (v : Word32) (s : State) : Answer :=
  hostWrite 0x24 v s fun s => configure s { s.regs with chCount := v.extractLsb' 0 8 }

/-- WR_DURATION_LO (R171). -/
def execWrDurationLo (v : Word32) (s : State) : Answer :=
  hostWrite 0x28 v s fun s => configure s { s.regs with duration := withLow s.regs.duration v }

/-- WR_DURATION_HI (R172). -/
def execWrDurationHi (v : Word32) (s : State) : Answer :=
  hostWrite 0x2C v s fun s => configure s { s.regs with duration := withHigh s.regs.duration v }

/-- WR_CH_SEL (R174): bits [7:0]; any value may be stored. -/
def execWrChSel (v : Word32) (s : State) : Answer :=
  hostWrite 0x58 v s fun s => .ok { s with regs := { s.regs with chSel := v.extractLsb' 0 8 } }

/-- WR_DATA0 (R175): no check at the write. -/
def execWrData0 (v : Word32) (s : State) : Answer :=
  hostWrite 0x68 v s fun s => .ok { s with regs := { s.regs with data0 := v } }

/-- WR_DATA1 (R175): no check at the write. -/
def execWrData1 (v : Word32) (s : State) : Answer :=
  hostWrite 0x6C v s fun s => .ok { s with regs := { s.regs with data1 := v } }

/-- WR_DATA2 (R175): no check at the write. -/
def execWrData2 (v : Word32) (s : State) : Answer :=
  hostWrite 0x70 v s fun s => .ok { s with regs := { s.regs with data2 := v } }

end Sys2Proof.Machine
end

