-- ==== Sys2Proof/Machine/Stream.lean ====
section
/-! DEFINITION. The stream data registers: SAMPLE_IN (R168) and BITS_OUT (R169). -/

namespace Sys2Proof.Machine

/-- The checks and the effect of a SAMPLE_IN write (R168): the state first, then the value (R345). -/
def pushSample (v : Word32) (s : State) : Except ErrCode State :=
  if s.fsr.state ≠ .filling then .error .inNotReady
  else if !isFinite v then .error .badSample
  else .ok (acceptSample v s)

/-- WR_SAMPLE_IN (R168): supply the next input sample. -/
def execWrSampleIn (v : Word32) (s : State) : Answer := hostWrite 0x30 v s (pushSample v)

/-- RD_BITS_OUT (R169): take the oldest output group; an empty FIFO reads 0. Allowed in every state. -/
def execRdBitsOut (s : State) : Answer :=
  match s.fifo with
  | [] => hostRead 0 s
  | g :: rest => hostRead (groupWord g) { s with fifo := rest }

end Sys2Proof.Machine
end

