-- ==== Sys2Proof/Machine/Dispatch.lean ====
section
/-! DEFINITION. One arm for each row of the opcode table. -/

namespace Sys2Proof.Machine

/-- The meaning of each instruction. -/
def exec (i : Instr) (s : State) : Host.Outcome State Fault Refusal :=
  match i with
  | .nop => Sys2Proof.Machine.execNop s
  | .srst => Sys2Proof.Machine.execSrst s
  | .start => Sys2Proof.Machine.execStart s
  | .abort => Sys2Proof.Machine.execAbort s
  | .nsStep ch => Sys2Proof.Machine.execNsStep ch s
  | .nsLoad ch => Sys2Proof.Machine.execNsLoad ch s
  | .rdId => Sys2Proof.Machine.execRdId s
  | .rdParamN => Sys2Proof.Machine.execRdParamN s
  | .rdParamL => Sys2Proof.Machine.execRdParamL s
  | .rdParamC => Sys2Proof.Machine.execRdParamC s
  | .wrCmd v => Sys2Proof.Machine.execWrCmd v s
  | .rdStatus => Sys2Proof.Machine.execRdStatus s
  | .rdErrAddr => Sys2Proof.Machine.execRdErrAddr s
  | .rdErrData => Sys2Proof.Machine.execRdErrData s
  | .wrIrqEn v => Sys2Proof.Machine.execWrIrqEn v s
  | .rdIrqEn => Sys2Proof.Machine.execRdIrqEn s
  | .wrChCount v => Sys2Proof.Machine.execWrChCount v s
  | .rdChCount => Sys2Proof.Machine.execRdChCount s
  | .wrDurationLo v => Sys2Proof.Machine.execWrDurationLo v s
  | .rdDurationLo => Sys2Proof.Machine.execRdDurationLo s
  | .wrDurationHi v => Sys2Proof.Machine.execWrDurationHi v s
  | .rdDurationHi => Sys2Proof.Machine.execRdDurationHi s
  | .wrSampleIn v => Sys2Proof.Machine.execWrSampleIn v s
  | .rdBitsOut => Sys2Proof.Machine.execRdBitsOut s
  | .rdOutLevel => Sys2Proof.Machine.execRdOutLevel s
  | .rdFillPos => Sys2Proof.Machine.execRdFillPos s
  | .rdFrameIdxLo => Sys2Proof.Machine.execRdFrameIdxLo s
  | .rdFrameIdxHi => Sys2Proof.Machine.execRdFrameIdxHi s
  | .rdInCountLo => Sys2Proof.Machine.execRdInCountLo s
  | .rdInCountHi => Sys2Proof.Machine.execRdInCountHi s
  | .rdOutCountLo => Sys2Proof.Machine.execRdOutCountLo s
  | .rdOutCountHi => Sys2Proof.Machine.execRdOutCountHi s
  | .wrChSel v => Sys2Proof.Machine.execWrChSel v s
  | .rdChSel => Sys2Proof.Machine.execRdChSel s
  | .rdDbgZ => Sys2Proof.Machine.execRdDbgZ s
  | .rdDbgZ1 => Sys2Proof.Machine.execRdDbgZ1 s
  | .rdDbgZ2 => Sys2Proof.Machine.execRdDbgZ2 s
  | .wrData0 v => Sys2Proof.Machine.execWrData0 v s
  | .rdData0 => Sys2Proof.Machine.execRdData0 s
  | .wrData1 v => Sys2Proof.Machine.execWrData1 v s
  | .rdData1 => Sys2Proof.Machine.execRdData1 s
  | .wrData2 v => Sys2Proof.Machine.execWrData2 v s
  | .rdData2 => Sys2Proof.Machine.execRdData2 s
  | .rdResult => Sys2Proof.Machine.execRdResult s

end Sys2Proof.Machine
end

