-- ==== Sys2Proof/Machine/Step.lean ====
section
/-! DEFINITION. One step of the machine: the next turn of the schedule (R14). -/

namespace Sys2Proof.Machine

/-- One step (R14, R89, R90): the next turn is taken off the schedule and performed. A host turn decodes the
transaction's key and runs its row (R127), or the structural access rules where it has none (R82 to R84). A
core turn runs the frame step if it is enabled (R295). With no turn to come the core goes on alone: it runs
an enabled frame step (R391: no delay is for ever), and otherwise the block waits (R382). -/
def step (s : State) : Host.Outcome State Fault Refusal :=
  match s.schedule with
  | [] => .next (coreTurn s)
  | .core :: rest => .next (coreTurn { s with schedule := rest })
  | .reset :: rest => .next (resetBlock { s with schedule := rest })
  | .host t :: rest =>
    match decodeBus t with
    | some i => exec i { s with schedule := rest }
    | none => structuralAccess t { s with schedule := rest }

/-- The state in which the very next step performs the transaction of a row of the opcode table: it is put
first in the schedule (log 3). -/
def State.withFetchWord (s : State) (nbits w : Nat) : State :=
  placeTransaction (encodingOfWord nbits w).transaction s

end Sys2Proof.Machine
end

