-- ==== Sys2Proof/Safety.lean ====
section
/-! DEFINITION. What claims about the machine are stated in: the invariants of the state (R310 and the shapes of
R30 to R44), the meaning of binary32 rounding (R16), and the exact real-valued map of the resampler (R207 to
R211) with the conformance of PRF_FN (R210). Nothing here is run. -/

namespace Sys2Proof.Machine

/-- A FIFO entry as R39 and R130 describe it: 1 to 8 bits, a channel below C_MAX, unused low bits 0. -/
def groupOk (b : Build) (g : Group) : Bool :=
  decide (1 ≤ g.nbits) && decide (g.nbits ≤ 8) && decide (g.ch.toNat < b.cMax)
    && g.bits.toNat % 2 ^ (8 - g.nbits) == 0

/-- The sizes of every memory (R32, R35 to R39) and a legal build (R11). -/
structure ShapeOk (s : State) : Prop where
  build : s.build.valid = true
  wa : s.wa.length = s.build.n
  ws : s.ws.length = s.build.nl
  lanes : s.lanes.length = s.build.cMax
  inbuf : ∀ l ∈ s.lanes, l.inbuf.length = 2 * s.build.n
  tail : ∀ l ∈ s.lanes, l.tail.length = s.build.nl
  rows : s.frameBuf.length = s.build.cMax
  row : ∀ r ∈ s.frameBuf, r.length = s.build.n
  depth : s.fifo.length ≤ s.build.outDepth
  groups : ∀ g ∈ s.fifo, groupOk s.build g = true

/-- STATE is one of the three states of a running stream. -/
abbrev streaming (s : State) : Prop :=
  s.fsr.state = .filling ∨ s.fsr.state = .resampling ∨ s.fsr.state = .draining

/-- What holds between steps of a running stream (R310), and the checks START made of its configuration
(R164), which cannot change while it runs (R387). -/
structure StreamOk (s : State) : Prop where
  channels : streaming s → 1 ≤ s.regs.chCount.toNat ∧ s.regs.chCount.toNat ≤ s.build.cMax
  bound : streaming s → s.build.l * durationOf s ≤ 2 ^ 64 - 1
  emitted : streaming s →
    s.fsr.outCount.toNat = min (s.build.l * durationOf s) ((s.fsr.frameIdx.toNat - 1) * s.build.nl)
  filling : s.fsr.state = .filling →
    s.fsr.inCount.toNat < durationOf s ∧ s.fsr.pos.toNat < s.build.n
      ∧ s.fsr.chPtr.toNat < s.regs.chCount.toNat
      ∧ s.fsr.inCount.toNat = s.fsr.frameIdx.toNat * s.build.n + s.fsr.pos.toNat
  resampling : s.fsr.state = .resampling →
    s.fsr.pos = 0 ∧ s.fsr.chPtr = 0 ∧ s.fsr.frameIdx.toNat * s.build.n < durationOf s
      ∧ s.fsr.inCount.toNat = min (durationOf s) ((s.fsr.frameIdx.toNat + 1) * s.build.n)
  draining : s.fsr.state = .draining →
    s.fsr.inCount.toNat = durationOf s ∧ s.fsr.frameIdx.toNat = ceilDiv (durationOf s) s.build.n

/-- The error record is empty outside FAULT and holds a code in it (R53, R342); the samples waiting in
FRAMEBUF are finite (R168); RESULT has only its two fields (R51). -/
structure RecordOk (s : State) : Prop where
  noError : s.fsr.state ≠ .fault → s.err = ErrorRecord.reset
  someError : s.fsr.state = .fault → s.err.code ≠ .none
  finite : ∀ r ∈ s.frameBuf, ∀ v ∈ r, isFinite v = true
  result : s.regs.result = 0x00000000#32 ∨ s.regs.result = 0x80000000#32 ∨ s.regs.result = 0x80000001#32

/-- The invariant of the machine. -/
structure Inv (s : State) : Prop where
  shape : ShapeOk s
  stream : StreamOk s
  record : RecordOk s

/-! What an instruction may touch, by constructor. -/

/-- The instructions that reach the lanes (R96, R166, R167: the commands; WR_CMD carries one). -/
def mayWriteLanes (i : Instr) : Bool :=
  match i with
  | .srst | .start | .abort | .nsStep _ | .nsLoad _ | .wrCmd _ => true
  | _ => false

/-- The instructions that reach FRAMEBUF (R38, R163 to R165). -/
def mayWriteFrameBuf (i : Instr) : Bool :=
  match i with
  | .srst | .start | .abort | .wrCmd _ | .wrSampleIn _ => true
  | _ => false

/-- The instructions that reach the output FIFO (R163, R165, R169). -/
def mayWriteFifo (i : Instr) : Bool :=
  match i with
  | .srst | .abort | .wrCmd _ | .rdBitsOut => true
  | _ => false

/-- The instructions that reach the read shadows (R57, R163). -/
def mayWriteShadows (i : Instr) : Bool :=
  match i with
  | .srst | .wrCmd _ | .rdFrameIdxLo | .rdInCountLo | .rdOutCountLo => true
  | _ => false

/-- The instructions that are host reads: their transaction has WE = 0 (R127). -/
def isRead (i : Instr) : Bool := !(transactionOf i).we

/-- The output bits of a FIFO entry in time order (R130): bit 7 first. -/
def groupBits (g : Group) : List Bool := (List.range g.nbits).map fun t => g.bits.getLsbD (7 - t)

/-- The number 1 for a condition that holds, 0 otherwise. -/
def flagBit (p : Bool) (bit : Nat) : Nat := if p then 2 ^ bit else 0

/-- The state with an error recorded for a write of `v` to `addr` (R342), the write answered. -/
def faulted (code : ErrCode) (addr : BitVec 8) (v : Word32) (s : State) : State :=
  { s with
    err := { code := code, addr := addr, data := v }
    fsr := { s.fsr with state := .fault }
    response := none }

/-! The meaning of rounding (R16). -/

/-- The real number a finite sample word stands for (R87). -/
noncomputable def valueOf (a : F32) : ℝ := (scaled a : ℝ) / 2 ^ 149

/-- `w` is RNE32 of the real `x` (R16): infinity from half a unit beyond the largest finite value on,
otherwise a nearest finite value, the one with an even significand where two are nearest. A result that is not
zero has x's sign; of a zero result R16 gives no sign here, `KeepsSign` speaks of that. -/
structure IsRne (x : ℝ) (w : F32) : Prop where
  overflow : (2 : ℝ) ^ 128 - 2 ^ 103 ≤ |x| → isInf w = true
  finite : |x| < (2 : ℝ) ^ 128 - 2 ^ 103 → isFinite w = true
  nearest : |x| < (2 : ℝ) ^ 128 - 2 ^ 103 → ∀ u, isFinite u = true → |valueOf w - x| ≤ |valueOf u - x|
  even : |x| < (2 : ℝ) ^ 128 - 2 ^ 103 → ∀ u, isFinite u = true → valueOf u ≠ valueOf w →
    |valueOf u - x| = |valueOf w - x| → fracField w % 2 = 0
  negative : x < 0 → magnitude w ≠ 0 → signBit w = true
  positive : 0 < x → magnitude w ≠ 0 → signBit w = false

/-- A nonzero x keeps its sign, even where it rounds to zero. For products this is R16's (the IEEE rules for signed
zeros); for a value rounded on its own (R214) the spec leaves the sign of such a zero open, and keeping it is the
model's choice (log 23). -/
def KeepsSign (x : ℝ) (w : F32) : Prop := (x < 0 → signBit w = true) ∧ (0 < x → signBit w = false)

/-! The exact map of the resampler (R207 to R211). -/

/-- `X[k]` of R207: the unnormalised forward transform of the 2N buffer values. -/
noncomputable def dftBin (n : ℕ) (b : List F32) (k : ℕ) : ℂ :=
  ∑ i ∈ Finset.range (2 * n),
    (valueOf (b.getD i 0) : ℂ) * Complex.exp (-(2 * Real.pi * Complex.I * k * i / (2 * n)))

/-- `Y[j]` of R208: the low half, the Nyquist bin alone at N·L, the high half at the tail, 0 elsewhere. -/
noncomputable def enlargedBin (n l : ℕ) (b : List F32) (j : ℕ) : ℂ :=
  if j < n then dftBin n b j
  else if j = n * l then dftBin n b n
  else if 2 * n * l - n < j ∧ j < 2 * n * l then dftBin n b (j + 2 * n - 2 * n * l)
  else 0

/-- `y[m]` of R209: the unnormalised inverse transform. -/
noncomputable def transformOutput (n l : ℕ) (b : List F32) (m : ℕ) : ℂ :=
  ∑ j ∈ Finset.range (2 * n * l),
    enlargedBin n l b j * Complex.exp (2 * Real.pi * Complex.I * j * m / (2 * n * l))

/-- `D(d)` of R211. -/
noncomputable def kernelD (n l : ℕ) (d : ℤ) : ℝ :=
  1 + 2 * ∑ k ∈ Finset.Ico 1 n, Real.cos (2 * Real.pi * k * d / (2 * n * l))

/-- `y[m]` in the polyphase FIR form of R211. -/
noncomputable def polyphaseOutput (n l : ℕ) (b : List F32) (m : ℕ) : ℝ :=
  ∑ i ∈ Finset.range (2 * n),
    valueOf (b.getD i 0) * (kernelD n l ((m : ℤ) - i * l) + (-1) ^ (m + i))

/-- Conformance of PRF_FN (R210): wherever the exact value is inside binary32's range, PRF_FN gives a finite
value within EPS_RS of it. (Which huge inputs overflow is open, U15.) Claims that need it assume it. -/
def PrfConforms : Prop :=
  ∀ (n l : ℕ) (b : List F32) (m : ℕ), 1 ≤ n → 1 ≤ l → b.length = 2 * n → (∀ v ∈ b, isFinite v = true) →
    m < 2 * n * l → |(transformOutput n l b m).re| < 2 ^ 128 - 2 ^ 103 →
      isFinite (Config.prfFn n l b m) = true
        ∧ |valueOf (Config.prfFn n l b m) - (transformOutput n l b m).re| ≤ (Config.epsRs : ℝ)

end Sys2Proof.Machine
end

