-- ==== Sys2Proof/Certificates/Slice0/Obligations.lean ====
section
/-! DEFINITION. The statements for the provers. Each docstring names the rule of spec/ it formalises. The word a
read returns stands in the model's field `response`, which a write empties (log 4); the turns to come stand in the
model's field `schedule` (log 2). -/

open Sys2Proof Sys2Proof.Machine

/-! ## Encoding -/

/-- Words of R122 and keys of R127, written out from their tables, decode to what they stand for. -/
def Obligations.TableWordsDecode : Prop :=
  decodeCommand 2 0x00000000#32 = some .nop ∧ decodeCommand 2 0x01000000#32 = some .srst
    ∧ decodeCommand 2 0x02000000#32 = some .start ∧ decodeCommand 2 0x03000000#32 = some .abort
    ∧ decodeCommand 2 0x10010000#32 = some (.nsStep 1) ∧ decodeCommand 2 0x11010000#32 = some (.nsLoad 1)
    ∧ decodeBus ⟨false, 0x34, 0⟩ = some .rdBitsOut
    ∧ decodeBus ⟨true, 0x30, 0x3F000000#32⟩ = some (.wrSampleIn 0x3F000000#32)
    ∧ decodeBus ⟨true, 0x24, 0x102#32⟩ = some (.wrChCount 0x102#32)

/-- R122, R125, R127: decoding the encoding of a well-formed instruction gives it back, for every one. -/
def Obligations.DecodeInvertsEncode : Prop :=
  ∀ (cMax : Nat) (i : Instr), i.wellFormed cMax = true → decode cMax (encode i) = some i

/-- R125: a word that decodes to a command is that command's own word, bit for bit, and its lane is legal. -/
def Obligations.CommandWordsAreCanonical : Prop :=
  ∀ (cMax : Nat) (w : Word32) (c : Command), decodeCommand cMax w = some c →
    encodeCommand c = w ∧ c.toInstr.wellFormed cMax = true

/-- R126 with R123 and R124: reserved opcodes, nonzero IMM and illegal CH values decode to ILLEGAL, and a
write of such a word to CMD outside FAULT raises ILLEGAL_CMD with no other effect. -/
def Obligations.ReservedWordsAreIllegal : Prop :=
  ∀ (s : State) (w : Word32) (op ch imm : Nat), w.toNat = op * 2 ^ 24 + ch * 2 ^ 16 + imm →
    ch < 2 ^ 8 → imm < 2 ^ 16 →
    (imm ≠ 0 ∨ (0x04 ≤ op ∧ op ≤ 0x0F) ∨ 0x12 ≤ op ∨ (op ≤ 0x03 ∧ ch ≠ 0)
      ∨ ((op = 0x10 ∨ op = 0x11) ∧ s.build.cMax ≤ ch)) →
    decodeCommand s.build.cMax w = none
      ∧ (s.fsr.state ≠ .fault → exec (.wrCmd w) s = .next (faulted .illegalCmd 0x10 w s))

/-- R127: the keys without a row are the misaligned, the reserved, the writes to read-only registers and the
reads of write-only ones. -/
def Obligations.KeysWithoutARow : Prop :=
  ∀ t : Transaction, decodeBus t = none ↔
    (t.addr.toNat % 4 ≠ 0 ∨ 0x78 ≤ t.addr.toNat ∨ (t.we = true ∧ accessAt t.addr = some .ro)
      ∨ (t.we = false ∧ accessAt t.addr = some .wo))

/-! ## The step -/

/-- R127, R128: a host turn runs the decoded instruction on the state without that turn; a write of a legal
command word to CMD runs the command itself. -/
def Obligations.StepRunsTheDecodedInstruction : Prop :=
  ∀ (s : State) (t : Transaction) (rest : List Turn), s.schedule = .host t :: rest →
    (∀ i, decodeBus t = some i → step s = exec i { s with schedule := rest })
      ∧ (∀ c, t.we = true → t.addr = 0x10 → decodeCommand s.build.cMax t.data = some c →
          step s = exec c.toInstr { s with schedule := rest })

/-- R82, R83, R84 (under the FAULT gate of R160): misaligned, reserved and wrong-direction writes raise
BAD_ACCESS and do nothing else; such reads return 0 and do nothing else. -/
def Obligations.StructuralAccessRules : Prop :=
  ∀ (s : State) (t : Transaction) (rest : List Turn), s.schedule = .host t :: rest →
    ((t.we = true ∧ s.fsr.state ≠ .fault ∧
        (t.addr.toNat % 4 ≠ 0 ∨ 0x78 ≤ t.addr.toNat ∨ accessAt t.addr = some .ro)) →
      step s = .next (faulted .badAccess t.addr t.data { s with schedule := rest }))
    ∧ ((t.we = false ∧ (t.addr.toNat % 4 ≠ 0 ∨ 0x78 ≤ t.addr.toNat ∨ accessAt t.addr = some .wo)) →
      step s = .next { s with schedule := rest, response := some 0 })

/-- R160, R343: in FAULT every host write but SRST is ignored, without a new error. -/
def Obligations.FaultGateIgnoresWrites : Prop :=
  ∀ (s : State) (t : Transaction) (rest : List Turn), s.schedule = .host t :: rest → t.we = true →
    s.fsr.state = .fault → ¬(t.addr = 0x10 ∧ t.data = 0x01000000#32) →
      step s = .next { s with schedule := rest, response := none }

/-- R342, R53: a step that enters FAULT is a host write, and it changes nothing but the error record, which
names that write, and STATE. A step that stays in FAULT keeps the record: it is the first error's. -/
def Obligations.FaultEntryRecordsTheWrite : Prop :=
  ∀ s t : State, step s = .next t → t.fsr.state = .fault →
    (s.fsr.state ≠ .fault → ∃ (tr : Transaction) (rest : List Turn) (code : ErrCode),
      s.schedule = .host tr :: rest ∧ tr.we = true ∧ code ≠ .none
        ∧ t = faulted code tr.addr tr.data { s with schedule := rest })
    ∧ (s.fsr.state = .fault → t.err = s.err)

/-- No step ever stops the machine. This is the model's reading (log 18): the FAULT of R342 is a state in which the
block goes on answering (R343), the core never faults (R346) and no read does (R180). -/
def Obligations.StepAlwaysAnswersNext : Prop := ∀ s : State, ∃ t, step s = .next t

/-- R291: under the invariant, the only changes of STATE are those of the transition table, each with its
event and guard. The guard of START is the check of R164; the SAMPLE_IN that completes a frame is R293's: an
accepted sample of the slot's last channel that fills the frame or is the stream's last. That the core also
moves where no turn is to come is the model's choice (log 2). -/
def Obligations.StateChangesOnlyByTheTable : Prop :=
  ∀ s t : State, Inv s → step s = .next t → t.fsr.state ≠ s.fsr.state →
    let coreMoves := s.fifo = [] ∧ (s.schedule = [] ∨ ∃ rest, s.schedule = .core :: rest)
    let writes := fun (addr : BitVec 8) (v : Word32) => ∃ rest, s.schedule = .host (writeOf addr v) :: rest
    ((s.fsr.state = .idle ∨ s.fsr.state = .done) ∧ writes 0x10 0x02000000#32
        ∧ s.fifo = [] ∧ 1 ≤ s.regs.chCount.toNat ∧ s.regs.chCount.toNat ≤ s.build.cMax
        ∧ durationOf s * s.build.l ≤ 2 ^ 64 - 1
        ∧ ((durationOf s = 0 ∧ t.fsr.state = .draining) ∨ (0 < durationOf s ∧ t.fsr.state = .filling)))
    ∨ (s.fsr.state = .filling ∧ t.fsr.state = .resampling
        ∧ (∃ v, writes 0x30 v ∧ isFinite v = true)
        ∧ s.fsr.chPtr.toNat + 1 = s.regs.chCount.toNat
        ∧ (s.fsr.pos.toNat + 1 = s.build.n ∨ s.fsr.inCount.toNat + 1 = durationOf s))
    ∨ (s.fsr.state = .resampling ∧ coreMoves
        ∧ ((s.fsr.inCount.toNat < durationOf s ∧ t.fsr.state = .filling)
          ∨ (s.fsr.inCount.toNat = durationOf s ∧ t.fsr.state = .draining)))
    ∨ (s.fsr.state = .draining ∧ coreMoves ∧ t.fsr.state = .done)
    ∨ (s.fsr.state ≠ .fault ∧ writes 0x10 0x03000000#32 ∧ t.fsr.state = .idle)
    ∨ (((∃ rest, s.schedule = .reset :: rest) ∨ writes 0x10 0x01000000#32) ∧ t.fsr.state = .idle)
    ∨ (s.fsr.state ≠ .fault ∧ t.fsr.state = .fault
        ∧ ∃ addr v rest code, s.schedule = .host (writeOf addr v) :: rest
            ∧ t = faulted code addr v { s with schedule := rest })

/-- R37, R54: no step changes the build constants or the window tables. -/
def Obligations.StepKeepsTheConstants : Prop :=
  ∀ s t : State, step s = .next t → t.build = s.build ∧ t.wa = s.wa ∧ t.ws = s.ws

/-- R387: while a stream runs, CH_COUNT and DURATION do not change, in any step that does not abandon it. -/
def Obligations.ConfigurationFixedWhileStreaming : Prop :=
  ∀ s t : State, step s = .next t → streaming s → t.fsr.state ≠ .idle →
    t.regs.chCount = s.regs.chCount ∧ t.regs.duration = s.regs.duration

/-- R88, R96: what an instruction does not name, it leaves unchanged: lanes, FRAMEBUF, FIFO and shadows by
the instructions that may reach them; reads leave the FSR, the host registers and the error record. -/
def Obligations.InstructionsTouchOnlyTheirState : Prop :=
  ∀ (i : Instr) (s t : State), exec i s = .next t →
    t.build = s.build ∧ t.wa = s.wa ∧ t.ws = s.ws ∧ t.schedule = s.schedule
      ∧ (mayWriteLanes i = false → t.lanes = s.lanes)
      ∧ (mayWriteFrameBuf i = false → t.frameBuf = s.frameBuf)
      ∧ (mayWriteFifo i = false → t.fifo = s.fifo)
      ∧ (mayWriteShadows i = false → t.shadows = s.shadows)
      ∧ (isRead i = true → t.fsr = s.fsr ∧ t.regs = s.regs ∧ t.err = s.err)

/-! ## The invariant -/

/-- R310 (a), (b), (c) in DRAINING, (d) while a stream runs, and the shapes of R32 to R44: every step keeps the
invariant, from every state that has it. The clauses of R310 about DONE are no part of `Inv`, since the host may
write DURATION there (log 13); `DrainFrameCompletesTheOutput` states them of the step that enters DONE. -/
def Obligations.StepKeepsTheInvariant : Prop :=
  ∀ s t : State, Inv s → step s = .next t → Inv t

/-- The reset state has the invariant (R381). -/
def Obligations.ResetHasTheInvariant : Prop := Inv State.reset

/-- R381, R382: the value of every state element after reset; STATUS reads 0, the interrupt line is low, and
the core
has nothing enabled. -/
def Obligations.ResetLeavesTheBlockWaiting : Prop :=
  let r := State.reset
  let b := r.build
  r.lanes = List.replicate b.cMax ⟨true, 0, 0, List.replicate (2 * b.n) 0, List.replicate (b.n * b.l) 0⟩
    ∧ r.frameBuf = List.replicate b.cMax (List.replicate b.n 0) ∧ r.fifo = []
    ∧ r.fsr = ⟨.idle, 0, 0, 0, 0, 0⟩ ∧ r.regs = ⟨1, 0, 0, 0, 0, 0, 0, 0⟩ ∧ r.err = ⟨.none, 0, 0⟩
    ∧ r.shadows = ⟨0, 0, 0⟩ ∧ r.wa = analysisWindow b ∧ r.ws = synthesisWindow b
    ∧ exec .rdStatus r = .next { r with response := some 0 } ∧ irq r = false ∧ coreTurn r = r

/-- R11, R354: a build outside the contract is refused, and any other gives the block right after reset. -/
def Obligations.IllegalBuildsAreRefused : Prop :=
  ∀ b : Build,
    ((b.n = 0 ∨ 2 ^ 24 < b.n ∨ b.l = 0 ∨ 2 ^ 16 < b.l ∨ 2 ^ 24 < b.n * b.l ∨ b.cMax = 0 ∨ 255 < b.cMax
        ∨ b.outDepth < b.cMax * ceilDiv (b.n * b.l) 8) → State.instantiate b = .refused .illegalBuild)
    ∧ ((1 ≤ b.n ∧ b.n ≤ 2 ^ 24 ∧ 1 ≤ b.l ∧ b.l ≤ 2 ^ 16 ∧ b.n * b.l ≤ 2 ^ 24 ∧ 1 ≤ b.cMax ∧ b.cMax ≤ 255
        ∧ b.cMax * ceilDiv (b.n * b.l) 8 ≤ b.outDepth) → State.instantiate b = .next (State.resetFor b))

/-! ## Commands -/

/-- R162: NOP changes nothing, in every state (in FAULT it is ignored, R160). -/
def Obligations.NopChangesNothing : Prop :=
  ∀ s : State, exec .nop s = .next { s with response := none }

/-- R163, R380, R381: SRST, in every state, and the reset input put every state element at its reset value;
the constants stay, and so do the model's own fields (log 5). -/
def Obligations.SoftResetRestoresEveryValue : Prop :=
  ∀ s : State,
    let r : State :=
      { s with
        lanes := List.replicate s.build.cMax
          ⟨true, 0, 0, List.replicate (2 * s.build.n) 0, List.replicate (s.build.n * s.build.l) 0⟩
        frameBuf := List.replicate s.build.cMax (List.replicate s.build.n 0)
        fifo := []
        fsr := ⟨.idle, 0, 0, 0, 0, 0⟩
        regs := ⟨1, 0, 0, 0, 0, 0, 0, 0⟩
        err := ⟨.none, 0, 0⟩
        shadows := ⟨0, 0, 0⟩ }
    exec .srst s = .next { r with response := none }
      ∧ ∀ rest, s.schedule = .reset :: rest → step s = .next { r with schedule := rest }

/-- R164: START checks the state, the FIFO, CH_COUNT and D·L in that order; where it is accepted every lane,
FRAMEBUF, the counters and RESULT are as after reset, the configuration and everything else stay, and STATE
is DRAINING for D = 0 and FILLING otherwise. -/
def Obligations.StartBeginsAFreshStream : Prop :=
  ∀ s : State, s.fsr.state ≠ .fault →
    let between := s.fsr.state = .idle ∨ s.fsr.state = .done
    let count := s.regs.chCount.toNat
    ((¬between ∨ s.fifo ≠ []) → exec .start s = .next (faulted .badState 0x10 0x02000000#32 s))
    ∧ ((between ∧ s.fifo = [] ∧ (count < 1 ∨ s.build.cMax < count ∨ 2 ^ 64 - 1 < s.regs.duration.toNat * s.build.l)) →
        exec .start s = .next (faulted .badConfig 0x10 0x02000000#32 s))
    ∧ ((between ∧ s.fifo = [] ∧ 1 ≤ count ∧ count ≤ s.build.cMax ∧ s.regs.duration.toNat * s.build.l ≤ 2 ^ 64 - 1) →
        exec .start s = .next
          { s with
            lanes := List.replicate s.build.cMax
              ⟨true, 0, 0, List.replicate (2 * s.build.n) 0, List.replicate (s.build.n * s.build.l) 0⟩
            frameBuf := List.replicate s.build.cMax (List.replicate s.build.n 0)
            fsr := ⟨if s.regs.duration = 0 then .draining else .filling, 0, 0, 0, 0, 0⟩
            regs := { s.regs with result := 0 }
            response := none })

/-- R165: ABORT outside FAULT returns to IDLE with lanes, FRAMEBUF, FIFO, counters and RESULT cleared; the
configuration, the shadows and the error record stay. In FAULT it is ignored. -/
def Obligations.AbortClearsTheStream : Prop :=
  ∀ s : State,
    (s.fsr.state ≠ .fault →
      exec .abort s = .next
        { s with
          lanes := List.replicate s.build.cMax
            ⟨true, 0, 0, List.replicate (2 * s.build.n) 0, List.replicate (s.build.n * s.build.l) 0⟩
          frameBuf := List.replicate s.build.cMax (List.replicate s.build.n 0)
          fifo := []
          fsr := ⟨.idle, 0, 0, 0, 0, 0⟩
          regs := { s.regs with result := 0 }
          response := none })
    ∧ (s.fsr.state = .fault → exec .abort s = .next { s with response := none })

/-- R166, R261, R264: NS_STEP outside IDLE and DONE raises BAD_STATE, then a non-finite DATA0 BAD_SAMPLE;
otherwise it runs one noise-shaper step on its lane and shows the bit in RESULT, and every other lane and
everything else stays. -/
def Obligations.NsStepRunsOneShaperStep : Prop :=
  ∀ (s : State) (ch : BitVec 8), ch.toNat < s.build.cMax → s.fsr.state ≠ .fault →
    let between := s.fsr.state = .idle ∨ s.fsr.state = .done
    let word : Word32 := BitVec.ofNat 32 (0x10000000 + ch.toNat * 2 ^ 16)
    (¬between → exec (.nsStep ch) s = .next (faulted .badState 0x10 word s))
    ∧ (between → isFinite s.regs.data0 = false → exec (.nsStep ch) s = .next (faulted .badSample 0x10 word s))
    ∧ ∀ l, between → isFinite s.regs.data0 = true → s.lanes[ch.toNat]? = some l →
      let zf : F32 := if l.z then 0x3F800000#32 else 0xBF800000#32
      let z2n := fsub (fadd l.z2 s.regs.data0) zf
      let z1n := fsub (fadd l.z1 z2n) zf
      exec (.nsStep ch) s = .next
        { s with
          lanes := s.lanes.set ch.toNat { l with z := geZero z1n, z1 := z1n, z2 := z2n }
          regs := { s.regs with result := if geZero z1n then 0x80000001#32 else 0x80000000#32 }
          response := none }

/-- R167, R131: NS_LOAD outside IDLE and DONE raises BAD_STATE, then a non-finite DATA1 or DATA2 BAD_SAMPLE;
otherwise it loads z, z1 and z2 of its lane; RESULT, every other lane and everything else stays. -/
def Obligations.NsLoadSetsTheLane : Prop :=
  ∀ (s : State) (ch : BitVec 8), ch.toNat < s.build.cMax → s.fsr.state ≠ .fault →
    let between := s.fsr.state = .idle ∨ s.fsr.state = .done
    let word : Word32 := BitVec.ofNat 32 (0x11000000 + ch.toNat * 2 ^ 16)
    let finite := isFinite s.regs.data1 = true ∧ isFinite s.regs.data2 = true
    (¬between → exec (.nsLoad ch) s = .next (faulted .badState 0x10 word s))
    ∧ (between → ¬finite → exec (.nsLoad ch) s = .next (faulted .badSample 0x10 word s))
    ∧ ∀ l, between → finite → s.lanes[ch.toNat]? = some l →
      exec (.nsLoad ch) s = .next
        { s with
          lanes := s.lanes.set ch.toNat
            { l with z := decide (s.regs.data0.toNat % 2 = 1), z1 := s.regs.data1, z2 := s.regs.data2 }
          response := none }

/-- R123, R125 (read for the two constructors, log 16): a lane operand at or above C_MAX makes the test
command's word illegal, before any state or operand check. -/
def Obligations.LaneOutOfRangeIsIllegal : Prop :=
  ∀ (s : State) (ch : BitVec 8), s.fsr.state ≠ .fault → s.build.cMax ≤ ch.toNat →
    exec (.nsStep ch) s
        = .next (faulted .illegalCmd 0x10 (BitVec.ofNat 32 (0x10000000 + ch.toNat * 2 ^ 16)) s)
      ∧ exec (.nsLoad ch) s
        = .next (faulted .illegalCmd 0x10 (BitVec.ofNat 32 (0x11000000 + ch.toNat * 2 ^ 16)) s)

/-- R161, R126: a CMD write of a word that decodes to a command does what the command does; any other word
raises ILLEGAL_CMD outside FAULT. The word 0 is NOP's and completes in every state. -/
def Obligations.CmdWriteExecutesItsCommand : Prop :=
  ∀ (s : State) (v : Word32),
    (∀ c, decodeCommand s.build.cMax v = some c →
      exec (.wrCmd v) s = exec c.toInstr s ∧ ∃ t, exec (.wrCmd v) s = .next t)
    ∧ (decodeCommand s.build.cMax v = none → s.fsr.state ≠ .fault →
        exec (.wrCmd v) s = .next (faulted .illegalCmd 0x10 v s))
    ∧ exec (.wrCmd 0) s = .next { s with response := none }

/-! ## Register writes -/

/-- R170, R171, R172: between streams CH_COUNT takes bits [7:0] and DURATION its low or high word; while a
stream runs the write raises BAD_STATE. -/
def Obligations.ConfigurationWrites : Prop :=
  ∀ (s : State) (v : Word32),
    ((s.fsr.state = .idle ∨ s.fsr.state = .done) →
      exec (.wrChCount v) s = .next
          { s with regs := { s.regs with chCount := BitVec.ofNat 8 v.toNat }, response := none }
        ∧ exec (.wrDurationLo v) s = .next
          { s with
            regs := { s.regs with duration := BitVec.ofNat 64 (s.regs.duration.toNat / 2 ^ 32 * 2 ^ 32 + v.toNat) }
            response := none }
        ∧ exec (.wrDurationHi v) s = .next
          { s with
            regs := { s.regs with duration := BitVec.ofNat 64 (v.toNat * 2 ^ 32 + s.regs.duration.toNat % 2 ^ 32) }
            response := none })
    ∧ (streaming s →
      exec (.wrChCount v) s = .next (faulted .badState 0x24 v s)
        ∧ exec (.wrDurationLo v) s = .next (faulted .badState 0x28 v s)
        ∧ exec (.wrDurationHi v) s = .next (faulted .badState 0x2C v s))

/-- R173, R174, R175: outside FAULT the writes of IRQ_EN, CH_SEL and DATA0 to DATA2 store their defined bits
and change nothing else. -/
def Obligations.OperandWrites : Prop :=
  ∀ (s : State) (v : Word32), s.fsr.state ≠ .fault →
    exec (.wrIrqEn v) s = .next
        { s with regs := { s.regs with irqEn := BitVec.ofNat 4 v.toNat }, response := none }
      ∧ exec (.wrChSel v) s = .next
        { s with regs := { s.regs with chSel := BitVec.ofNat 8 v.toNat }, response := none }
      ∧ exec (.wrData0 v) s = .next { s with regs := { s.regs with data0 := v }, response := none }
      ∧ exec (.wrData1 v) s = .next { s with regs := { s.regs with data1 := v }, response := none }
      ∧ exec (.wrData2 v) s = .next { s with regs := { s.regs with data2 := v }, response := none }

/-! ## Stream data -/

/-- R168, R293, R294: a SAMPLE_IN write outside FILLING raises IN_NOT_READY, then a non-finite word
BAD_SAMPLE; an accepted sample is stored at FRAMEBUF[CH_PTR][POS]. Before the slot's last channel CH_PTR
advances; at the last channel the slot is counted, and the frame completes, zero-filled from POS on in the
active channels, when it is full or the stream has all its samples. -/
def Obligations.SampleWriteFillsTheFrame : Prop :=
  ∀ (s : State) (v : Word32), s.fsr.state ≠ .fault →
    let stored := s.frameBuf.modify s.fsr.chPtr.toNat fun row => row.set s.fsr.pos.toNat v
    let pos := s.fsr.pos.toNat + 1
    let accepted := s.fsr.state = .filling ∧ isFinite v = true
    let lastChannel := s.regs.chCount.toNat ≤ s.fsr.chPtr.toNat + 1
    let full := pos = s.build.n ∨ s.fsr.inCount + 1 = s.regs.duration
    (s.fsr.state ≠ .filling → exec (.wrSampleIn v) s = .next (faulted .inNotReady 0x30 v s))
    ∧ (s.fsr.state = .filling → isFinite v = false →
        exec (.wrSampleIn v) s = .next (faulted .badSample 0x30 v s))
    ∧ (accepted → ¬lastChannel →
      exec (.wrSampleIn v) s = .next
        { s with frameBuf := stored, fsr := { s.fsr with chPtr := s.fsr.chPtr + 1 }, response := none })
    ∧ (accepted → lastChannel → ¬full →
      exec (.wrSampleIn v) s = .next
        { s with
          frameBuf := stored
          fsr := { s.fsr with chPtr := 0, pos := BitVec.ofNat 24 pos, inCount := s.fsr.inCount + 1 }
          response := none })
    ∧ (accepted → lastChannel → full →
      exec (.wrSampleIn v) s = .next
        { s with
          frameBuf := stored.mapIdx fun c row =>
            if c < s.regs.chCount.toNat then row.take pos ++ List.replicate (s.build.n - pos) 0 else row
          fsr := { s.fsr with chPtr := 0, pos := 0, inCount := s.fsr.inCount + 1, state := .resampling }
          response := none })

/-- R169, R130: BITS_OUT returns and removes the oldest entry, its fields in their places, in every state;
an empty FIFO reads 0. -/
def Obligations.BitsOutPopsTheOldestGroup : Prop :=
  ∀ s : State,
    (s.fifo = [] → exec .rdBitsOut s = .next { s with response := some 0 })
    ∧ ∀ g rest, s.fifo = g :: rest → g.nbits ≤ 8 →
      exec .rdBitsOut s = .next
        { s with
          fifo := rest
          response := some
            (BitVec.ofNat 32 (2 ^ 31 + g.ch.toNat * 2 ^ 16 + g.nbits * 2 ^ 8 + g.bits.toNat)) }

/-! ## Reads -/

/-- R178, R46 to R56: each plain read but STATUS returns its register, zero-extended, and changes nothing. -/
def Obligations.PlainReadsReturnTheRegister : Prop :=
  ∀ s : State,
    exec .rdId s = .next { s with response := some 0x44534431#32 }
    ∧ exec .rdParamN s = .next { s with response := some (BitVec.ofNat 32 s.build.n) }
    ∧ exec .rdParamL s = .next { s with response := some (BitVec.ofNat 32 s.build.l) }
    ∧ (s.build.cMax ≤ 255 → exec .rdParamC s = .next { s with response := some (BitVec.ofNat 32 s.build.cMax) })
    ∧ exec .rdErrAddr s = .next { s with response := some (BitVec.ofNat 32 s.err.addr.toNat) }
    ∧ exec .rdErrData s = .next { s with response := some s.err.data }
    ∧ exec .rdIrqEn s = .next { s with response := some (BitVec.ofNat 32 s.regs.irqEn.toNat) }
    ∧ exec .rdChCount s = .next { s with response := some (BitVec.ofNat 32 s.regs.chCount.toNat) }
    ∧ exec .rdDurationLo s = .next { s with response := some (BitVec.ofNat 32 s.regs.duration.toNat) }
    ∧ exec .rdDurationHi s = .next { s with response := some (BitVec.ofNat 32 (s.regs.duration.toNat / 2 ^ 32)) }
    ∧ exec .rdOutLevel s = .next { s with response := some (BitVec.ofNat 32 s.fifo.length) }
    ∧ exec .rdFillPos s = .next
        { s with response := some (BitVec.ofNat 32 (s.fsr.pos.toNat * 2 ^ 8 + s.fsr.chPtr.toNat)) }
    ∧ exec .rdChSel s = .next { s with response := some (BitVec.ofNat 32 s.regs.chSel.toNat) }
    ∧ exec .rdData0 s = .next { s with response := some s.regs.data0 }
    ∧ exec .rdData1 s = .next { s with response := some s.regs.data1 }
    ∧ exec .rdData2 s = .next { s with response := some s.regs.data2 }
    ∧ exec .rdResult s = .next { s with response := some s.regs.result }

/-- R52, with the codes of R40 and R341: STATUS returns its fields in their places, computed from the state at
the read, and changes nothing. -/
def Obligations.StatusReadShowsTheFields : Prop :=
  ∀ s : State, ∃ w : Word32, exec .rdStatus s = .next { s with response := some w }
    ∧ w.toNat =
        (match s.fsr.state with
          | .idle => 0 | .filling => 1 | .resampling => 2 | .draining => 3 | .done => 4 | .fault => 7)
        + flagBit (decide (s.fsr.state = .filling)) 4
        + flagBit (decide (s.fifo ≠ [])) 5 + flagBit (decide (s.fsr.state = .done)) 6
        + flagBit (decide (s.fsr.state = .fault)) 7 + 2 ^ 8 *
          (match s.err.code with
            | .none => 0 | .illegalCmd => 1 | .badState => 2 | .badConfig => 3 | .badAccess => 4
            | .inNotReady => 5 | .badSample => 6)
        + flagBit (decide (s.fsr.frameIdx = 0 ∧ streaming s)) 12

/-- R176, R177: a low-half read returns the counter's low half and latches its high half in the shadow; a
high-half read returns the shadow. -/
def Obligations.CounterReadsLatchTheHighHalf : Prop :=
  ∀ s : State,
    exec .rdFrameIdxLo s = .next
        { s with
          response := some (BitVec.ofNat 32 s.fsr.frameIdx.toNat)
          shadows := { s.shadows with frame := BitVec.ofNat 32 (s.fsr.frameIdx.toNat / 2 ^ 32) } }
    ∧ exec .rdInCountLo s = .next
        { s with
          response := some (BitVec.ofNat 32 s.fsr.inCount.toNat)
          shadows := { s.shadows with input := BitVec.ofNat 32 (s.fsr.inCount.toNat / 2 ^ 32) } }
    ∧ exec .rdOutCountLo s = .next
        { s with
          response := some (BitVec.ofNat 32 s.fsr.outCount.toNat)
          shadows := { s.shadows with output := BitVec.ofNat 32 (s.fsr.outCount.toNat / 2 ^ 32) } }
    ∧ exec .rdFrameIdxHi s = .next { s with response := some s.shadows.frame }
    ∧ exec .rdInCountHi s = .next { s with response := some s.shadows.input }
    ∧ exec .rdOutCountHi s = .next { s with response := some s.shadows.output }

/-- R388: a frame step between the LO and the HI read of FRAME_IDX, IN_COUNT or OUT_COUNT does not tear the
64-bit value: the two words are the halves of the counter at the LO read. -/
def Obligations.CounterPairIsNotTorn : Prop :=
  ∀ (s a b c : State) (rest : List Turn) (lo : BitVec 8) (counter : BitVec 64),
    (lo = 0x40 ∧ counter = s.fsr.frameIdx) ∨ (lo = 0x48 ∧ counter = s.fsr.inCount)
      ∨ (lo = 0x50 ∧ counter = s.fsr.outCount) →
    s.schedule = .host (readOf lo) :: .core :: .host (readOf (lo + 4)) :: rest →
    step s = .next a → step a = .next b → step b = .next c →
    ∃ low high : Word32, a.response = some low ∧ c.response = some high
      ∧ high.toNat * 2 ^ 32 + low.toNat = counter.toNat

/-- R179, R58: outside RESAMPLING and DRAINING the debug views show the selected lane exactly, and 0 where
CH_SEL selects none. A NaN, which only the core makes, shows as some NaN pattern (U18, log 9). In RESAMPLING
and DRAINING some word is shown (U3, log 10). Nothing of the block changes. -/
def Obligations.DebugReadsShowTheLane : Prop :=
  ∀ s : State,
    let pending := s.fsr.state = .resampling ∨ s.fsr.state = .draining
    let shows := fun (i : Instr) (w : Word32) => exec i s = .next { s with response := some w }
    let showsSome := fun (i : Instr) (p : Word32 → Prop) =>
      ∃ w, p w ∧ exec i s = .next { s with response := some w, freeCount := s.freeCount + 1 }
    (pending → showsSome .rdDbgZ (fun _ => True) ∧ showsSome .rdDbgZ1 (fun _ => True)
      ∧ showsSome .rdDbgZ2 (fun _ => True))
    ∧ (¬pending → s.build.cMax ≤ s.regs.chSel.toNat →
      shows .rdDbgZ 0 ∧ shows .rdDbgZ1 0 ∧ shows .rdDbgZ2 0)
    ∧ ∀ l, ¬pending → s.regs.chSel.toNat < s.build.cMax → s.lanes[s.regs.chSel.toNat]? = some l →
      shows .rdDbgZ (if l.z then 1 else 0)
        ∧ (isNaN l.z1 = false → shows .rdDbgZ1 l.z1) ∧ (isNaN l.z2 = false → shows .rdDbgZ2 l.z2)
        ∧ (isNaN l.z1 = true → showsSome .rdDbgZ1 fun w => isNaN w = true)
        ∧ (isNaN l.z2 = true → showsSome .rdDbgZ2 fun w => isNaN w = true)

/-! ## Arithmetic -/

/-- R16: fadd and fsub of finite values are the exact sum and difference rounded to nearest, ties to even;
an exactly zero sum is +0 unless both addends are -0. -/
def Obligations.SumsAreCorrectlyRounded : Prop :=
  ∀ a b : F32, isFinite a = true → isFinite b = true →
    IsRne (valueOf a + valueOf b) (fadd a b) ∧ IsRne (valueOf a - valueOf b) (fsub a b)
      ∧ (valueOf a + valueOf b = 0 →
          fadd a b = if a = 0x80000000#32 ∧ b = 0x80000000#32 then 0x80000000#32 else 0x00000000#32)

/-- R16: fmul of finite values is the exact product rounded to nearest, ties to even; an exactly zero
product is -0 when exactly one factor is negative. A nonzero product that rounds to zero has the product's sign (the
IEEE rules for signed zeros that R16 names). -/
def Obligations.ProductsAreCorrectlyRounded : Prop :=
  ∀ a b : F32, isFinite a = true → isFinite b = true →
    IsRne (valueOf a * valueOf b) (fmul a b) ∧ KeepsSign (valueOf a * valueOf b) (fmul a b)
      ∧ (valueOf a * valueOf b = 0 →
          fmul a b = if signBit a = signBit b then 0x00000000#32 else 0x80000000#32)

/-- R16, the IEEE rules for infinities and NaN: a NaN operand gives a NaN; infinities of opposite signs have
no sum and an infinity times a zero no product; otherwise an infinite operand gives an infinity. -/
def Obligations.SpecialValuesFollowTheIeeeRules : Prop :=
  ∀ a b : F32,
    ((isNaN a = true ∨ isNaN b = true) → isNaN (fadd a b) = true ∧ isNaN (fsub a b) = true ∧ isNaN (fmul a b) = true)
    ∧ (isInf a = true → isFinite b = true → fadd a b = a ∧ fadd b a = a ∧ fsub a b = a)
    ∧ (isInf a = true → isInf b = true →
        (signBit a = signBit b → fadd a b = a ∧ isNaN (fsub a b) = true)
          ∧ (signBit a ≠ signBit b → isNaN (fadd a b) = true ∧ fsub a b = a))
    ∧ (isInf a = true → isNaN b = false →
        (magnitude b = 0 → isNaN (fmul a b) = true ∧ isNaN (fmul b a) = true)
          ∧ (magnitude b ≠ 0 → isInf (fmul a b) = true ∧ signBit (fmul a b) = (signBit a != signBit b)
              ∧ fmul b a = fmul a b))

/-- R266 (a): whatever the lane and the input, the new integrators are never -0.0. -/
def Obligations.ShaperNeverMakesMinusZero : Prop :=
  ∀ (l : Lane) (x : F32), (nsStep l x).1.z1 ≠ 0x80000000#32 ∧ (nsStep l x).1.z2 ≠ 0x80000000#32

/-- R263: the decision is +1 exactly when z1' is not below zero; both zeros give +1, a NaN gives -1. -/
def Obligations.DecisionIsTheSignOfTheIntegrator : Prop :=
  ∀ (l : Lane) (x : F32),
    let z1n := (nsStep l x).1.z1
    let bit := (nsStep l x).2
    (isNaN z1n = true → bit = false) ∧ (isFinite z1n = true → (bit = true ↔ 0 ≤ valueOf z1n))
      ∧ (isInf z1n = true → (bit = true ↔ z1n = 0x7F800000#32)) ∧ (nsStep l x).1.z = bit

/-- The idle pattern that 43_noise_shaper derives in its section 3: from the reset values zero input makes the
states (z2', z1') = (-1, -2), (0, -1), (1, 1), (0, 0) and the bits 0, 0, 1, 1, with period 4 for ever. -/
def Obligations.IdleLaneRepeatsItsPattern : Prop :=
  ∀ (l : Lane) (k : Nat), l.z = true → l.z1 = 0 → l.z2 = 0 →
    nsRun l (List.replicate (4 * k) 0) = (l, (List.replicate k [false, false, true, true]).flatten)
    ∧ (nsRun l (List.replicate (4 * k + 1) 0)).1 = { l with z := false, z1 := 0xC0000000#32, z2 := 0xBF800000#32 }
    ∧ (nsRun l (List.replicate (4 * k + 2) 0)).1 = { l with z := false, z1 := 0xBF800000#32, z2 := 0 }
    ∧ (nsRun l (List.replicate (4 * k + 3) 0)).1 = { l with z := true, z1 := 0x3F800000#32, z2 := 0x3F800000#32 }

/-! ## The resampler and the overlap-add -/

/-- R211: the transform, enlargement and inverse transform of R207 to R209 give the polyphase FIR form; in
particular the result is real. -/
def Obligations.TransformIsThePolyphaseForm : Prop :=
  ∀ (n l : ℕ) (b : List F32) (m : ℕ), 1 ≤ n → 1 ≤ l → m < 2 * n * l →
    transformOutput n l b m = (polyphaseOutput n l b m : ℂ)

/-- R212: with L = 1 the map multiplies by 2N and changes nothing else. -/
def Obligations.RateOneMapOnlyScales : Prop :=
  ∀ (n : ℕ) (b : List F32) (m : ℕ), 1 ≤ n → m < 2 * n →
    transformOutput n 1 b m = ((2 * n * valueOf (b.getD m 0) : ℝ) : ℂ)

/-- R201, R202: WA has N entries and WS has N·L; each is the exact sine value of its rule, rounded once, and entry
0 is +0.0. -/
def Obligations.WindowEntriesAreCorrectlyRounded : Prop :=
  ∀ b : Build, 1 ≤ b.n → 1 ≤ b.l →
    (analysisWindow b).length = b.n ∧ (synthesisWindow b).length = b.n * b.l
    ∧ (∀ (i : ℕ) (w : F32), (analysisWindow b)[i]? = some w →
        IsRne (Real.sin (Real.pi * i / (2 * b.n - 1)) / (2 * b.n)) w ∧ (i = 0 → w = 0x00000000#32))
    ∧ ∀ (j : ℕ) (w : F32), (synthesisWindow b)[j]? = some w →
        IsRne (Real.sin (Real.pi * j / (2 * (b.n * b.l) - 1))) w ∧ (j = 0 → w = 0x00000000#32)

/-- R214: on every buffer of finite values PRF_IDEAL is the exact map correctly rounded, and an exact zero gives
+0.0. (`TransformIsThePolyphaseForm` says that the exact map is R207 to R209.) That a nonzero value which rounds to
zero keeps its sign is the model's choice (log 23). -/
def Obligations.IdealPathRoundsTheExactMap : Prop :=
  ∀ (n l : ℕ) (b : List F32) (m : ℕ), 1 ≤ n → 1 ≤ l → b.length = 2 * n → (∀ v ∈ b, isFinite v = true) →
    m < 2 * n * l →
      IsRne (polyphaseOutput n l b m) (prfIdeal n l b m)
        ∧ KeepsSign (polyphaseOutput n l b m) (prfIdeal n l b m)
        ∧ (polyphaseOutput n l b m = 0 → prfIdeal n l b m = 0x00000000#32)

/-- R200, R204, R205, R206: the transform sees the old first half and the new second half; afterwards the
first half is the frame times the window, the second half the frame times the reversed window. -/
def Obligations.PrfCallWritesBothHalves : Prop :=
  ∀ (b : Build) (wa : List F32) (l : Lane) (x : List F32), l.inbuf.length = 2 * b.n → x.length = b.n →
    wa.length = b.n →
    let r := prfCall b wa l x
    let second := List.zipWith fmul x wa.reverse
    r.1.inbuf = List.zipWith fmul x wa ++ second ∧ r.2 = prfFn b (l.inbuf.take b.n ++ second)
      ∧ r.2.length = 2 * (b.n * b.l) ∧ r.1 = { l with inbuf := r.1.inbuf }

/-- R241, R242: the output is the first half times the window plus the old tail; the new tail is the second
half times the reversed window. -/
def Obligations.OlaCallAddsTheOldTail : Prop :=
  ∀ (b : Build) (ws : List F32) (l : Lane) (yhat : List F32), yhat.length = 2 * (b.n * b.l) →
    ws.length = b.n * b.l → l.tail.length = b.n * b.l →
    let r := olaCall b ws l yhat
    r.2 = List.zipWith fadd (List.zipWith fmul (yhat.take (b.n * b.l)) ws) l.tail
      ∧ r.1 = { l with tail := List.zipWith fmul (yhat.drop (b.n * b.l)) ws.reverse }

/-! ## The frame step -/

/-- R295: a core turn runs a frame step exactly when STATE is RESAMPLING or DRAINING and the FIFO is empty;
otherwise the core does nothing. The same holds where no turn is to come, which is the model's choice (log 2). -/
def Obligations.CoreRunsExactlyWhenEnabled : Prop :=
  ∀ (s : State) (rest : List Turn), s.schedule = .core :: rest ∨ (s.schedule = [] ∧ rest = []) →
    (((s.fsr.state = .resampling ∨ s.fsr.state = .draining) ∧ s.fifo = []) →
        step s = .next (frameStep { s with schedule := rest }))
      ∧ (¬((s.fsr.state = .resampling ∨ s.fsr.state = .draining) ∧ s.fifo = []) →
        step s = .next { s with schedule := rest })

/-- R296, R265, R261, R262: one lane of a frame step is PRF_CALL on the lane and its frame, OLA_CALL on the lane
and the transform that leaves, and then one noise-shaper step on every output sample, in increasing order, each
on the lane as the step before left it. `before j` is the lane before the shaper's step j. -/
def Obligations.LaneFrameRunsTheThreeUnitsInOrder : Prop :=
  ∀ (b : Build) (wa ws : List F32) (l : Lane) (x : List F32),
    let prf := prfCall b wa l x
    let ola := olaCall b ws prf.1 prf.2
    let r := laneFrame b wa ws l x
    ola.2.length = b.n * b.l ∧ r.2.length = b.n * b.l
    ∧ ∃ before : Nat → Lane, before 0 = ola.1 ∧ before (b.n * b.l) = r.1
      ∧ ∀ j v, ola.2[j]? = some v →
        let zf : F32 := if (before j).z then 0x3F800000#32 else 0xBF800000#32
        let z2n := fsub (fadd (before j).z2 v) zf
        let z1n := fsub (fadd (before j).z1 z2n) zf
        before (j + 1) = { before j with z := geZero z1n, z1 := z1n, z2 := z2n }
          ∧ r.2[j]? = some (geZero z1n)

/-- R296, R32: outside DRAINING the frame step runs PRF, OLA and NS (`laneFrame`, which
`LaneFrameRunsTheThreeUnitsInOrder` describes) on each active lane's own state and the frame assembled for it; lanes from CH_COUNT on, FRAMEBUF, the host registers and the input position stay. -/
def Obligations.FrameStepRunsEveryActiveLane : Prop :=
  ∀ (s : State) (c : Nat) (l : Lane), s.regs.chCount.toNat ≤ s.lanes.length → s.lanes[c]? = some l →
    (c < s.regs.chCount.toNat → s.fsr.state ≠ .draining → ∀ x, s.frameBuf[c]? = some x →
      (frameStep s).lanes[c]? = some (laneFrame s.build s.wa s.ws l x).1)
    ∧ (s.regs.chCount.toNat ≤ c → (frameStep s).lanes[c]? = some l)
    ∧ (frameStep s).lanes.length = s.lanes.length
    ∧ ∃ lanes fifo fsr, frameStep s = { s with lanes := lanes, fifo := fifo, fsr := fsr }
        ∧ fsr.frameIdx = s.fsr.frameIdx + 1 ∧ fsr.inCount = s.fsr.inCount ∧ fsr.pos = s.fsr.pos
        ∧ fsr.chPtr = s.fsr.chPtr

/-- R297: in DRAINING the frame step processes the all-zero frame for every active channel and ignores
FRAMEBUF. -/
def Obligations.DrainFrameProcessesSilence : Prop :=
  ∀ s : State, s.fsr.state = .draining →
    (∀ fb, frameStep { s with frameBuf := fb } = { frameStep s with frameBuf := fb })
    ∧ ∀ (c : Nat) (l : Lane), s.regs.chCount.toNat ≤ s.lanes.length → c < s.regs.chCount.toNat →
        s.lanes[c]? = some l →
        (frameStep s).lanes[c]? = some (laneFrame s.build s.wa s.ws l (List.replicate s.build.n 0)).1

/-- R298: the first frame of a stream pushes nothing and counts no output. -/
def Obligations.FirstFrameIsDiscarded : Prop :=
  ∀ s : State, s.fsr.frameIdx = 0 →
    (frameStep s).fifo = s.fifo ∧ (frameStep s).fsr.outCount = s.fsr.outCount
      ∧ (frameStep s).fsr.frameIdx = 1

/-- R300, R130: the groups of a lane carry its first W bits, in time order, in eights but for the last. -/
def Obligations.GroupsCarryTheBits : Prop :=
  ∀ (c w : Nat) (bits : List Bool), c < 256 → w ≤ bits.length →
    (groupsOf c w bits).flatMap groupBits = bits.take w
      ∧ (∀ g ∈ groupsOf c w bits, g.ch.toNat = c ∧ 1 ≤ g.nbits ∧ g.nbits ≤ 8
          ∧ g.bits.toNat % 2 ^ (8 - g.nbits) = 0)
      ∧ (∀ g ∈ (groupsOf c w bits).dropLast, g.nbits = 8)

/-- R299, R300: a later frame step appends to the FIFO, channel by channel in order, groups that carry the
first W = min(N·L, D·L - OUT_COUNT) bits of each active lane, and counts them. The k-th group of a channel holds
the frame's bits from 8·k on, 8 of them or what is left of the W, and its unused low bits are 0. -/
def Obligations.FrameStepPushesTheTruncatedBits : Prop :=
  ∀ s : State, s.fsr.frameIdx ≠ 0 → s.fsr.outCount.toNat ≤ durationOf s * s.build.l →
    durationOf s * s.build.l ≤ 2 ^ 64 - 1 →
    let w := min (s.build.n * s.build.l) (durationOf s * s.build.l - s.fsr.outCount.toNat)
    ∃ pushed : List Group, (frameStep s).fifo = s.fifo ++ pushed
      ∧ (frameStep s).fsr.outCount.toNat = s.fsr.outCount.toNat + w
      ∧ pushed.Pairwise (fun a b => a.ch.toNat ≤ b.ch.toNat)
      ∧ (∀ g ∈ pushed, g.ch.toNat < s.regs.chCount.toNat)
      ∧ ∀ c < s.regs.chCount.toNat,
          let mine := pushed.filter fun g => g.ch.toNat = c
          let bits := (laneFrame s.build s.wa s.ws (laneAt s c) (frameInput s c)).2.take w
          mine.flatMap groupBits = bits ∧ w ≤ 8 * mine.length ∧ 8 * mine.length < w + 8
            ∧ ∀ k g, mine[k]? = some g →
                g.nbits = min 8 (w - 8 * k) ∧ groupBits g = (bits.drop (8 * k)).take 8
                  ∧ g.bits.toNat % 2 ^ (8 - g.nbits) = 0

/-- R305: lane c's new state and its groups depend on its own lane, its own samples, D and the build alone:
other channels and CH_COUNT change none of them. -/
def Obligations.ChannelsAreIndependent : Prop :=
  ∀ (s t : State) (c : Nat), t.build = s.build → t.wa = s.wa → t.ws = s.ws → t.fsr = s.fsr →
    t.regs.duration = s.regs.duration → s.fifo = [] → t.fifo = [] →
    c < s.regs.chCount.toNat → c < t.regs.chCount.toNat →
    s.regs.chCount.toNat ≤ s.lanes.length → t.regs.chCount.toNat ≤ t.lanes.length →
    t.lanes[c]? = s.lanes[c]? → t.frameBuf[c]? = s.frameBuf[c]? →
      (frameStep t).lanes[c]? = (frameStep s).lanes[c]?
        ∧ ((frameStep t).fifo.filter fun g => g.ch.toNat = c)
            = ((frameStep s).fifo.filter fun g => g.ch.toNat = c)

/-- R310 (c), (e) and the totals of R303: under the invariant the drain frame ends the stream in DONE with
IN_COUNT = D, OUT_COUNT = D·L and FRAME_IDX = F + 1, where F = ceil(D/N); in the one stream of log 12 the 64-bit
counter has wrapped to 0 there. No step that stays in DONE changes these counters, though it may change DURATION
(log 13). -/
def Obligations.DrainFrameCompletesTheOutput : Prop :=
  (∀ s : State, Inv s → s.fsr.state = .draining →
    (frameStep s).fsr.state = .done ∧ (frameStep s).fsr.inCount.toNat = durationOf s
      ∧ (frameStep s).fsr.outCount.toNat = durationOf s * s.build.l
      ∧ ∀ f, durationOf s ≤ f * s.build.n → f * s.build.n < durationOf s + s.build.n →
          (frameStep s).fsr.frameIdx.toNat = (f + 1) % 2 ^ 64)
  ∧ ∀ s t : State, step s = .next t → s.fsr.state = .done → t.fsr.state = .done → t.fsr = s.fsr

/-- R306: an empty stream goes straight to DRAINING, pushes nothing and is DONE after one frame step. -/
def Obligations.EmptyStreamEndsAtOnce : Prop :=
  ∀ (s a b : State) (rest : List Turn),
    s.schedule = .host (writeOf 0x10 0x02000000#32) :: .core :: rest →
    (s.fsr.state = .idle ∨ s.fsr.state = .done) → s.fifo = [] → 1 ≤ s.regs.chCount.toNat →
    s.regs.chCount.toNat ≤ s.build.cMax → s.regs.duration = 0 → step s = .next a → step a = .next b →
      a.fsr.state = .draining ∧ b.fsr.state = .done ∧ b.fsr.outCount = 0 ∧ b.fsr.frameIdx = 1 ∧ b.fifo = []

/-! ## The interrupt line -/

/-- R347, R348: the line is high exactly while an enabled condition holds; a fault under IRQ_EN[3] raises it
and SRST lowers it. -/
def Obligations.InterruptLineFollowsTheState : Prop :=
  ∀ s : State,
    (irq s = true ↔
      (s.regs.irqEn.toNat % 2 = 1 ∧ s.fsr.state = .filling) ∨ (s.regs.irqEn.toNat / 2 % 2 = 1 ∧ s.fifo ≠ [])
        ∨ (s.regs.irqEn.toNat / 4 % 2 = 1 ∧ s.fsr.state = .done)
        ∨ (s.regs.irqEn.toNat / 8 = 1 ∧ s.fsr.state = .fault))
    ∧ (∀ t, exec .srst s = .next t → irq t = false)
end

