-- ==== Sys2Proof/Laws/Enclosure.lean ====
section
/-! SUPPORT. The intervals of Machine/Enclosure.lean enclose what they stand for, and how wide they
can be: `sinPi_spec`, `cosTurn_spec` and `cosSum_spec` say all that later proofs need. -/

open scoped Nat

namespace Sys2Proof.Machine

/-- The interval holds the real number x, at the interval's own scale. -/
def Interval.Holds (r : Interval) (x : ℝ) : Prop := (r.lo : ℝ) ≤ x ∧ x ≤ r.hi

/-- The width of an interval. -/
def Interval.width (r : Interval) : ℤ := r.hi - r.lo

theorem Interval.Holds.add {a b : Interval} {x y : ℝ} (ha : a.Holds x) (hb : b.Holds y) :
    (a.add b).Holds (x + y) := by
  unfold Interval.add Interval.Holds at *
  push_cast
  constructor <;> linarith

theorem Interval.Holds.sub {a b : Interval} {x y : ℝ} (ha : a.Holds x) (hb : b.Holds y) :
    (a.sub b).Holds (x - y) := by
  unfold Interval.sub Interval.Holds at *
  push_cast
  constructor <;> linarith

theorem Interval.Holds.scale {a : Interval} {x : ℝ} (ha : a.Holds x) (c : ℤ) : (a.scale c).Holds (c * x) := by
  unfold Interval.scale Interval.Holds at *
  split
  · have : (0 : ℝ) ≤ c := by exact_mod_cast ‹0 ≤ c›
    push_cast
    constructor <;> nlinarith
  · have : (c : ℝ) ≤ 0 := by exact_mod_cast (not_le.1 ‹¬0 ≤ c›).le
    push_cast
    constructor <;> nlinarith

theorem Interval.add_width (a b : Interval) : (a.add b).width = a.width + b.width := by
  simp [Interval.add, Interval.width]; ring

theorem Interval.sub_width (a b : Interval) : (a.sub b).width = a.width + b.width := by
  simp [Interval.sub, Interval.width]; ring

theorem Interval.scale_width (a : Interval) (c : ℤ) : (a.scale c).width = |c| * a.width := by
  unfold Interval.scale Interval.width
  split
  · rw [abs_of_nonneg ‹_›]; ring
  · rw [abs_of_neg (not_le.1 ‹_›)]; ring

/-- Floor division on the reals. -/
theorem floor_div_le (x : ℤ) {d : ℤ} (hd : 0 < d) : ((x / d : ℤ) : ℝ) ≤ x / d := by
  rw [le_div_iff₀ (by exact_mod_cast hd)]
  exact_mod_cast Int.ediv_mul_le x hd.ne'

theorem lt_floor_div (x : ℤ) {d : ℤ} (hd : 0 < d) : (x : ℝ) / d < ((x / d : ℤ) : ℝ) + 1 := by
  rw [div_lt_iff₀ (by exact_mod_cast hd)]
  exact_mod_cast Int.lt_ediv_add_one_mul_self x hd

theorem Interval.Holds.ratio {a : Interval} {x : ℝ} (ha : a.Holds x) (num : ℕ) {den : ℕ} (hd : 0 < den) :
    (a.ratio num den).Holds (x * num / den) := by
  unfold Interval.ratio Interval.Holds at *
  have hd' : (0 : ℤ) < den := by exact_mod_cast hd
  have hdr : (0 : ℝ) < den := by exact_mod_cast hd
  have hn : (0 : ℝ) ≤ num := by positivity
  have h1 := floor_div_le (a.lo * num) hd'
  have h2 := lt_floor_div (a.hi * num) hd'
  push_cast at h1 h2 ⊢
  constructor
  · refine h1.trans ?_
    gcongr
    exact ha.1
  · refine le_trans ?_ h2.le
    gcongr
    exact ha.2

/-! An alternating series: terms T, tails S. -/

/-- `S i` is the alternating sum of the terms from `T i` on. -/
structure AlternatingTail (T S : ℕ → ℝ) : Prop where
  step : ∀ i, S i = T i - S (i + 1)
  bound : ∀ i, |S i| ≤ T i

/-- The tails of a convergent alternating series whose terms fall. -/
theorem AlternatingTail.of_hasSum {T : ℕ → ℝ} {l : ℝ} (hT : Antitone T)
    (h : HasSum (fun n => (-1) ^ n * T n) l) :
    AlternatingTail T fun i => (-1) ^ i * (l - ∑ n ∈ Finset.range i, (-1) ^ n * T n) where
  step i := by
    rw [Finset.sum_range_succ, pow_succ]
    have : ((-1 : ℝ) ^ i) * (-1) ^ i = 1 := by rw [← mul_pow]; simp
    linear_combination (T i) * this
  bound i := by
    have hl := h.tendsto_sum_nat
    have lower := hT.alternating_series_le_tendsto hl
    have upper := hT.tendsto_le_alternating_series hl
    rw [abs_mul, abs_pow, abs_neg, abs_one, one_pow, one_mul, abs_sub_le_iff]
    rcases Nat.even_or_odd' i with ⟨k, rfl | rfl⟩
    · have h1 := lower k
      have h2 := upper k
      rw [Finset.sum_range_succ] at h2
      simp only [even_two, Even.mul_right, Even.neg_pow, one_pow, one_mul] at h2
      have h3 := lower (k + 1)
      have h4 := upper 0
      rw [show 2 * (k + 1) = 2 * k + 1 + 1 by ring, Finset.sum_range_succ, Finset.sum_range_succ, pow_succ] at h3
      simp only [even_two, Even.mul_right, Even.neg_pow, one_pow, one_mul, neg_mul] at h3
      constructor <;> linarith
    · have h1 := lower k
      have h2 := upper k
      have h3 := lower (k + 1)
      rw [show 2 * (k + 1) = 2 * k + 1 + 1 by ring, Finset.sum_range_succ, pow_succ] at h3
      simp only [even_two, Even.mul_right, Even.neg_pow, one_pow, one_mul, neg_mul] at h3
      have h5 := upper (k + 1)
      rw [show 2 * (k + 1) + 1 = 2 * k + 1 + 1 + 1 by ring, Finset.sum_range_succ, Finset.sum_range_succ,
        pow_succ, pow_succ] at h5
      simp only [even_two, Even.mul_right, Even.neg_pow, one_pow, one_mul, neg_mul, mul_neg, mul_one] at h5
      constructor <;> linarith

/-- The intervals of the terms an alternating sum goes through. -/
def termFrom (next : ℕ → Interval → Interval) (i : ℕ) (t : Interval) : ℕ → Interval
  | 0 => t
  | j + 1 => termFrom next (i + 1) (next i t) j

theorem alternating_holds {next : ℕ → Interval → Interval} {T S : ℕ → ℝ} (h : AlternatingTail T S) :
    ∀ (k i : ℕ) (t : Interval), (∀ j, j ≤ k → (termFrom next i t j).Holds (T (i + j))) →
      (alternating next k i t).Holds (S i) := by
  intro k
  induction k with
  | zero =>
    intro i t ht
    have := ht 0 le_rfl
    have hb := abs_le.1 (h.bound i)
    simp only [alternating, Interval.error, Interval.Holds, termFrom, Nat.add_zero] at *
    push_cast
    constructor <;> linarith
  | succ k ih =>
    intro i t ht
    rw [h.step i]
    refine Interval.Holds.sub (ht 0 (Nat.zero_le _)) (ih (i + 1) (next i t) fun j hj => ?_)
    have := ht (j + 1) (by omega)
    rwa [show i + (j + 1) = i + 1 + j by omega] at this

theorem alternating_width (next : ℕ → Interval → Interval) :
    ∀ (k i : ℕ) (t : Interval), (alternating next k i t).width
      = (∑ j ∈ Finset.range k, (termFrom next i t j).width) + 2 * (termFrom next i t k).hi := by
  intro k
  induction k with
  | zero => intro i t; simp [alternating, Interval.error, Interval.width, termFrom]; ring
  | succ k ih =>
    intro i t
    rw [alternating, Interval.sub_width, ih, Finset.sum_range_succ']
    simp only [termFrom]
    ring

/-- 2^F times the i-th term of arctan(1/x). -/
noncomputable def arctanValue (x F i : ℕ) : ℝ := 2 ^ F * ((x : ℝ)⁻¹ ^ (2 * i + 1) / ((2 * i + 1 : ℕ) : ℝ))

theorem arctan_tail {x : ℕ} (hx : 2 ≤ x) (F : ℕ) :
    ∃ S, AlternatingTail (arctanValue x F) S ∧ S 0 = 2 ^ F * Real.arctan (x : ℝ)⁻¹ := by
  have hxr : (2 : ℝ) ≤ x := by exact_mod_cast hx
  have hi0 : (0 : ℝ) ≤ (x : ℝ)⁻¹ := by positivity
  have hi1 : (x : ℝ)⁻¹ ≤ 1 := inv_le_one_of_one_le₀ (by linarith)
  have hlt : ‖(x : ℝ)⁻¹‖ < 1 := by
    rw [Real.norm_of_nonneg hi0]; exact inv_lt_one_of_one_lt₀ (by linarith)
  have hs := (Real.hasSum_arctan hlt).mul_left (2 ^ F)
  have hanti : Antitone (arctanValue x F) := by
    refine antitone_nat_of_succ_le fun n => ?_
    unfold arctanValue
    refine mul_le_mul_of_nonneg_left ?_ (by positivity)
    refine div_le_div₀ (by positivity) (pow_le_pow_of_le_one hi0 hi1 (by omega)) (by positivity) ?_
    exact_mod_cast (by omega : 2 * n + 1 ≤ 2 * (n + 1) + 1)
  have h := AlternatingTail.of_hasSum (T := arctanValue x F) (l := 2 ^ F * Real.arctan (x : ℝ)⁻¹) hanti (by
    refine hs.congr_fun ?_ |> fun h => h
    intro n; unfold arctanValue; ring)
  exact ⟨_, h, by simp⟩

theorem arctanTerm_holds {x : ℕ} (hx : 2 ≤ x) (F i : ℕ) : (arctanTerm x F i).Holds (arctanValue x F i) := by
  have hd : (0 : ℤ) < (((2 * i + 1) * x ^ (2 * i + 1) : ℕ) : ℤ) := by
    have : 0 < x := by omega
    positivity
  have h1 := floor_div_le (2 ^ F) hd
  have h2 := lt_floor_div (2 ^ F) hd
  have e : arctanValue x F i = ((2 ^ F : ℤ) : ℝ) / (((2 * i + 1) * x ^ (2 * i + 1) : ℕ) : ℤ) := by
    unfold arctanValue; push_cast; rw [inv_pow]; field_simp
  unfold arctanTerm Interval.Holds
  rw [e]
  push_cast at h1 h2 ⊢
  exact ⟨h1, h2.le⟩

theorem arctan_termFrom (x F : ℕ) : ∀ j i,
    termFrom (fun i _ => arctanTerm x F (i + 1)) i (arctanTerm x F i) j = arctanTerm x F (i + j)
  | 0, _ => rfl
  | j + 1, i => by rw [termFrom, arctan_termFrom x F j (i + 1)]; congr 1; omega

theorem arctanInv_holds {x : ℕ} (hx : 2 ≤ x) (F : ℕ) : (arctanInv x F).Holds (2 ^ F * Real.arctan (x : ℝ)⁻¹) := by
  obtain ⟨S, hS, h0⟩ := arctan_tail hx F
  rw [← h0]
  refine alternating_holds hS _ _ _ fun j _ => ?_
  rw [arctan_termFrom]
  exact arctanTerm_holds hx F (0 + j)

theorem arctanInv_width {x : ℕ} (hx : 5 ≤ x) (F : ℕ) :
    0 ≤ (arctanInv x F).width ∧ (arctanInv x F).width ≤ F + 5 := by
  unfold arctanInv
  rw [alternating_width]
  simp only [arctan_termFrom]
  have hw : ∀ j, (arctanTerm x F j).width = 1 := fun j => by simp [arctanTerm, Interval.width]
  simp only [hw, Finset.sum_const, Finset.card_range, Int.nsmul_eq_mul, mul_one]
  have hhi : 0 ≤ (arctanTerm x F (0 + (F / 4 + 1))).hi ∧ (arctanTerm x F (0 + (F / 4 + 1))).hi ≤ 1 := by
    simp only [arctanTerm, Nat.zero_add]
    have : 2 ^ F < (2 * (F / 4 + 1) + 1) * x ^ (2 * (F / 4 + 1) + 1) := by
      calc 2 ^ F ≤ 2 ^ (2 * (2 * (F / 4 + 1) + 1)) := Nat.pow_le_pow_right (by omega) (by omega)
        _ = 4 ^ (2 * (F / 4 + 1) + 1) := by rw [pow_mul]; norm_num
        _ ≤ x ^ (2 * (F / 4 + 1) + 1) := Nat.pow_le_pow_left (by omega) _
        _ < _ := by
          have : 0 < x ^ (2 * (F / 4 + 1) + 1) := by positivity
          exact lt_mul_of_one_lt_left this (by omega)
    rw [Nat.div_eq_of_lt this]; simp
  omega

theorem piInterval_holds (F : ℕ) : (piInterval F).Holds (Real.pi * 2 ^ F) := by
  have h := Real.four_mul_arctan_inv_5_sub_arctan_inv_239
  have e : Real.pi * 2 ^ F = ((16 : ℤ) : ℝ) * (2 ^ F * Real.arctan ((5 : ℕ) : ℝ)⁻¹)
      - ((4 : ℤ) : ℝ) * (2 ^ F * Real.arctan ((239 : ℕ) : ℝ)⁻¹) := by
    push_cast
    linear_combination (-4 * 2 ^ F) * h
  rw [e]
  exact ((arctanInv_holds (by norm_num) F).scale 16).sub ((arctanInv_holds (by norm_num) F).scale 4)

theorem piInterval_width (F : ℕ) : 0 ≤ (piInterval F).width ∧ (piInterval F).width ≤ 20 * F + 100 := by
  have h1 := arctanInv_width (x := 5) le_rfl F
  have h2 := arctanInv_width (x := 239) (by norm_num) F
  unfold piInterval
  rw [Interval.sub_width, Interval.scale_width, Interval.scale_width]
  norm_num
  omega

/-- 2^F times the i-th term of sin θ. -/
noncomputable def sineValue (F : ℕ) (θ : ℝ) (i : ℕ) : ℝ := 2 ^ F * (θ ^ (2 * i + 1) / ((2 * i + 1)! : ℝ))

theorem sineValue_succ (F : ℕ) (θ : ℝ) (i : ℕ) :
    sineValue F θ (i + 1) = sineValue F θ i * θ ^ 2 / (((2 * i + 2) * (2 * i + 3) : ℕ) : ℝ) := by
  unfold sineValue
  have h : ((2 * (i + 1) + 1)! : ℝ) = (2 * i + 3) * (2 * i + 2) * ((2 * i + 1)! : ℝ) := by
    rw [show 2 * (i + 1) + 1 = 2 * i + 1 + 1 + 1 by ring, Nat.factorial_succ, Nat.factorial_succ]
    push_cast; ring
  have h0 : ((2 * i + 1)! : ℝ) ≠ 0 := by positivity
  rw [h]
  push_cast
  have h1 : (2 * (i : ℝ) + 3) ≠ 0 := by positivity
  have h2 : (2 * (i : ℝ) + 2) ≠ 0 := by positivity
  field_simp
  ring

theorem sine_tail {θ : ℝ} (h0 : 0 ≤ θ) (h2 : θ ≤ 2) (F : ℕ) :
    ∃ S, AlternatingTail (sineValue F θ) S ∧ S 0 = 2 ^ F * Real.sin θ := by
  have hs := (Real.hasSum_sin θ).mul_left (2 ^ F)
  have hanti : Antitone (sineValue F θ) := by
    refine antitone_nat_of_succ_le fun n => ?_
    rw [sineValue_succ]
    have hp : 0 ≤ sineValue F θ n := by unfold sineValue; positivity
    rw [div_le_iff₀ (by positivity)]
    refine mul_le_mul_of_nonneg_left ?_ hp
    have : (6 : ℝ) ≤ (((2 * n + 2) * (2 * n + 3) : ℕ) : ℝ) := by
      exact_mod_cast (by nlinarith : 6 ≤ (2 * n + 2) * (2 * n + 3))
    nlinarith
  have h := AlternatingTail.of_hasSum (T := sineValue F θ) (l := 2 ^ F * Real.sin θ) hanti (by
    refine hs.congr_fun ?_ |> fun h => h
    intro n; unfold sineValue; ring)
  exact ⟨_, h, by simp⟩

/-- What holds of the interval of the i-th term of sin θ: it encloses the term, its ends stay small and its
width within K. -/
structure SineTerm (F : ℕ) (θ K : ℝ) (i : ℕ) (t : Interval) : Prop where
  lo : 0 ≤ t.lo
  holds : t.Holds (sineValue F θ i)
  hi : (t.hi : ℝ) ≤ 2 * 2 ^ F
  small : (t.hi : ℝ) ≤ 2 * 2 ^ F * (4 ^ i / ((2 * i + 1)! : ℝ)) + 3
  width : (t.hi : ℝ) - t.lo ≤ K

theorem SineTerm.next {F : ℕ} {θ : ℝ} {theta : Interval} (hθ : 0 ≤ θ) (hlo : 0 ≤ theta.lo)
    (hh : theta.Holds (θ * 2 ^ F)) (hhi : (theta.hi : ℝ) ≤ 2 * 2 ^ F) (hF : 2 ≤ F) {K : ℝ}
    (hK : 4 * ((theta.hi : ℝ) - theta.lo) + 6 ≤ K) {i : ℕ} {t : Interval} (ht : SineTerm F θ K i t) :
    SineTerm F θ K (i + 1) (sineNext F theta i t) := by
  obtain ⟨t0, ⟨tl, tu⟩, th, ts, tw⟩ := ht
  obtain ⟨hl, hu⟩ := hh
  set n : ℕ := 2 ^ (2 * F) * ((2 * i + 2) * (2 * i + 3)) with hn
  have hd : (0 : ℤ) < (n : ℤ) := by positivity
  have hN : (n : ℝ) = (2 ^ F) ^ 2 * ((2 * i + 2) * (2 * i + 3)) := by rw [hn]; push_cast; ring
  have hnr : (0 : ℝ) < n := by exact_mod_cast hd
  set P : ℝ := 2 ^ F with hP
  have hP4 : (4 : ℝ) ≤ P := by
    rw [hP]; calc (4 : ℝ) = 2 ^ 2 := by norm_num
      _ ≤ 2 ^ F := pow_le_pow_right₀ (by norm_num) hF
  have hPp : (0 : ℝ) < P := by linarith
  set m : ℝ := (2 * i + 2) * (2 * i + 3) with hm
  have hm6 : (6 : ℝ) ≤ m := by
    have : (0 : ℝ) ≤ i := by positivity
    rw [hm]; nlinarith
  have l1 := floor_div_le (t.lo * (theta.lo * theta.lo)) hd
  have l2 := lt_floor_div (t.lo * (theta.lo * theta.lo)) hd
  have u1 := floor_div_le (t.hi * (theta.hi * theta.hi)) hd
  have u2 := lt_floor_div (t.hi * (theta.hi * theta.hi)) hd
  push_cast at l1 l2 u1 u2
  have hlor : (0 : ℝ) ≤ theta.lo := by exact_mod_cast hlo
  have t0r : (0 : ℝ) ≤ t.lo := by exact_mod_cast t0
  have hthi : (0 : ℝ) ≤ t.hi := by linarith
  have hhi0 : (0 : ℝ) ≤ theta.hi := by linarith
  have hval : sineValue F θ (i + 1) = sineValue F θ i * ((θ * P) * (θ * P)) / n := by
    rw [sineValue_succ, hN]; push_cast; field_simp; rw [hm]; ring
  have hsv : 0 ≤ sineValue F θ i := by unfold sineValue; positivity
  have hsq : (theta.hi : ℝ) * theta.hi ≤ 4 * P ^ 2 :=
    (mul_le_mul hhi hhi hhi0 (by linarith)).trans (by linarith [show 2 * P * (2 * P) = 4 * P ^ 2 by ring])
  have hbase : (t.hi : ℝ) * (theta.hi * theta.hi) / n ≤ t.hi * (4 / m) := by
    rw [div_le_iff₀ hnr, hN]
    have : (t.hi : ℝ) * (4 / m) * (P ^ 2 * m) = t.hi * (4 * P ^ 2) := by field_simp
    rw [this]
    exact mul_le_mul_of_nonneg_left hsq hthi
  have h46 : 4 / m ≤ 2 / 3 := by rw [div_le_iff₀ (by linarith)]; linarith
  refine ⟨?_, ⟨?_, ?_⟩, ?_, ?_, ?_⟩
  · exact Int.ediv_nonneg (by positivity) hd.le
  · refine l1.trans ?_
    rw [hval]; gcongr
  · show sineValue F θ (i + 1) ≤ ((t.hi * (theta.hi * theta.hi) / (n : ℤ) + 1 : ℤ) : ℝ)
    push_cast
    refine le_trans ?_ u2.le
    rw [hval]; gcongr
  · show ((t.hi * (theta.hi * theta.hi) / (n : ℤ) + 1 : ℤ) : ℝ) ≤ _
    push_cast
    have : (t.hi : ℝ) * (4 / m) ≤ (2 * P) * (2 / 3) := by gcongr
    linarith
  · show ((t.hi * (theta.hi * theta.hi) / (n : ℤ) + 1 : ℤ) : ℝ) ≤ _
    push_cast
    have h3 : (t.hi : ℝ) * (4 / m) ≤ (2 * P * (4 ^ i / ((2 * i + 1)! : ℝ)) + 3) * (4 / m) := by gcongr
    have h4 : (4 : ℝ) ^ (i + 1) / ((2 * (i + 1) + 1)! : ℝ) = 4 ^ i / ((2 * i + 1)! : ℝ) * (4 / m) := by
      rw [show 2 * (i + 1) + 1 = 2 * i + 1 + 1 + 1 by ring, Nat.factorial_succ (2 * i + 1 + 1),
        Nat.factorial_succ (2 * i + 1), hm]
      have h0 : ((2 * i + 1)! : ℝ) ≠ 0 := by positivity
      have h1 : (2 * (i : ℝ) + 3) ≠ 0 := by positivity
      have h2 : (2 * (i : ℝ) + 2) ≠ 0 := by positivity
      push_cast
      field_simp
      ring
    have h5 : (2 * P * (4 ^ i / ((2 * i + 1)! : ℝ)) + 3) * (4 / m)
        = 2 * P * (4 ^ i / ((2 * i + 1)! : ℝ) * (4 / m)) + 3 * (4 / m) := by ring
    rw [h4]
    linarith
  · show ((t.hi * (theta.hi * theta.hi) / (n : ℤ) + 1 : ℤ) : ℝ)
      - ((t.lo * (theta.lo * theta.lo) / (n : ℤ) : ℤ) : ℝ) ≤ K
    push_cast
    have key : (t.hi : ℝ) * (theta.hi * theta.hi) / n - t.lo * (theta.lo * theta.lo) / n
        ≤ (2 / 3) * (t.hi - t.lo) + (4 / 3) * (theta.hi - theta.lo) := by
      rw [← sub_div, div_le_iff₀ hnr, hN]
      have hw : (0 : ℝ) ≤ t.hi - t.lo := by linarith
      have hwt : (0 : ℝ) ≤ theta.hi - theta.lo := by linarith
      have e : (t.hi : ℝ) * (theta.hi * theta.hi) - t.lo * (theta.lo * theta.lo)
          = (t.hi - t.lo) * (theta.hi * theta.hi) + t.lo * (theta.hi + theta.lo) * (theta.hi - theta.lo) := by ring
      rw [e]
      have a1 : ((t.hi : ℝ) - t.lo) * (theta.hi * theta.hi) ≤ (t.hi - t.lo) * (4 * P ^ 2) := by gcongr
      have a2 : (t.lo : ℝ) * (theta.hi + theta.lo) ≤ (2 * P) * (4 * P) := by
        gcongr
        · linarith
        · linarith
      have a3 : (t.lo : ℝ) * (theta.hi + theta.lo) * (theta.hi - theta.lo)
          ≤ (2 * P) * (4 * P) * (theta.hi - theta.lo) := by gcongr
      have a4 : ((2 / 3) * ((t.hi : ℝ) - t.lo) + (4 / 3) * (theta.hi - theta.lo)) * (P ^ 2 * 6)
          ≤ ((2 / 3) * ((t.hi : ℝ) - t.lo) + (4 / 3) * (theta.hi - theta.lo)) * (P ^ 2 * m) := by gcongr
      have a5 : (2 / 3 * ((t.hi : ℝ) - t.lo) + 4 / 3 * (theta.hi - theta.lo)) * (P ^ 2 * 6)
          = (t.hi - t.lo) * (4 * P ^ 2) + 2 * P * (4 * P) * (theta.hi - theta.lo) := by ring
      linarith
    linarith

/-- (2k+1)! outgrows what the sine series needs. -/
theorem factorial_bound : ∀ k, 12 ≤ k → 2 ^ (10 * k - 56) ≤ (2 * k + 1)! := by
  have base : ∀ k, 15 ≤ k → 2 ^ (10 * k - 56) ≤ (2 * k + 1)! := by
    intro k hk
    induction k, hk using Nat.le_induction with
    | base => decide
    | succ k hk ih =>
      rw [show 2 * (k + 1) + 1 = 2 * k + 1 + 1 + 1 by ring, Nat.factorial_succ, Nat.factorial_succ,
        show 10 * (k + 1) - 56 = (10 * k - 56) + 10 by omega, pow_add]
      have : 2 ^ 10 ≤ (2 * k + 1 + 1 + 1) * (2 * k + 1 + 1) := by nlinarith
      nlinarith
  intro k hk
  rcases Nat.lt_or_ge k 15 with h | h
  · interval_cases k <;> decide
  · exact base k h

/-- A bound for the width of a sine's interval at scale 2^F. -/
def sineWidth (F : ℕ) : ℝ := 5 * F ^ 2 + 400 * F + 2000

theorem large_pow : ∀ F : ℕ, 33 ≤ F → 100 * (F : ℝ) + 1000 ≤ 2 ^ F := by
  intro F hF
  induction F, hF using Nat.le_induction with
  | base => norm_num
  | succ F hF ih =>
    have : (0 : ℝ) ≤ F := by positivity
    rw [pow_succ]; push_cast; linarith

theorem sine_termFrom {F : ℕ} {θ : ℝ} {theta : Interval} (hθ : 0 ≤ θ) (hlo : 0 ≤ theta.lo)
    (hh : theta.Holds (θ * 2 ^ F)) (hhi : (theta.hi : ℝ) ≤ 2 * 2 ^ F) (hF : 2 ≤ F) {K : ℝ}
    (hK : 4 * ((theta.hi : ℝ) - theta.lo) + 6 ≤ K) :
    ∀ (j i : ℕ) (t : Interval), SineTerm F θ K i t → SineTerm F θ K (i + j) (termFrom (sineNext F theta) i t j)
  | 0, _, _, ht => ht
  | j + 1, i, t, ht => by
    have := sine_termFrom hθ hlo hh hhi hF hK j (i + 1) _ (ht.next hθ hlo hh hhi hF hK)
    rwa [show i + 1 + j = i + (j + 1) by omega] at this

/-- The enclosure of sin(π·a/b) for an angle of at most a quarter turn. -/
theorem sinPi_spec {a b F : ℕ} (hb : 0 < b) (hab : 2 * a ≤ b) (hF : 33 ≤ F) :
    (sinPi a b F).Holds (Real.sin (Real.pi * a / b) * 2 ^ F)
      ∧ ((sinPi a b F).width : ℝ) ≤ sineWidth F := by
  set theta := (piInterval F).ratio a b with htheta
  set θ : ℝ := Real.pi * a / b with hθdef
  have hbr : (0 : ℝ) < b := by exact_mod_cast hb
  have hFr : (33 : ℝ) ≤ F := by exact_mod_cast hF
  have hfrac0 : (0 : ℝ) ≤ a / b := by positivity
  have hfrac : (a : ℝ) / b ≤ 1 / 2 := by
    rw [div_le_iff₀ hbr]
    have : (2 * a : ℝ) ≤ b := by exact_mod_cast hab
    linarith
  have hpi3 := Real.pi_gt_three
  have hpi4 : Real.pi < 3.15 := Real.pi_lt_d2
  have hθ0 : 0 ≤ θ := by positivity
  have hθ2 : θ ≤ 2 := by
    rw [hθdef, mul_div_assoc]; nlinarith
  have hlarge := large_pow F hF
  obtain ⟨pl, pu⟩ := piInterval_holds F
  have pw : ((piInterval F).hi : ℝ) - (piInterval F).lo ≤ 20 * F + 100 := by
    exact_mod_cast (piInterval_width F).2
  have hP : (0 : ℝ) < 2 ^ F := by positivity
  have hpiP : Real.pi * 2 ^ F ≤ 3.15 * 2 ^ F := by gcongr
  have hpiP' : 3 * 2 ^ F ≤ Real.pi * 2 ^ F := by gcongr
  have hpilo : (0 : ℝ) ≤ (piInterval F).lo := by linarith
  have hh : theta.Holds (θ * 2 ^ F) := by
    have := Interval.Holds.ratio (piInterval_holds F) a hb
    rwa [show Real.pi * 2 ^ F * a / b = θ * 2 ^ F by rw [hθdef]; ring] at this
  have hd : (0 : ℤ) < b := by exact_mod_cast hb
  have h1 := lt_floor_div ((piInterval F).lo * a) hd
  have h2 := floor_div_le ((piInterval F).hi * a) hd
  push_cast at h1 h2
  rw [mul_div_assoc] at h1 h2
  have tlo : ((theta.lo : ℤ) : ℝ) = (((piInterval F).lo * a / b : ℤ) : ℝ) := rfl
  have thi : ((theta.hi : ℤ) : ℝ) = (((piInterval F).hi * a / b : ℤ) : ℝ) + 1 := by
    rw [htheta, Interval.ratio]; push_cast; rfl
  have hlo : 0 ≤ theta.lo :=
    Int.ediv_nonneg (mul_nonneg (by exact_mod_cast hpilo) (by positivity)) hd.le
  have hhi : (theta.hi : ℝ) ≤ 2 * 2 ^ F := by
    have : ((piInterval F).hi : ℝ) * (a / b) ≤ (piInterval F).hi * (1 / 2) := by
      gcongr; linarith
    rw [thi]
    linarith
  have hw : (theta.hi : ℝ) - theta.lo ≤ 10 * F + 52 := by
    rw [thi, tlo]
    have : (((piInterval F).hi : ℝ) - (piInterval F).lo) * (a / b) ≤ (20 * F + 100) * (1 / 2) := by gcongr
    have e : ((piInterval F).hi : ℝ) * (a / b) - (piInterval F).lo * (a / b)
      = ((piInterval F).hi - (piInterval F).lo) * (a / b) := by ring
    linarith
  have h0 : SineTerm F θ (40 * F + 214) 0 theta := by
    refine ⟨hlo, ?_, hhi, ?_, by linarith⟩
    · have : sineValue F θ 0 = θ * 2 ^ F := by simp [sineValue]; ring
      rwa [this]
    · simp; linarith
  have hterm := fun j => sine_termFrom hθ0 hlo hh hhi (by omega) (K := 40 * F + 214) (by linarith) j 0 theta h0
  obtain ⟨S, hS, hS0⟩ := sine_tail hθ0 hθ2 F
  have hsin : sinPi a b F = alternating (sineNext F theta) (F / 8 + 8) 0 theta := rfl
  refine ⟨?_, ?_⟩
  · rw [hsin, mul_comm, ← hS0]
    exact alternating_holds hS _ _ _ fun j _ => (hterm j).holds
  · rw [hsin, alternating_width]
    have hk := (hterm (F / 8 + 8)).small
    rw [Nat.zero_add] at hk
    set k := F / 8 + 8 with hkdef
    have hfac : (2 : ℝ) ^ (10 * k - 56) ≤ ((2 * k + 1)! : ℝ) := by exact_mod_cast factorial_bound k (by omega)
    have hsmall : 2 * 2 ^ F * (4 ^ k / ((2 * k + 1)! : ℝ)) ≤ 1 := by
      rw [← mul_div_assoc, div_le_one (by positivity)]
      refine le_trans ?_ hfac
      have e : ∀ k : ℕ, (2 : ℝ) * 2 ^ F * 4 ^ k = 2 ^ (1 + F + 2 * k) := fun k => by
        rw [pow_add, pow_add, pow_mul]; norm_num
      rw [e]
      exact pow_le_pow_right₀ (by norm_num) (by omega)
    have hsum : ∑ j ∈ Finset.range k, ((termFrom (sineNext F theta) 0 theta j).width : ℝ)
        ≤ k * (40 * F + 214) := by
      refine (Finset.sum_le_sum (g := fun _ => (40 * F + 214 : ℝ)) fun j _ => ?_).trans ?_
      · have := (hterm j).width
        unfold Interval.width; push_cast; exact this
      · rw [Finset.sum_const, Finset.card_range, nsmul_eq_mul]
    have hkF : (k : ℝ) ≤ F / 8 + 8 := by
      rw [hkdef]; push_cast
      have : ((F / 8 : ℕ) : ℝ) ≤ F / 8 := Nat.cast_div_le
      linarith
    push_cast
    have : (k : ℝ) * (40 * F + 214) ≤ (F / 8 + 8) * (40 * F + 214) := by gcongr
    have e : ((F : ℝ) / 8 + 8) * (40 * F + 214) = 5 * F ^ 2 + (1387 / 4) * F + 1712 := by ring
    unfold sineWidth
    linarith

/-- The enclosure of cos(2π·j/P). -/
theorem cosTurn_spec {P F j : ℕ} (hj : j < P) (hF : 33 ≤ F) :
    (cosTurn P F j).Holds (Real.cos (2 * Real.pi * j / P) * 2 ^ F)
      ∧ ((cosTurn P F j).width : ℝ) ≤ sineWidth F := by
  have hP : (0 : ℝ) < P := by exact_mod_cast (by omega : 0 < P)
  set a := if P < 2 * j then 2 * P - 2 * j else 2 * j with ha
  have haP : a ≤ P := by rw [ha]; split <;> omega
  have hcos : Real.cos (2 * Real.pi * j / P) = Real.cos (Real.pi * a / P) := by
    rw [ha]
    split
    · rename_i h
      rw [← Real.cos_two_pi_sub]
      congr 1
      rw [Nat.cast_sub (by omega)]
      push_cast
      field_simp
    · congr 1; push_cast; ring
  rw [hcos]
  unfold cosTurn
  rw [← ha]
  simp only []
  split
  · rename_i h
    have := sinPi_spec (a := P - 2 * a) (b := 2 * P) (F := F) (by omega) (by omega) hF
    rw [Nat.cast_sub h] at this
    rw [show Real.pi * (((P : ℕ) : ℝ) - ((2 * a : ℕ) : ℝ)) / ((2 * P : ℕ) : ℝ) = Real.pi / 2 - Real.pi * a / P by
      push_cast; field_simp, Real.sin_pi_div_two_sub] at this
    exact this
  · rename_i h
    have := sinPi_spec (a := 2 * a - P) (b := 2 * P) (F := F) (by omega) (by omega) hF
    rw [Nat.cast_sub (by omega)] at this
    rw [show Real.pi * (((2 * a : ℕ) : ℝ) - ((P : ℕ) : ℝ)) / ((2 * P : ℕ) : ℝ) = -(Real.pi / 2 - Real.pi * a / P) by
      push_cast; field_simp; ring, Real.sin_neg, Real.sin_pi_div_two_sub] at this
    refine ⟨?_, ?_⟩
    · have h2 := this.1.scale (-1)
      rwa [show ((-1 : ℤ) : ℝ) * (-Real.cos (Real.pi * a / P) * 2 ^ F) = Real.cos (Real.pi * a / P) * 2 ^ F by
        push_cast; ring] at h2
    · rw [Interval.scale_width]
      simpa using this.2

/-- The sum of `c[j]·cos(2π·j/P)`, P the number of coefficients. -/
noncomputable def cosValue (c : Coeffs) : ℝ :=
  ∑ j ∈ Finset.range c.length, (c.getD j 0 : ℝ) * Real.cos (2 * Real.pi * j / c.length)

theorem coeffWeight_eq (c : Coeffs) : (coeffWeight c : ℤ) = ∑ j ∈ Finset.range c.length, |c.getD j 0| := by
  have h : ∀ (l : List ℤ) (n : ℕ), ((l.foldl (fun acc v => acc + Int.natAbs v) n : ℕ) : ℤ)
      = n + ∑ j ∈ Finset.range l.length, |l.getD j 0| := by
    intro l
    induction l with
    | nil => intro n; simp
    | cons a l ih =>
      intro n
      rw [List.foldl_cons, ih, List.length_cons, Finset.sum_range_succ']
      simp
      ring
  simpa [coeffWeight] using h c 0

/-- The first n terms of `cosSum`. -/
def cosSumUpTo (c : Coeffs) (F n : ℕ) : Interval :=
  (List.range n).foldl
    (fun acc j => if c.getD j 0 = 0 then acc else acc.add ((cosTurn c.length F j).scale (c.getD j 0)))
    { lo := 0, hi := 0 }

theorem cosSumUpTo_spec (c : Coeffs) {F : ℕ} (hF : 33 ≤ F) : ∀ n ≤ c.length,
    (cosSumUpTo c F n).Holds
        ((∑ j ∈ Finset.range n, (c.getD j 0 : ℝ) * Real.cos (2 * Real.pi * j / c.length)) * 2 ^ F)
      ∧ ((cosSumUpTo c F n).width : ℝ) ≤ (∑ j ∈ Finset.range n, (|c.getD j 0| : ℤ)) * sineWidth F := by
  intro n
  induction n with
  | zero => intro _; simp [cosSumUpTo, Interval.Holds, Interval.width]
  | succ n ih =>
    intro hn
    obtain ⟨h1, h2⟩ := ih (by omega)
    obtain ⟨h3, h4⟩ := cosTurn_spec (P := c.length) (F := F) (j := n) (by omega) hF
    have hstep : cosSumUpTo c F (n + 1) = if c.getD n 0 = 0 then cosSumUpTo c F n
        else (cosSumUpTo c F n).add ((cosTurn c.length F n).scale (c.getD n 0)) := by
      rw [cosSumUpTo, List.range_succ, List.foldl_append]; rfl
    rw [hstep, Finset.sum_range_succ, Finset.sum_range_succ]
    split
    · rename_i h0
      rw [h0]
      simp only [Int.cast_zero, abs_zero, zero_mul, add_zero]
      exact ⟨h1, h2⟩
    · constructor
      · rw [add_mul]
        refine h1.add ?_
        rw [mul_assoc]
        exact h3.scale _
      · have hW : 0 ≤ sineWidth F := by unfold sineWidth; positivity
        rw [Interval.add_width, Interval.scale_width]
        push_cast
        have : |((c.getD n 0 : ℤ) : ℝ)| * ((cosTurn c.length F n).width : ℝ)
            ≤ |((c.getD n 0 : ℤ) : ℝ)| * sineWidth F := by gcongr
        push_cast at h2
        linarith

/-- The weight as a sum of reals. -/
theorem coeffWeight_real (c : Coeffs) :
    (coeffWeight c : ℝ) = ∑ j ∈ Finset.range c.length, |((c.getD j 0 : ℤ) : ℝ)| := by
  have h : ((coeffWeight c : ℤ) : ℝ) = ((∑ j ∈ Finset.range c.length, |c.getD j 0| : ℤ) : ℝ) := by
    rw [coeffWeight_eq]
  push_cast at h ⊢
  exact h

/-- The enclosure of a sum of cosines. -/
theorem cosSum_spec (c : Coeffs) {F : ℕ} (hF : 33 ≤ F) :
    (cosSum c F).Holds (cosValue c * 2 ^ F) ∧ ((cosSum c F).width : ℝ) ≤ coeffWeight c * sineWidth F := by
  have := cosSumUpTo_spec c hF c.length le_rfl
  refine ⟨this.1, this.2.trans (le_of_eq ?_)⟩
  rw [coeffWeight_real]
  push_cast
  rfl

end Sys2Proof.Machine
end

