-- ==== Sys2Proof/Laws/State.lean ====
section
/-! SUPPORT. One lemma per field per update of State, true by unfolding the update once. -/

namespace Sys2Proof.Machine

@[simp] theorem enterFault_build (code : ErrCode) (addr : BitVec 8) (v : Word32) (s : State) :
    (enterFault code addr v s).build = s.build := rfl
@[simp] theorem enterFault_wa (code : ErrCode) (addr : BitVec 8) (v : Word32) (s : State) :
    (enterFault code addr v s).wa = s.wa := rfl
@[simp] theorem enterFault_ws (code : ErrCode) (addr : BitVec 8) (v : Word32) (s : State) :
    (enterFault code addr v s).ws = s.ws := rfl
@[simp] theorem enterFault_lanes (code : ErrCode) (addr : BitVec 8) (v : Word32) (s : State) :
    (enterFault code addr v s).lanes = s.lanes := rfl
@[simp] theorem enterFault_frameBuf (code : ErrCode) (addr : BitVec 8) (v : Word32) (s : State) :
    (enterFault code addr v s).frameBuf = s.frameBuf := rfl
@[simp] theorem enterFault_fifo (code : ErrCode) (addr : BitVec 8) (v : Word32) (s : State) :
    (enterFault code addr v s).fifo = s.fifo := rfl
@[simp] theorem enterFault_fsr (code : ErrCode) (addr : BitVec 8) (v : Word32) (s : State) :
    (enterFault code addr v s).fsr = { s.fsr with state := .fault } := rfl
@[simp] theorem enterFault_regs (code : ErrCode) (addr : BitVec 8) (v : Word32) (s : State) :
    (enterFault code addr v s).regs = s.regs := rfl
@[simp] theorem enterFault_err (code : ErrCode) (addr : BitVec 8) (v : Word32) (s : State) :
    (enterFault code addr v s).err = ⟨code, addr, v⟩ := rfl
@[simp] theorem enterFault_shadows (code : ErrCode) (addr : BitVec 8) (v : Word32) (s : State) :
    (enterFault code addr v s).shadows = s.shadows := rfl
@[simp] theorem enterFault_schedule (code : ErrCode) (addr : BitVec 8) (v : Word32) (s : State) :
    (enterFault code addr v s).schedule = s.schedule := rfl
@[simp] theorem enterFault_response (code : ErrCode) (addr : BitVec 8) (v : Word32) (s : State) :
    (enterFault code addr v s).response = s.response := rfl
@[simp] theorem enterFault_freeCount (code : ErrCode) (addr : BitVec 8) (v : Word32) (s : State) :
    (enterFault code addr v s).freeCount = s.freeCount := rfl

@[simp] theorem resetBlock_build (s : State) :
    (resetBlock s).build = s.build := rfl
@[simp] theorem resetBlock_wa (s : State) :
    (resetBlock s).wa = s.wa := rfl
@[simp] theorem resetBlock_ws (s : State) :
    (resetBlock s).ws = s.ws := rfl
@[simp] theorem resetBlock_lanes (s : State) :
    (resetBlock s).lanes = List.replicate s.build.cMax (Lane.resetFor s.build) := rfl
@[simp] theorem resetBlock_frameBuf (s : State) :
    (resetBlock s).frameBuf = List.replicate s.build.cMax (List.replicate s.build.n 0x00000000#32) := rfl
@[simp] theorem resetBlock_fifo (s : State) :
    (resetBlock s).fifo = [] := rfl
@[simp] theorem resetBlock_fsr (s : State) :
    (resetBlock s).fsr = Fsr.reset := rfl
@[simp] theorem resetBlock_regs (s : State) :
    (resetBlock s).regs = HostRegs.reset := rfl
@[simp] theorem resetBlock_err (s : State) :
    (resetBlock s).err = ErrorRecord.reset := rfl
@[simp] theorem resetBlock_shadows (s : State) :
    (resetBlock s).shadows = Shadows.reset := rfl
@[simp] theorem resetBlock_schedule (s : State) :
    (resetBlock s).schedule = s.schedule := rfl
@[simp] theorem resetBlock_response (s : State) :
    (resetBlock s).response = s.response := rfl
@[simp] theorem resetBlock_freeCount (s : State) :
    (resetBlock s).freeCount = s.freeCount := rfl

@[simp] theorem setLane_build (s : State) (c : Nat) (l : Lane) :
    (setLane s c l).build = s.build := rfl
@[simp] theorem setLane_wa (s : State) (c : Nat) (l : Lane) :
    (setLane s c l).wa = s.wa := rfl
@[simp] theorem setLane_ws (s : State) (c : Nat) (l : Lane) :
    (setLane s c l).ws = s.ws := rfl
@[simp] theorem setLane_lanes (s : State) (c : Nat) (l : Lane) :
    (setLane s c l).lanes = s.lanes.set c l := rfl
@[simp] theorem setLane_frameBuf (s : State) (c : Nat) (l : Lane) :
    (setLane s c l).frameBuf = s.frameBuf := rfl
@[simp] theorem setLane_fifo (s : State) (c : Nat) (l : Lane) :
    (setLane s c l).fifo = s.fifo := rfl
@[simp] theorem setLane_fsr (s : State) (c : Nat) (l : Lane) :
    (setLane s c l).fsr = s.fsr := rfl
@[simp] theorem setLane_regs (s : State) (c : Nat) (l : Lane) :
    (setLane s c l).regs = s.regs := rfl
@[simp] theorem setLane_err (s : State) (c : Nat) (l : Lane) :
    (setLane s c l).err = s.err := rfl
@[simp] theorem setLane_shadows (s : State) (c : Nat) (l : Lane) :
    (setLane s c l).shadows = s.shadows := rfl
@[simp] theorem setLane_schedule (s : State) (c : Nat) (l : Lane) :
    (setLane s c l).schedule = s.schedule := rfl
@[simp] theorem setLane_response (s : State) (c : Nat) (l : Lane) :
    (setLane s c l).response = s.response := rfl
@[simp] theorem setLane_freeCount (s : State) (c : Nat) (l : Lane) :
    (setLane s c l).freeCount = s.freeCount := rfl

@[simp] theorem freshStream_build (s : State) (st : FsrState) :
    (freshStream s st).build = s.build := rfl
@[simp] theorem freshStream_wa (s : State) (st : FsrState) :
    (freshStream s st).wa = s.wa := rfl
@[simp] theorem freshStream_ws (s : State) (st : FsrState) :
    (freshStream s st).ws = s.ws := rfl
@[simp] theorem freshStream_lanes (s : State) (st : FsrState) :
    (freshStream s st).lanes = List.replicate s.build.cMax (Lane.resetFor s.build) := rfl
@[simp] theorem freshStream_frameBuf (s : State) (st : FsrState) :
    (freshStream s st).frameBuf = List.replicate s.build.cMax (List.replicate s.build.n 0x00000000#32) := rfl
@[simp] theorem freshStream_fifo (s : State) (st : FsrState) :
    (freshStream s st).fifo = s.fifo := rfl
@[simp] theorem freshStream_fsr (s : State) (st : FsrState) :
    (freshStream s st).fsr = { Fsr.reset with state := st } := rfl
@[simp] theorem freshStream_regs (s : State) (st : FsrState) :
    (freshStream s st).regs = { s.regs with result := 0 } := rfl
@[simp] theorem freshStream_err (s : State) (st : FsrState) :
    (freshStream s st).err = s.err := rfl
@[simp] theorem freshStream_shadows (s : State) (st : FsrState) :
    (freshStream s st).shadows = s.shadows := rfl
@[simp] theorem freshStream_schedule (s : State) (st : FsrState) :
    (freshStream s st).schedule = s.schedule := rfl
@[simp] theorem freshStream_response (s : State) (st : FsrState) :
    (freshStream s st).response = s.response := rfl
@[simp] theorem freshStream_freeCount (s : State) (st : FsrState) :
    (freshStream s st).freeCount = s.freeCount := rfl

@[simp] theorem abandonStream_build (s : State) :
    (abandonStream s).build = s.build := rfl
@[simp] theorem abandonStream_wa (s : State) :
    (abandonStream s).wa = s.wa := rfl
@[simp] theorem abandonStream_ws (s : State) :
    (abandonStream s).ws = s.ws := rfl
@[simp] theorem abandonStream_lanes (s : State) :
    (abandonStream s).lanes = List.replicate s.build.cMax (Lane.resetFor s.build) := rfl
@[simp] theorem abandonStream_frameBuf (s : State) :
    (abandonStream s).frameBuf = List.replicate s.build.cMax (List.replicate s.build.n 0x00000000#32) := rfl
@[simp] theorem abandonStream_fifo (s : State) :
    (abandonStream s).fifo = [] := rfl
@[simp] theorem abandonStream_fsr (s : State) :
    (abandonStream s).fsr = { Fsr.reset with state := .idle } := rfl
@[simp] theorem abandonStream_regs (s : State) :
    (abandonStream s).regs = { s.regs with result := 0 } := rfl
@[simp] theorem abandonStream_err (s : State) :
    (abandonStream s).err = s.err := rfl
@[simp] theorem abandonStream_shadows (s : State) :
    (abandonStream s).shadows = s.shadows := rfl
@[simp] theorem abandonStream_schedule (s : State) :
    (abandonStream s).schedule = s.schedule := rfl
@[simp] theorem abandonStream_response (s : State) :
    (abandonStream s).response = s.response := rfl
@[simp] theorem abandonStream_freeCount (s : State) :
    (abandonStream s).freeCount = s.freeCount := rfl

@[simp] theorem placeTransaction_build (t : Transaction) (s : State) :
    (placeTransaction t s).build = s.build := rfl
@[simp] theorem placeTransaction_wa (t : Transaction) (s : State) :
    (placeTransaction t s).wa = s.wa := rfl
@[simp] theorem placeTransaction_ws (t : Transaction) (s : State) :
    (placeTransaction t s).ws = s.ws := rfl
@[simp] theorem placeTransaction_lanes (t : Transaction) (s : State) :
    (placeTransaction t s).lanes = s.lanes := rfl
@[simp] theorem placeTransaction_frameBuf (t : Transaction) (s : State) :
    (placeTransaction t s).frameBuf = s.frameBuf := rfl
@[simp] theorem placeTransaction_fifo (t : Transaction) (s : State) :
    (placeTransaction t s).fifo = s.fifo := rfl
@[simp] theorem placeTransaction_fsr (t : Transaction) (s : State) :
    (placeTransaction t s).fsr = s.fsr := rfl
@[simp] theorem placeTransaction_regs (t : Transaction) (s : State) :
    (placeTransaction t s).regs = s.regs := rfl
@[simp] theorem placeTransaction_err (t : Transaction) (s : State) :
    (placeTransaction t s).err = s.err := rfl
@[simp] theorem placeTransaction_shadows (t : Transaction) (s : State) :
    (placeTransaction t s).shadows = s.shadows := rfl
@[simp] theorem placeTransaction_schedule (t : Transaction) (s : State) :
    (placeTransaction t s).schedule = .host t :: s.schedule := rfl
@[simp] theorem placeTransaction_response (t : Transaction) (s : State) :
    (placeTransaction t s).response = s.response := rfl
@[simp] theorem placeTransaction_freeCount (t : Transaction) (s : State) :
    (placeTransaction t s).freeCount = s.freeCount := rfl

@[simp] theorem storeSample_build (v : F32) (s : State) :
    (storeSample v s).build = s.build := rfl
@[simp] theorem storeSample_wa (v : F32) (s : State) :
    (storeSample v s).wa = s.wa := rfl
@[simp] theorem storeSample_ws (v : F32) (s : State) :
    (storeSample v s).ws = s.ws := rfl
@[simp] theorem storeSample_lanes (v : F32) (s : State) :
    (storeSample v s).lanes = s.lanes := rfl
@[simp] theorem storeSample_frameBuf (v : F32) (s : State) :
    (storeSample v s).frameBuf = s.frameBuf.modify s.fsr.chPtr.toNat fun row => row.set s.fsr.pos.toNat v := rfl
@[simp] theorem storeSample_fifo (v : F32) (s : State) :
    (storeSample v s).fifo = s.fifo := rfl
@[simp] theorem storeSample_fsr (v : F32) (s : State) :
    (storeSample v s).fsr = s.fsr := rfl
@[simp] theorem storeSample_regs (v : F32) (s : State) :
    (storeSample v s).regs = s.regs := rfl
@[simp] theorem storeSample_err (v : F32) (s : State) :
    (storeSample v s).err = s.err := rfl
@[simp] theorem storeSample_shadows (v : F32) (s : State) :
    (storeSample v s).shadows = s.shadows := rfl
@[simp] theorem storeSample_schedule (v : F32) (s : State) :
    (storeSample v s).schedule = s.schedule := rfl
@[simp] theorem storeSample_response (v : F32) (s : State) :
    (storeSample v s).response = s.response := rfl
@[simp] theorem storeSample_freeCount (v : F32) (s : State) :
    (storeSample v s).freeCount = s.freeCount := rfl

@[simp] theorem completeFrame_build (pos : Nat) (s : State) :
    (completeFrame pos s).build = s.build := rfl
@[simp] theorem completeFrame_wa (pos : Nat) (s : State) :
    (completeFrame pos s).wa = s.wa := rfl
@[simp] theorem completeFrame_ws (pos : Nat) (s : State) :
    (completeFrame pos s).ws = s.ws := rfl
@[simp] theorem completeFrame_lanes (pos : Nat) (s : State) :
    (completeFrame pos s).lanes = s.lanes := rfl
@[simp] theorem completeFrame_frameBuf (pos : Nat) (s : State) :
    (completeFrame pos s).frameBuf = zeroFill s pos := rfl
@[simp] theorem completeFrame_fifo (pos : Nat) (s : State) :
    (completeFrame pos s).fifo = s.fifo := rfl
@[simp] theorem completeFrame_fsr (pos : Nat) (s : State) :
    (completeFrame pos s).fsr = { s.fsr with pos := 0, state := .resampling } := rfl
@[simp] theorem completeFrame_regs (pos : Nat) (s : State) :
    (completeFrame pos s).regs = s.regs := rfl
@[simp] theorem completeFrame_err (pos : Nat) (s : State) :
    (completeFrame pos s).err = s.err := rfl
@[simp] theorem completeFrame_shadows (pos : Nat) (s : State) :
    (completeFrame pos s).shadows = s.shadows := rfl
@[simp] theorem completeFrame_schedule (pos : Nat) (s : State) :
    (completeFrame pos s).schedule = s.schedule := rfl
@[simp] theorem completeFrame_response (pos : Nat) (s : State) :
    (completeFrame pos s).response = s.response := rfl
@[simp] theorem completeFrame_freeCount (pos : Nat) (s : State) :
    (completeFrame pos s).freeCount = s.freeCount := rfl

@[simp] theorem frameStep_build (s : State) :
    (frameStep s).build = s.build := rfl
@[simp] theorem frameStep_wa (s : State) :
    (frameStep s).wa = s.wa := rfl
@[simp] theorem frameStep_ws (s : State) :
    (frameStep s).ws = s.ws := rfl
@[simp] theorem frameStep_lanes (s : State) :
    (frameStep s).lanes = (activeLanes s).map Prod.fst ++ s.lanes.drop s.regs.chCount.toNat := rfl
@[simp] theorem frameStep_frameBuf (s : State) :
    (frameStep s).frameBuf = s.frameBuf := rfl
@[simp] theorem frameStep_fifo (s : State) :
    (frameStep s).fifo = s.fifo ++ ((activeLanes s).mapIdx fun c r => groupsOf c (pushWidth s) r.2).flatten := rfl
@[simp] theorem frameStep_fsr (s : State) :
    (frameStep s).fsr = { s.fsr with
      outCount := s.fsr.outCount + BitVec.ofNat 64 (pushWidth s)
      frameIdx := s.fsr.frameIdx + 1
      state := nextState s } := rfl
@[simp] theorem frameStep_regs (s : State) :
    (frameStep s).regs = s.regs := rfl
@[simp] theorem frameStep_err (s : State) :
    (frameStep s).err = s.err := rfl
@[simp] theorem frameStep_shadows (s : State) :
    (frameStep s).shadows = s.shadows := rfl
@[simp] theorem frameStep_schedule (s : State) :
    (frameStep s).schedule = s.schedule := rfl
@[simp] theorem frameStep_response (s : State) :
    (frameStep s).response = s.response := rfl
@[simp] theorem frameStep_freeCount (s : State) :
    (frameStep s).freeCount = s.freeCount := rfl

end Sys2Proof.Machine
end

