-- ==== Sys2Proof/Laws/Ops.lean ====
section
/-! SUPPORT. What each shared operation can do, said once: the preambles, the rules of the writes, the core's
turn. -/

namespace Sys2Proof.Machine

/-- In FAULT a write is ignored. -/
theorem hostWrite_of_fault {addr : BitVec 8} {v : Word32} {s : State} {rule : State → Except ErrCode State}
    (h : s.fsr.state = .fault) : hostWrite addr v s rule = .next { s with response := none } := by
  simp [hostWrite, h]

/-- Outside FAULT an accepted write has its rule's effect. -/
theorem hostWrite_of_ok {addr : BitVec 8} {v : Word32} {s t : State} {rule : State → Except ErrCode State}
    (h : s.fsr.state ≠ .fault) (ht : rule s = .ok t) :
    hostWrite addr v s rule = .next { t with response := none } := by
  simp [hostWrite, h, ht, settleWrite]

/-- Outside FAULT a refused write enters FAULT. -/
theorem hostWrite_of_error {addr : BitVec 8} {v : Word32} {s : State} {code : ErrCode}
    {rule : State → Except ErrCode State} (h : s.fsr.state ≠ .fault) (hr : rule s = .error code) :
    hostWrite addr v s rule = .next (faulted code addr v s) := by
  simp [hostWrite, h, hr, settleWrite, enterFault, faulted]

/-- Everything a host write can answer. -/
theorem hostWrite_cases {addr : BitVec 8} {v : Word32} {s t : State} {rule : State → Except ErrCode State}
    (h : hostWrite addr v s rule = .next t) :
    (s.fsr.state = .fault ∧ t = { s with response := none })
      ∨ (s.fsr.state ≠ .fault ∧ ∃ u, rule s = .ok u ∧ t = { u with response := none })
      ∨ (s.fsr.state ≠ .fault ∧ ∃ code, rule s = .error code ∧ t = faulted code addr v s) := by
  by_cases hf : s.fsr.state = .fault
  · rw [hostWrite_of_fault hf] at h
    exact .inl ⟨hf, (Host.Outcome.next.inj h).symm⟩
  · cases hr : rule s with
    | ok u =>
      rw [hostWrite_of_ok hf hr] at h
      exact .inr (.inl ⟨hf, u, rfl, (Host.Outcome.next.inj h).symm⟩)
    | error code =>
      rw [hostWrite_of_error hf hr] at h
      exact .inr (.inr ⟨hf, code, rfl, (Host.Outcome.next.inj h).symm⟩)

/-- A host write always answers a next state. -/
theorem hostWrite_answers (addr : BitVec 8) (v : Word32) (s : State) (rule : State → Except ErrCode State) :
    ∃ t, hostWrite addr v s rule = .next t := by
  unfold hostWrite
  split <;> exact ⟨_, rfl⟩

/-- A read answers its word and changes nothing else. -/
@[simp] theorem hostRead_eq (w : Word32) (s : State) : hostRead w s = .next { s with response := some w } := rfl

/-- A free read answers the next free word, shaped. -/
@[simp] theorem hostReadFree_eq (shape : Word32 → Word32) (s : State) :
    hostReadFree shape s = .next
      { s with response := some (shape (Config.freeWord s.freeCount)), freeCount := s.freeCount + 1 } := rfl

/-- `betweenStreams` as a proposition. -/
theorem betweenStreams_iff {s : State} :
    betweenStreams s = true ↔ s.fsr.state = .idle ∨ s.fsr.state = .done := by
  simp [betweenStreams]

/-- `framePending` as a proposition. -/
theorem framePending_iff {s : State} :
    framePending s = true ↔ s.fsr.state = .resampling ∨ s.fsr.state = .draining := by
  simp [framePending]

/-- `frameEnabled` as a proposition (R295). -/
theorem frameEnabled_iff {s : State} :
    frameEnabled s = true ↔ (s.fsr.state = .resampling ∨ s.fsr.state = .draining) ∧ s.fifo = [] := by
  simp [frameEnabled, framePending_iff]

/-- Everything a core turn can do. -/
theorem coreTurn_cases (s : State) :
    ((s.fsr.state = .resampling ∨ s.fsr.state = .draining) ∧ s.fifo = [] ∧ coreTurn s = frameStep s)
      ∨ (¬((s.fsr.state = .resampling ∨ s.fsr.state = .draining) ∧ s.fifo = []) ∧ coreTurn s = s) := by
  by_cases h : frameEnabled s = true
  · exact .inl ⟨(frameEnabled_iff.1 h).1, (frameEnabled_iff.1 h).2, by simp [coreTurn, h]⟩
  · exact .inr ⟨fun hc => h (frameEnabled_iff.2 hc), by simp [coreTurn, h]⟩

/-- An accepted START: its checks held, and the stream is fresh. -/
theorem startStream_ok {s t : State} (h : startStream s = .ok t) :
    (s.fsr.state = .idle ∨ s.fsr.state = .done) ∧ s.fifo = [] ∧ 1 ≤ s.regs.chCount.toNat
      ∧ s.regs.chCount.toNat ≤ s.build.cMax ∧ s.build.l * durationOf s ≤ 2 ^ 64 - 1
      ∧ t = freshStream s (if s.regs.duration = 0 then .draining else .filling) := by
  unfold startStream at h
  split at h
  · cases h
  split at h
  · cases h
  split at h
  · cases h
  split at h
  · cases h
  rename_i h1 h2 h3 h4
  refine ⟨betweenStreams_iff.1 (by simpa using h1), by simpa using h2, ?_, ?_, by omega, (Except.ok.inj h).symm⟩
  all_goals
    simp only [Bool.or_eq_true, decide_eq_true_eq, not_or] at h3
    omega

/-- A configuration write that is accepted. -/
theorem configure_ok {s t : State} {regs : HostRegs} (h : configure s regs = .ok t) :
    (s.fsr.state = .idle ∨ s.fsr.state = .done) ∧ t = { s with regs := regs } := by
  unfold configure at h
  split at h
  · exact ⟨betweenStreams_iff.1 ‹_›, (Except.ok.inj h).symm⟩
  · cases h

/-- A sample that is accepted. -/
theorem pushSample_ok {v : Word32} {s t : State} (h : pushSample v s = .ok t) :
    s.fsr.state = .filling ∧ isFinite v = true ∧ t = acceptSample v s := by
  unfold pushSample at h
  split at h
  · cases h
  split at h
  · cases h
  rename_i h1 h2
  exact ⟨by simpa using h1, by simpa using h2, (Except.ok.inj h).symm⟩

/-- An accepted NS_STEP. -/
theorem testStep_ok {ch : BitVec 8} {s t : State} (h : testStep ch s = .ok t) :
    ch.toNat < s.build.cMax ∧ (s.fsr.state = .idle ∨ s.fsr.state = .done) ∧ isFinite s.regs.data0 = true
      ∧ t = { setLane s ch.toNat (nsStep (laneAt s ch.toNat) s.regs.data0).1 with
              regs := { s.regs with
                result := 0x80000000#32 ||| bitWord (nsStep (laneAt s ch.toNat) s.regs.data0).2 } } := by
  unfold testStep at h
  split at h
  · cases h
  split at h
  · cases h
  split at h
  · cases h
  rename_i h1 h2 h3
  exact ⟨by omega, betweenStreams_iff.1 (by simpa using h2), by simpa using h3, (Except.ok.inj h).symm⟩

/-- An accepted NS_LOAD. -/
theorem testLoad_ok {ch : BitVec 8} {s t : State} (h : testLoad ch s = .ok t) :
    ch.toNat < s.build.cMax ∧ (s.fsr.state = .idle ∨ s.fsr.state = .done) ∧ isFinite s.regs.data1 = true
      ∧ isFinite s.regs.data2 = true
      ∧ t = setLane s ch.toNat
          { laneAt s ch.toNat with
            z := loadedDecision s.regs.data0, z1 := s.regs.data1, z2 := s.regs.data2 } := by
  unfold testLoad at h
  split at h
  · cases h
  split at h
  · cases h
  split at h
  · cases h
  rename_i h1 h2 h3
  simp only [Bool.or_eq_true, Bool.not_eq_true', not_or, Bool.not_eq_false] at h3
  exact ⟨by omega, betweenStreams_iff.1 (by simpa using h2), h3.1, h3.2, (Except.ok.inj h).symm⟩

/-- Everything the acceptance of a sample can do (R293). -/
theorem acceptSample_cases (v : F32) (s : State) :
    (s.fsr.chPtr.toNat + 1 < s.regs.chCount.toNat
        ∧ acceptSample v s = { storeSample v s with fsr := { s.fsr with chPtr := s.fsr.chPtr + 1 } })
      ∨ (s.regs.chCount.toNat ≤ s.fsr.chPtr.toNat + 1
        ∧ s.fsr.pos.toNat + 1 ≠ s.build.n ∧ s.fsr.inCount + 1 ≠ s.regs.duration
        ∧ acceptSample v s =
            { storeSample v s with
              fsr := { s.fsr with
                chPtr := 0, pos := BitVec.ofNat 24 (s.fsr.pos.toNat + 1), inCount := s.fsr.inCount + 1 } })
      ∨ (s.regs.chCount.toNat ≤ s.fsr.chPtr.toNat + 1
        ∧ (s.fsr.pos.toNat + 1 = s.build.n ∨ s.fsr.inCount + 1 = s.regs.duration)
        ∧ acceptSample v s =
            { storeSample v s with
              frameBuf := zeroFill (storeSample v s) (s.fsr.pos.toNat + 1)
              fsr := { s.fsr with chPtr := 0, pos := 0, inCount := s.fsr.inCount + 1, state := .resampling } }) := by
  by_cases h : s.fsr.chPtr.toNat + 1 < s.regs.chCount.toNat
  · exact .inl ⟨h, by simp [acceptSample, h, storeSample]⟩
  · by_cases hf : s.fsr.pos.toNat + 1 = s.build.n ∨ s.fsr.inCount + 1 = s.regs.duration
    · exact .inr (.inr ⟨by omega, hf, (if_neg h).trans (if_pos hf)⟩)
    · have hn : ¬s.fsr.pos.toNat + 1 = s.build.n ∧ ¬s.fsr.inCount + 1 = s.regs.duration := not_or.1 hf
      exact .inr (.inl ⟨by omega, hn.1, hn.2, (if_neg h).trans (if_neg hf)⟩)

end Sys2Proof.Machine
end

