-- ==== Sys2Proof/Laws/Exec.lean ====
section
/-! SUPPORT. Each host write as the write preamble over its own rule, and a CMD write as the command it carries. -/

namespace Sys2Proof.Machine

theorem exec_nop (s : State) :
    exec .nop s = hostWrite 0x10 (encodeCommand .nop) s .ok := rfl

theorem exec_start (s : State) :
    exec .start s = hostWrite 0x10 (encodeCommand .start) s startStream := rfl

theorem exec_abort (s : State) :
    exec .abort s = hostWrite 0x10 (encodeCommand .abort) s (fun s => .ok (abandonStream s)) := rfl

theorem exec_nsStep (ch : BitVec 8) (s : State) :
    exec (.nsStep ch) s = hostWrite 0x10 (encodeCommand (.nsStep ch)) s (testStep ch) := rfl

theorem exec_nsLoad (ch : BitVec 8) (s : State) :
    exec (.nsLoad ch) s = hostWrite 0x10 (encodeCommand (.nsLoad ch)) s (testLoad ch) := rfl

theorem exec_wrIrqEn (v : Word32) (s : State) :
    exec (.wrIrqEn v) s = hostWrite 0x20 v s (fun s => .ok { s with regs := { s.regs with irqEn := v.extractLsb' 0 4 } }) := rfl

theorem exec_wrChCount (v : Word32) (s : State) :
    exec (.wrChCount v) s = hostWrite 0x24 v s (fun s => configure s { s.regs with chCount := v.extractLsb' 0 8 }) := rfl

theorem exec_wrDurationLo (v : Word32) (s : State) :
    exec (.wrDurationLo v) s = hostWrite 0x28 v s (fun s => configure s { s.regs with duration := withLow s.regs.duration v }) := rfl

theorem exec_wrDurationHi (v : Word32) (s : State) :
    exec (.wrDurationHi v) s = hostWrite 0x2C v s (fun s => configure s { s.regs with duration := withHigh s.regs.duration v }) := rfl

theorem exec_wrSampleIn (v : Word32) (s : State) :
    exec (.wrSampleIn v) s = hostWrite 0x30 v s (pushSample v) := rfl

theorem exec_wrChSel (v : Word32) (s : State) :
    exec (.wrChSel v) s = hostWrite 0x58 v s (fun s => .ok { s with regs := { s.regs with chSel := v.extractLsb' 0 8 } }) := rfl

theorem exec_wrData0 (v : Word32) (s : State) :
    exec (.wrData0 v) s = hostWrite 0x68 v s (fun s => .ok { s with regs := { s.regs with data0 := v } }) := rfl

theorem exec_wrData1 (v : Word32) (s : State) :
    exec (.wrData1 v) s = hostWrite 0x6C v s (fun s => .ok { s with regs := { s.regs with data1 := v } }) := rfl

theorem exec_wrData2 (v : Word32) (s : State) :
    exec (.wrData2 v) s = hostWrite 0x70 v s (fun s => .ok { s with regs := { s.regs with data2 := v } }) := rfl

theorem exec_srst (s : State) : exec .srst s = .next { resetBlock s with response := none } := rfl

/-- A CMD write of a command's word is the command (R161). -/
theorem exec_wrCmd_of_some {v : Word32} {s : State} {c : Command} (h : decodeCommand s.build.cMax v = some c) :
    exec (.wrCmd v) s = exec c.toInstr s := by
  show execWrCmd v s = _
  unfold execWrCmd
  rw [h]
  cases c <;> rfl

/-- A CMD write of any other word is illegal (R126). -/
theorem exec_wrCmd_of_none {v : Word32} {s : State} (h : decodeCommand s.build.cMax v = none) :
    exec (.wrCmd v) s = hostWrite 0x10 v s (fun _ => .error .illegalCmd) := by
  show execWrCmd v s = _
  unfold execWrCmd
  rw [h]
  rfl

end Sys2Proof.Machine
end

