-- ==== Sys2Proof/Laws/Lists.lean ====
section
/-! SUPPORT. Lengths and elements of what the frame step builds. -/

namespace Sys2Proof.Machine

theorem tabulate_length {α : Type} (n : Nat) (f : Nat → α) : (tabulate n f).length = n := by simp

theorem tabulate_getElem? {α : Type} (n : Nat) (f : Nat → α) (i : Nat) :
    (tabulate n f)[i]? = if i < n then some (f i) else none := by
  by_cases h : i < n <;> simp [h]

/-- A tabulation over the elements of two lists of one length is a zip. -/
theorem tabulate_getD_zipWith {α β γ : Type} (f : α → β → γ) (d : α) (e : β) :
    ∀ (n : Nat) (xs : List α) (ys : List β), xs.length = n → ys.length = n →
      tabulate n (fun i => f (xs.getD i d) (ys.getD i e)) = List.zipWith f xs ys := by
  intro n xs ys hx hy
  apply List.ext_getElem?
  intro i
  rw [tabulate_getElem?]
  by_cases h : i < n
  · have h1 : i < xs.length := by omega
    have h2 : i < ys.length := by omega
    simp [h, h1, h2]
  · have h1 : xs[i]? = none := by simp; omega
    simp [h, List.getElem?_zipWith, h1]

/-- NSStep changes only the three shaper registers. -/
theorem nsStep_keeps (l : Lane) (x : F32) :
    (nsStep l x).1.inbuf = l.inbuf ∧ (nsStep l x).1.tail = l.tail := ⟨rfl, rfl⟩

/-- A run of NSStep changes only the three shaper registers. -/
theorem nsRun_keeps (l : Lane) (xs : List F32) :
    (nsRun l xs).1.inbuf = l.inbuf ∧ (nsRun l xs).1.tail = l.tail := by
  induction xs generalizing l with
  | nil => exact ⟨rfl, rfl⟩
  | cons x xs ih => exact ih (nsStep l x).1

/-- A run makes one bit for each sample. -/
theorem nsRun_length (l : Lane) (xs : List F32) : (nsRun l xs).2.length = xs.length := by
  induction xs generalizing l with
  | nil => rfl
  | cons x xs ih => simp [nsRun, ih]

/-- A run over two stretches is one run after the other. -/
theorem nsRun_append (l : Lane) (xs ys : List F32) :
    nsRun l (xs ++ ys) = ((nsRun (nsRun l xs).1 ys).1, (nsRun l xs).2 ++ (nsRun (nsRun l xs).1 ys).2) := by
  induction xs generalizing l with
  | nil => rfl
  | cons x xs ih => simp [nsRun, ih]

theorem prfFn_length (b : Build) (inbuf : List F32) : (prfFn b inbuf).length = 2 * b.nl := by
  unfold prfFn
  split <;> simp

theorem prfCall_inbuf_length (b : Build) (wa : List F32) (l : Lane) (x : List F32) :
    (prfCall b wa l x).1.inbuf.length = 2 * b.n := by
  simp [prfCall, writeFirstHalf]
  omega

theorem olaCall_length (b : Build) (ws : List F32) (l : Lane) (y : List F32) :
    (olaCall b ws l y).2.length = b.nl ∧ (olaCall b ws l y).1.tail.length = b.nl := by
  simp [olaCall, olaOutput, olaTail]

/-- One lane's frame: as many bits as output samples, and buffers of their sizes. -/
theorem laneFrame_shape (b : Build) (wa ws : List F32) (l : Lane) (x : List F32) :
    (laneFrame b wa ws l x).2.length = b.nl ∧ (laneFrame b wa ws l x).1.inbuf.length = 2 * b.n
      ∧ (laneFrame b wa ws l x).1.tail.length = b.nl := by
  have h1 := nsRun_keeps (olaCall b ws (prfCall b wa l x).1 (prfCall b wa l x).2).1
    (olaCall b ws (prfCall b wa l x).1 (prfCall b wa l x).2).2
  have h2 := olaCall_length b ws (prfCall b wa l x).1 (prfCall b wa l x).2
  refine ⟨(nsRun_length _ _).trans h2.1, ?_, ?_⟩
  · exact (congrArg List.length h1.1).trans (prfCall_inbuf_length b wa l x)
  · exact (congrArg List.length h1.2).trans h2.2

theorem activeLanes_length (s : State) : (activeLanes s).length = s.regs.chCount.toNat := by
  simp [activeLanes]

theorem activeLanes_getElem? (s : State) (c : Nat) :
    (activeLanes s)[c]? = if c < s.regs.chCount.toNat
      then some (laneFrame s.build s.wa s.ws (laneAt s c) (frameInput s c)) else none :=
  tabulate_getElem? _ _ c

theorem groupsOf_length (c w : Nat) (bits : List Bool) : (groupsOf c w bits).length = ceilDiv w 8 := by
  simp [groupsOf]

/-- W never exceeds one frame. -/
theorem pushWidth_le (s : State) : pushWidth s ≤ s.build.nl := by
  unfold pushWidth
  split <;> omega

end Sys2Proof.Machine
end

