-- ==== Sys2Proof/Laws/PerInstr.lean ====
section
/-! SUPPORT. Facts about every instruction as syntax, one lemma for each constructor of Instr. -/

namespace Sys2Proof.Laws.WellAddressed

open Sys2Proof

/-- The transaction that carries an instruction names a register, in the direction the register allows
(R81, R127), and decodes to a row: the instruction's own, or WR_CMD for a command (R128). -/
def Statement (i : Instr) : Prop :=
  (transactionOf i).onMap = true
    ∧ (decodeBus (transactionOf i) = some i ∨ decodeBus (transactionOf i) = some (.wrCmd (transactionOf i).data))

theorem nop : Statement .nop := ⟨rfl, .inr rfl⟩
theorem srst : Statement .srst := ⟨rfl, .inr rfl⟩
theorem start : Statement .start := ⟨rfl, .inr rfl⟩
theorem abort : Statement .abort := ⟨rfl, .inr rfl⟩
theorem nsStep (ch : BitVec 8) : Statement (.nsStep ch) := ⟨rfl, .inr rfl⟩
theorem nsLoad (ch : BitVec 8) : Statement (.nsLoad ch) := ⟨rfl, .inr rfl⟩
theorem rdId : Statement .rdId := ⟨rfl, .inl rfl⟩
theorem rdParamN : Statement .rdParamN := ⟨rfl, .inl rfl⟩
theorem rdParamL : Statement .rdParamL := ⟨rfl, .inl rfl⟩
theorem rdParamC : Statement .rdParamC := ⟨rfl, .inl rfl⟩
theorem wrCmd (v : Word32) : Statement (.wrCmd v) := ⟨rfl, .inl rfl⟩
theorem rdStatus : Statement .rdStatus := ⟨rfl, .inl rfl⟩
theorem rdErrAddr : Statement .rdErrAddr := ⟨rfl, .inl rfl⟩
theorem rdErrData : Statement .rdErrData := ⟨rfl, .inl rfl⟩
theorem wrIrqEn (v : Word32) : Statement (.wrIrqEn v) := ⟨rfl, .inl rfl⟩
theorem rdIrqEn : Statement .rdIrqEn := ⟨rfl, .inl rfl⟩
theorem wrChCount (v : Word32) : Statement (.wrChCount v) := ⟨rfl, .inl rfl⟩
theorem rdChCount : Statement .rdChCount := ⟨rfl, .inl rfl⟩
theorem wrDurationLo (v : Word32) : Statement (.wrDurationLo v) := ⟨rfl, .inl rfl⟩
theorem rdDurationLo : Statement .rdDurationLo := ⟨rfl, .inl rfl⟩
theorem wrDurationHi (v : Word32) : Statement (.wrDurationHi v) := ⟨rfl, .inl rfl⟩
theorem rdDurationHi : Statement .rdDurationHi := ⟨rfl, .inl rfl⟩
theorem wrSampleIn (v : Word32) : Statement (.wrSampleIn v) := ⟨rfl, .inl rfl⟩
theorem rdBitsOut : Statement .rdBitsOut := ⟨rfl, .inl rfl⟩
theorem rdOutLevel : Statement .rdOutLevel := ⟨rfl, .inl rfl⟩
theorem rdFillPos : Statement .rdFillPos := ⟨rfl, .inl rfl⟩
theorem rdFrameIdxLo : Statement .rdFrameIdxLo := ⟨rfl, .inl rfl⟩
theorem rdFrameIdxHi : Statement .rdFrameIdxHi := ⟨rfl, .inl rfl⟩
theorem rdInCountLo : Statement .rdInCountLo := ⟨rfl, .inl rfl⟩
theorem rdInCountHi : Statement .rdInCountHi := ⟨rfl, .inl rfl⟩
theorem rdOutCountLo : Statement .rdOutCountLo := ⟨rfl, .inl rfl⟩
theorem rdOutCountHi : Statement .rdOutCountHi := ⟨rfl, .inl rfl⟩
theorem wrChSel (v : Word32) : Statement (.wrChSel v) := ⟨rfl, .inl rfl⟩
theorem rdChSel : Statement .rdChSel := ⟨rfl, .inl rfl⟩
theorem rdDbgZ : Statement .rdDbgZ := ⟨rfl, .inl rfl⟩
theorem rdDbgZ1 : Statement .rdDbgZ1 := ⟨rfl, .inl rfl⟩
theorem rdDbgZ2 : Statement .rdDbgZ2 := ⟨rfl, .inl rfl⟩
theorem wrData0 (v : Word32) : Statement (.wrData0 v) := ⟨rfl, .inl rfl⟩
theorem rdData0 : Statement .rdData0 := ⟨rfl, .inl rfl⟩
theorem wrData1 (v : Word32) : Statement (.wrData1 v) := ⟨rfl, .inl rfl⟩
theorem rdData1 : Statement .rdData1 := ⟨rfl, .inl rfl⟩
theorem wrData2 (v : Word32) : Statement (.wrData2 v) := ⟨rfl, .inl rfl⟩
theorem rdData2 : Statement .rdData2 := ⟨rfl, .inl rfl⟩
theorem rdResult : Statement .rdResult := ⟨rfl, .inl rfl⟩

end Sys2Proof.Laws.WellAddressed
end

