-- ==== Sys2Proof/Laws/RootsOfUnity.lean ====
section
/-! SUPPORT. Roots of unity: a nonzero integer polynomial value at a primitive root is not small, and
the zero test of Machine/Resampler.lean finds every zero. -/

open Polynomial

namespace Sys2Proof.Machine

/-- `root_value_gap` in a field of the P-th roots of unity. -/
theorem root_value_gap_of (K : Type) [Field K] [NumberField K] {P : ℕ} [NeZero P] [IsCyclotomicExtension {P} ℚ K]
    (f : ℤ[X]) {B : ℝ} (hB1 : 1 ≤ B) (hB : ∀ z : ℂ, z ^ P = 1 → ‖aeval z f‖ ≤ B) {ζ : ℂ}
    (hζ : IsPrimitiveRoot ζ P) (hne : aeval ζ f ≠ 0) : 1 ≤ ‖aeval ζ f‖ * B ^ P := by
  classical
  have hP : 0 < P := NeZero.pos P
  have hμ : IsPrimitiveRoot (IsCyclotomicExtension.zeta P ℚ K) P := IsCyclotomicExtension.zeta_spec P ℚ K
  set μ := IsCyclotomicExtension.zeta P ℚ K
  let e := hμ.embeddingsEquivPrimitiveRoots ℂ (cyclotomic.irreducible_rat hP)
  set x : K := aeval μ f with hx
  have hσ : ∀ σ : K →ₐ[ℚ] ℂ, σ x = aeval (σ μ) f := fun σ => by
    rw [hx]
    exact (aeval_algHom_apply (σ.restrictScalars ℤ) μ f).symm
  have hroot : ∀ σ : K →ₐ[ℚ] ℂ, (σ μ) ^ P = 1 := fun σ => by
    rw [← map_pow, hμ.pow_eq_one, map_one]
  obtain ⟨σ0, hσ0⟩ : ∃ σ0 : K →ₐ[ℚ] ℂ, σ0 μ = ζ := by
    refine ⟨e.symm ⟨ζ, (mem_primitiveRoots hP).2 hζ⟩, ?_⟩
    have := hμ.embeddingsEquivPrimitiveRoots_apply_coe ℂ (cyclotomic.irreducible_rat hP)
      (e.symm ⟨ζ, (mem_primitiveRoots hP).2 hζ⟩)
    rw [← this]
    exact congrArg Subtype.val (e.apply_symm_apply _)
  have hx0 : x ≠ 0 := fun h => hne (by rw [← hσ0, ← hσ, h, map_zero])
  have hxi : IsIntegral ℤ x := by
    have hμi : IsIntegral ℤ μ := hμ.isIntegral hP
    exact adjoin_le_integralClosure hμi (aeval_mem_adjoin_singleton ℤ μ)
  have hni : IsIntegral ℤ (Algebra.norm ℚ x) := Algebra.isIntegral_norm ℚ hxi
  obtain ⟨n, hn⟩ := IsIntegrallyClosed.isIntegral_iff.1 hni
  have hn0 : n ≠ 0 := by
    rintro rfl
    rw [map_zero] at hn
    exact hx0 (Algebra.norm_eq_zero_iff.1 hn.symm)
  have hprod := Algebra.norm_eq_prod_embeddings ℚ ℂ x
  have hnorm : (1 : ℝ) ≤ ∏ σ : K →ₐ[ℚ] ℂ, ‖σ x‖ := by
    rw [← norm_prod, ← hprod, ← hn]
    have : (1 : ℝ) ≤ |(n : ℝ)| := by exact_mod_cast Int.one_le_abs hn0
    simpa using this
  refine hnorm.trans ?_
  rw [← Finset.mul_prod_erase Finset.univ _ (Finset.mem_univ σ0), hσ, hσ0]
  refine mul_le_mul_of_nonneg_left ?_ (norm_nonneg _)
  have hcard : (Finset.univ.erase σ0 : Finset (K →ₐ[ℚ] ℂ)).card ≤ P := by
    refine (Finset.card_le_card (Finset.erase_subset _ _)).trans ?_
    rw [Finset.card_univ, Fintype.card_congr e, Fintype.card_coe, Complex.card_primitiveRoots]
    exact Nat.totient_le P
  refine (Finset.prod_le_prod (fun _ _ => norm_nonneg _) (fun σ _ => ?_)).trans
    ((Finset.prod_const B).trans_le (pow_le_pow_right₀ hB1 hcard))
  rw [hσ]
  exact hB _ (hroot σ)

/-- A nonzero integer polynomial value at a primitive P-th root of unity is not small: if B bounds the values
at every P-th root of unity, it is at least B^-P. -/
theorem root_value_gap {P : ℕ} (hP : 0 < P) (f : ℤ[X]) {B : ℝ} (hB1 : 1 ≤ B)
    (hB : ∀ z : ℂ, z ^ P = 1 → ‖aeval z f‖ ≤ B) {ζ : ℂ} (hζ : IsPrimitiveRoot ζ P) (hne : aeval ζ f ≠ 0) :
    1 ≤ ‖aeval ζ f‖ * B ^ P := by
  have : NeZero P := ⟨hP.ne'⟩
  have : NeZero (P : ℚ) := ⟨by exact_mod_cast hP.ne'⟩
  have : IsCyclotomicExtension {P} ℚ (CyclotomicField P ℚ) := CyclotomicField.isCyclotomicExtension P ℚ
  have : NumberField (CyclotomicField P ℚ) := IsCyclotomicExtension.numberField {P} ℚ _
  exact root_value_gap_of (CyclotomicField P ℚ) f hB1 hB hζ hne

/-- The value of the polynomial with coefficients f at z. -/
noncomputable def coeffEval (f : Coeffs) (z : ℂ) : ℂ := ∑ j ∈ Finset.range f.length, (f.getD j 0 : ℂ) * z ^ j

theorem timesOneMinus_length (f : Coeffs) (k : ℕ) : (timesOneMinus f k).length = f.length := by simp [timesOneMinus]

theorem tabulate_getD {α : Type} (n : ℕ) (f : ℕ → α) (d : α) {j : ℕ} (hj : j < n) : (tabulate n f).getD j d = f j := by
  simp [List.getD_eq_getElem?_getD, hj]

theorem timesOneMinus_eval (f : Coeffs) {k : ℕ} (hk : k ≤ f.length) {z : ℂ} (hz : z ^ f.length = 1) :
    coeffEval (timesOneMinus f k) z = coeffEval f z * (1 - z ^ k) := by
  have e : ∀ j ∈ Finset.range f.length, (((timesOneMinus f k).getD j 0 : ℤ) : ℂ) * z ^ j
      = (f.getD j 0 : ℂ) * z ^ j - (f.getD ((j + f.length - k) % f.length) 0 : ℂ) * z ^ j := by
    intro j hj
    rw [timesOneMinus, tabulate_getD _ _ _ (Finset.mem_range.1 hj)]
    push_cast; ring
  unfold coeffEval
  rw [timesOneMinus_length, Finset.sum_congr rfl e, Finset.sum_sub_distrib, mul_sub, mul_one]
  congr 1
  obtain ⟨r, hr⟩ : ∃ r, f.length = k + r := ⟨f.length - k, by omega⟩
  have h1 : ∑ j ∈ Finset.range f.length, (f.getD ((j + f.length - k) % f.length) 0 : ℂ) * z ^ j
      = ∑ j ∈ Finset.range k, (f.getD (r + j) 0 : ℂ) * z ^ j
        + ∑ j ∈ Finset.range r, (f.getD j 0 : ℂ) * z ^ (k + j) := by
    nth_rewrite 1 [hr]
    rw [Finset.sum_range_add]
    congr 1
    · refine Finset.sum_congr rfl fun j hj => ?_
      have := Finset.mem_range.1 hj
      rw [show (j + f.length - k) = r + j by omega, Nat.mod_eq_of_lt (by omega)]
    · refine Finset.sum_congr rfl fun j hj => ?_
      have := Finset.mem_range.1 hj
      rw [show (k + j + f.length - k) = j + f.length by omega, Nat.add_mod_right, Nat.mod_eq_of_lt (by omega)]
  have h2 : ∑ j ∈ Finset.range f.length, (f.getD j 0 : ℂ) * z ^ j
      = ∑ j ∈ Finset.range r, (f.getD j 0 : ℂ) * z ^ j + ∑ j ∈ Finset.range k, (f.getD (r + j) 0 : ℂ) * z ^ (r + j) := by
    rw [show f.length = r + k by omega, Finset.sum_range_add]
  rw [h1, h2, add_mul, Finset.sum_mul, Finset.sum_mul, add_comm]
  congr 1
  · refine Finset.sum_congr rfl fun j _ => ?_
    rw [pow_add]; ring
  · refine Finset.sum_congr rfl fun j _ => ?_
    rw [mul_assoc, ← pow_add, show r + j + k = f.length + j by omega, pow_add, hz, one_mul]

theorem timesOneMinus_foldl (ds : List ℕ) : ∀ f : Coeffs,
    (ds.foldl (fun g d => timesOneMinus g (f.length / d)) f).length = f.length
      ∧ ∀ z : ℂ, z ^ f.length = 1 →
        coeffEval (ds.foldl (fun g d => timesOneMinus g (f.length / d)) f) z
          = coeffEval f z * (ds.map fun d => 1 - z ^ (f.length / d)).prod := by
  have key : ∀ (P : ℕ) (ds : List ℕ) (f : Coeffs), f.length = P →
      (ds.foldl (fun g d => timesOneMinus g (P / d)) f).length = P
      ∧ ∀ z : ℂ, z ^ P = 1 →
        coeffEval (ds.foldl (fun g d => timesOneMinus g (P / d)) f) z
          = coeffEval f z * (ds.map fun d => 1 - z ^ (P / d)).prod := by
    intro P ds
    induction ds with
    | nil => intro f hf; exact ⟨hf, fun z _ => by simp⟩
    | cons d ds ih =>
      intro f hf
      obtain ⟨h1, h2⟩ := ih (timesOneMinus f (P / d)) (by rw [timesOneMinus_length, hf])
      refine ⟨h1, fun z hz => ?_⟩
      rw [List.foldl_cons, h2 z hz, timesOneMinus_eval f (by rw [hf]; exact Nat.div_le_self _ _)
        (by rw [hf]; exact hz)]
      rw [List.map_cons, List.prod_cons, mul_assoc]
  exact fun f => key f.length ds f rfl

/-- Coefficients whose polynomial vanishes at every root of unity of their number are zero. -/
theorem coeffs_zero {f : Coeffs} (hP : 0 < f.length) (h : ∀ z : ℂ, z ^ f.length = 1 → coeffEval f z = 0) :
    ∀ v ∈ f, v = 0 := by
  have : NeZero f.length := ⟨hP.ne'⟩
  let G : ℂ[X] := ∑ j ∈ Finset.range f.length, C (f.getD j 0 : ℂ) * X ^ j
  have hdeg : G.degree < f.length := by
    refine (degree_sum_le _ _).trans_lt ?_
    rw [Finset.sup_lt_iff (WithBot.bot_lt_coe _)]
    intro j hj
    exact (degree_C_mul_X_pow_le _ _).trans_lt (by exact_mod_cast Finset.mem_range.1 hj)
  have hζ := Complex.isPrimitiveRoot_exp f.length hP.ne'
  have hG : G = 0 := by
    refine eq_zero_of_degree_lt_of_eval_finset_eq_zero (nthRootsFinset f.length (1 : ℂ)) ?_ fun z hz => ?_
    · rwa [hζ.card_nthRootsFinset]
    · have := h z ((mem_nthRootsFinset hP (1 : ℂ)).1 hz)
      simpa [G, coeffEval, eval_finsetSum] using this
  intro v hv
  obtain ⟨j, hj, rfl⟩ := List.mem_iff_getElem.1 hv
  have hc : G.coeff j = 0 := by rw [hG, coeff_zero]
  simp only [G, finsetSum_coeff, coeff_C_mul, coeff_X_pow, mul_ite, mul_one, mul_zero] at hc
  rw [Finset.sum_ite_eq, if_pos (Finset.mem_range.2 hj)] at hc
  have h3 : f.getD j 0 = f[j] := by simp [List.getD_eq_getElem?_getD, hj]
  rw [h3] at hc
  exact_mod_cast hc

/-- The test of `vanishesAtRoot` is complete: a polynomial that vanishes at a primitive root passes it. -/
theorem vanishesAtRoot_of_eval {f : Coeffs} (hP : 0 < f.length) {ζ : ℂ} (hζ : IsPrimitiveRoot ζ f.length)
    (h : coeffEval f ζ = 0) : vanishesAtRoot f = true := by
  unfold vanishesAtRoot
  obtain ⟨hl, he⟩ := timesOneMinus_foldl ((List.range (f.length + 1)).filter fun d => 1 < d && f.length % d == 0) f
  rw [List.all_eq_true]
  intro v hv
  rw [beq_iff_eq]
  refine coeffs_zero (by rw [hl]; exact hP) (fun z hz => ?_) v hv
  rw [hl] at hz
  rw [he z hz]
  have hpos : 0 < orderOf z := by
    rw [orderOf_pos_iff, isOfFinOrder_iff_pow_eq_one]
    exact ⟨_, hP, hz⟩
  obtain ⟨d, hd⟩ := orderOf_dvd_of_pow_eq_one hz
  by_cases h1 : d = 1
  · rw [h1, mul_one] at hd
    have hzp : IsPrimitiveRoot z f.length := hd ▸ IsPrimitiveRoot.orderOf z
    let p : ℤ[X] := ∑ j ∈ Finset.range f.length, C (f.getD j 0) * X ^ j
    have hp : ∀ w : ℂ, aeval w p = coeffEval f w := by
      intro w; simp [p, coeffEval, map_sum]
    have hdvd : minpoly ℤ ζ ∣ p := minpoly.isIntegrallyClosed_dvd (hζ.isIntegral hP) (by rw [hp, h])
    rw [← cyclotomic_eq_minpoly hζ hP] at hdvd
    have hz0 : aeval z (cyclotomic f.length ℤ) = 0 := by
      rw [cyclotomic_eq_minpoly hzp hP]; exact minpoly.aeval _ _
    obtain ⟨q, hq⟩ := hdvd
    rw [← hp, hq, map_mul, hz0, zero_mul, zero_mul]
  · have hmem : d ∈ (List.range (f.length + 1)).filter fun d => 1 < d && f.length % d == 0 := by
      have hd0 : d ≠ 0 := by rintro rfl; omega
      have hdP : d ≤ f.length := Nat.le_of_dvd hP ⟨orderOf z, by rw [hd, mul_comm]⟩
      rw [List.mem_filter]
      refine ⟨List.mem_range.2 (by omega), ?_⟩
      have : f.length % d = 0 := Nat.mod_eq_zero_of_dvd ⟨orderOf z, by rw [hd, mul_comm]⟩
      simp [this]; omega
    rw [List.prod_eq_zero (List.mem_map.2 ⟨d, hmem, ?_⟩), mul_zero]
    have : f.length / d = orderOf z := by
      rw [hd]; exact Nat.mul_div_cancel _ (by
        rcases Nat.eq_zero_or_pos d with h0 | h0
        · rw [h0, mul_zero] at hd; omega
        · exact h0)
    rw [this, pow_orderOf_eq_one, sub_self]

end Sys2Proof.Machine
end

