-- ==== Sys2Proof/Laws/Rounding.lean ====
section
/-! SUPPORT. Where two quotients round to one word, and when an interval settles. -/

namespace Sys2Proof.Machine

/-- The magnitude whose rounding `roundRatio` takes: the quotient and its last bit. -/
def ratioMagnitude (num den : ℕ) : ℕ :=
  2 * (num * 2 ^ 151 / den) + if num * 2 ^ 151 % den = 0 then 0 else 1

theorem dropBits_congr {m n : ℕ} (h : m / 4 = n / 4) : dropBits m 3 = dropBits n 3 := by
  have e : ∀ k : ℕ, dropBits k 3 = max 3 ((k / 4).log2 + 2 - 23) := by
    intro k
    unfold dropBits
    have h4 : (k / 4).log2 = k.log2 - 1 - 1 := by
      rw [show k / 4 = k / 2 / 2 by omega, Nat.log2_eq_log_two, Nat.log2_eq_log_two, Nat.log_div_base, Nat.log_div_base]
    rw [h4]
    omega
  rw [e, e, h]

theorem roundShift_congr {m n d : ℕ} (h : m / 4 = n / 4) (hm : m % 4 ≠ 0) (hn : n % 4 ≠ 0) (hd : 3 ≤ d) :
    roundShift m d = roundShift n d := by
  obtain ⟨e, rfl⟩ : ∃ e, d = e + 3 := ⟨d - 3, by omega⟩
  have hp : 2 ^ (e + 3) = 4 * (2 * 2 ^ e) := by rw [pow_add]; ring
  have hq : ∀ k : ℕ, k / 2 ^ (e + 3) = k / 4 / (2 * 2 ^ e) := by
    intro k; rw [hp, Nat.div_div_eq_div_mul]
  have hr : ∀ k : ℕ, k % 2 ^ (e + 3) = 4 * (k / 4 % (2 * 2 ^ e)) + k % 4 := by
    intro k; rw [hp, Nat.mod_mul]; omega
  unfold roundShift
  simp only [hq, hr, h]
  have h4 : m % 4 < 4 ∧ n % 4 < 4 := by omega
  rw [hp]
  generalize n / 4 % (2 * 2 ^ e) = a
  generalize n / 4 / (2 * 2 ^ e) = b
  generalize 2 ^ e = p
  split <;> split <;> (try split) <;> (try split) <;> omega

theorem roundedBits_congr {m n : ℕ} (h : m / 4 = n / 4) (hm : m % 4 ≠ 0) (hn : n % 4 ≠ 0) :
    roundedBits m 3 = roundedBits n 3 := by
  unfold roundedBits
  rw [dropBits_congr h]
  simp only []
  rw [roundShift_congr h hm hn (by unfold dropBits; omega)]

theorem roundScaled_congr (neg : Bool) {m n : ℕ} (h : m / 4 = n / 4) (hm : m % 4 ≠ 0) (hn : n % 4 ≠ 0) :
    roundScaled neg m 3 = roundScaled neg n 3 := by
  unfold roundScaled
  rw [roundedBits_congr h hm hn]

theorem ratioMagnitude_div (num : ℕ) {den : ℕ} : ratioMagnitude num den / 4 = num * 2 ^ 150 / den := by
  have : num * 2 ^ 151 / den / 2 = num * 2 ^ 150 / den := by
    rw [Nat.div_div_eq_div_mul, Nat.mul_comm den 2, show num * 2 ^ 151 = 2 * (num * 2 ^ 150) by ring,
      Nat.mul_div_mul_left _ _ (by norm_num)]
  unfold ratioMagnitude
  split <;> omega

theorem ratioMagnitude_mod {num den : ℕ} (h : ∀ u, num * 2 ^ 150 ≠ u * den) : ratioMagnitude num den % 4 ≠ 0 := by
  intro h0
  unfold ratioMagnitude at h0
  split at h0
  · rename_i hr
    apply h (num * 2 ^ 151 / den / 2)
    have h1 := Nat.div_add_mod (num * 2 ^ 151) den
    have h2 : num * 2 ^ 151 / den = 2 * (num * 2 ^ 151 / den / 2) := by omega
    rw [hr, h2] at h1
    have : 2 * (num * 2 ^ 150) = 2 * (num * 2 ^ 151 / den / 2 * den) := by
      calc 2 * (num * 2 ^ 150) = num * 2 ^ 151 := by ring
        _ = _ := h1.symm
        _ = _ := by ring
    exact Nat.eq_of_mul_eq_mul_left (by norm_num) this
  · omega

theorem roundRatio_eq (neg : Bool) (num den : ℕ) : roundRatio neg num den = roundScaled neg (ratioMagnitude num den) 3 := rfl

/-- Two quotients with no multiple of 2^-150 from one to the other round to one word. -/
theorem roundRatio_congr (neg : Bool) {m n den : ℕ} (hd : 0 < den) (hmn : m ≤ n)
    (h : ∀ u, ¬(m * 2 ^ 150 ≤ u * den ∧ u * den ≤ n * 2 ^ 150)) : roundRatio neg m den = roundRatio neg n den := by
  have hle : m * 2 ^ 150 ≤ n * 2 ^ 150 := Nat.mul_le_mul_right _ hmn
  rw [roundRatio_eq, roundRatio_eq]
  refine roundScaled_congr neg ?_ (ratioMagnitude_mod fun u hu => h u ⟨hu.le, hu ▸ hle⟩)
    (ratioMagnitude_mod fun u hu => h u ⟨hu ▸ hle, hu.ge⟩)
  rw [ratioMagnitude_div, ratioMagnitude_div]
  refine le_antisymm (Nat.div_le_div_right hle) ?_
  by_contra hlt
  rw [not_le] at hlt
  refine h (n * 2 ^ 150 / den) ⟨?_, Nat.div_mul_le_self _ _⟩
  have := Nat.lt_div_mul_add (a := m * 2 ^ 150) hd
  calc m * 2 ^ 150 ≤ (m * 2 ^ 150 / den + 1) * den := by rw [Nat.add_mul]; omega
    _ ≤ _ := Nat.mul_le_mul_right _ hlt

/-- An interval that holds no multiple of 2^-150 settles. -/
theorem settle_of_gap {r : Interval} {den : ℕ} (hd : 0 < den) (hr : r.lo ≤ r.hi)
    (h : ∀ u : ℤ, ¬(r.lo * 2 ^ 150 ≤ u * den ∧ u * den ≤ r.hi * 2 ^ 150)) : ∃ w, settle r den = some w := by
  have h0 := h 0
  rw [zero_mul] at h0
  have key : roundIntRatio r.lo den = roundIntRatio r.hi den := by
    unfold roundIntRatio
    rcases lt_or_ge 0 r.lo with hp | hp
    · rw [decide_eq_false (by omega), decide_eq_false (by omega)]
      refine roundRatio_congr _ hd (by omega) fun u hu => h u ?_
      have e1 : ((r.lo.natAbs : ℕ) : ℤ) = r.lo := by omega
      have e2 : ((r.hi.natAbs : ℕ) : ℤ) = r.hi := by omega
      rw [← e1, ← e2]
      exact_mod_cast hu
    · have hn : r.hi < 0 := by
        by_contra hc
        exact h0 ⟨by nlinarith, by nlinarith⟩
      rw [decide_eq_true (by omega), decide_eq_true (by omega)]
      refine (roundRatio_congr _ hd (by omega) fun u hu => h (-u) ?_).symm
      have e1 : r.lo = -((r.lo.natAbs : ℕ) : ℤ) := by omega
      have e2 : r.hi = -((r.hi.natAbs : ℕ) : ℤ) := by omega
      rw [e1, e2]
      have h1 : ((r.hi.natAbs : ℕ) : ℤ) * 2 ^ 150 ≤ u * den := by exact_mod_cast hu.1
      have h2 : (u : ℤ) * den ≤ ((r.lo.natAbs : ℕ) : ℤ) * 2 ^ 150 := by exact_mod_cast hu.2
      constructor <;> linarith
  exact ⟨_, if_pos key⟩

end Sys2Proof.Machine
end

