-- ==== Sys2Proof/Laws/Settle.lean ====
section
/-! SUPPORT. The searches for correctly rounded values always settle: `windowSearch_settles` (R201, R202)
and `cosSumSearch_settles` (R214). So the free value of log 8 is never taken. -/

open Polynomial

namespace Sys2Proof.Machine

/-- The first P-th root of unity. -/
noncomputable def rootOf (P : ℕ) : ℂ := Complex.exp (2 * Real.pi * Complex.I / P)

theorem rootOf_primitive {P : ℕ} (hP : 0 < P) : IsPrimitiveRoot (rootOf P) P := Complex.isPrimitiveRoot_exp P hP.ne'

theorem rootOf_pow (P j : ℕ) :
    rootOf P ^ j = Complex.exp ((2 * Real.pi * j / P : ℝ) * Complex.I) := by
  rw [rootOf, ← Complex.exp_nat_mul]
  congr 1
  push_cast; ring

/-- A power of the root and its inverse power are twice a cosine. -/
theorem rootOf_pow_add {P j : ℕ} (hj : j ≤ P) (hP : 0 < P) :
    rootOf P ^ j + rootOf P ^ (P - j) = ((2 * Real.cos (2 * Real.pi * j / P) : ℝ) : ℂ) := by
  have hPr : (P : ℝ) ≠ 0 := by exact_mod_cast hP.ne'
  rw [rootOf_pow, rootOf_pow, Nat.cast_sub hj]
  rw [show (2 * Real.pi * ((P : ℝ) - j) / P : ℝ) = 2 * Real.pi - 2 * Real.pi * j / P by field_simp]
  rw [Complex.exp_mul_I, Complex.exp_mul_I, ← Complex.ofReal_cos, ← Complex.ofReal_cos, ← Complex.ofReal_sin,
    ← Complex.ofReal_sin, Real.cos_two_pi_sub, Real.sin_two_pi_sub]
  push_cast; ring

theorem rootOf_pow_mod {P j : ℕ} (hj : j < P) : rootOf P ^ ((P - j) % P) = rootOf P ^ (P - j) := by
  rcases Nat.eq_zero_or_pos j with rfl | h
  · rw [Nat.sub_zero, Nat.mod_self, pow_zero, (rootOf_primitive hj).pow_eq_one]
  · rw [Nat.mod_eq_of_lt (by omega)]

theorem two_cosValue (c : Coeffs) :
    ((2 * cosValue c : ℝ) : ℂ)
      = ∑ j ∈ Finset.range c.length, (c.getD j 0 : ℂ) * (rootOf c.length ^ j + rootOf c.length ^ (c.length - j)) := by
  unfold cosValue
  push_cast
  rw [Finset.mul_sum]
  refine Finset.sum_congr rfl fun j hj => ?_
  have hj := Finset.mem_range.1 hj
  rw [rootOf_pow_add hj.le (by omega)]
  push_cast; ring

/-- The zero test finds every zero. -/
theorem cosSumIsZero_of_zero {c : Coeffs} (hP : 0 < c.length) (h : cosValue c = 0) : cosSumIsZero c = true := by
  unfold cosSumIsZero
  set f : Coeffs := tabulate c.length fun j => c.getD j 0 + c.getD ((c.length - j) % c.length) 0 with hf
  have hl : f.length = c.length := by simp [hf]
  refine vanishesAtRoot_of_eval (by rw [hl]; exact hP) (by rw [hl]; exact rootOf_primitive hP) ?_
  have h2 : ((2 * cosValue c : ℝ) : ℂ) = 0 := by rw [h]; simp
  rw [two_cosValue] at h2
  rw [← h2, coeffEval, hl]
  have e : ∀ j ∈ Finset.range c.length, ((f.getD j 0 : ℤ) : ℂ) * rootOf c.length ^ j
      = (c.getD j 0 : ℂ) * rootOf c.length ^ j + (c.getD ((c.length - j) % c.length) 0 : ℂ) * rootOf c.length ^ j := by
    intro j hj
    rw [hf, tabulate_getD _ _ _ (Finset.mem_range.1 hj)]
    push_cast; ring
  rw [Finset.sum_congr rfl e, Finset.sum_add_distrib]
  simp only [mul_add]
  rw [Finset.sum_add_distrib]
  congr 1
  have hlt : ∀ j, (c.length - j) % c.length < c.length := fun j => Nat.mod_lt _ hP
  have hinv : ∀ j, j < c.length → (c.length - (c.length - j) % c.length) % c.length = j := by
    intro j hj
    rcases Nat.eq_zero_or_pos j with rfl | h0
    · simp
    · rw [Nat.mod_eq_of_lt (by omega : c.length - j < c.length), Nat.mod_eq_of_lt (by omega)]; omega
  refine Finset.sum_nbij' (fun j => (c.length - j) % c.length) (fun j => (c.length - j) % c.length)
    (fun j _ => Finset.mem_range.2 (hlt j)) (fun j _ => Finset.mem_range.2 (hlt j))
    (fun j hj => hinv j (Finset.mem_range.1 hj)) (fun j hj => hinv j (Finset.mem_range.1 hj)) fun j hj => ?_
  have hj := Finset.mem_range.1 hj
  rw [← rootOf_pow_mod (hlt j), hinv j hj]

/-- Twice a cosine sum is either an integer u or not near it. -/
theorem cosValue_gap {c : Coeffs} (hP : 0 < c.length) (u : ℤ) (hne : 2 * cosValue c ≠ u) :
    1 ≤ |2 * cosValue c - u| * (2 * coeffWeight c + |(u : ℝ)| + 1) ^ c.length := by
  let f : ℤ[X] := (∑ j ∈ Finset.range c.length, C (c.getD j 0) * (X ^ j + X ^ (c.length - j))) - C u
  have hf : ∀ z : ℂ, aeval z f = (∑ j ∈ Finset.range c.length, (c.getD j 0 : ℂ) * (z ^ j + z ^ (c.length - j))) - u := by
    intro z; simp [f, map_sum]
  have hval : aeval (rootOf c.length) f = ((2 * cosValue c - u : ℝ) : ℂ) := by
    rw [hf, ← two_cosValue]; push_cast; rfl
  have hB : ∀ z : ℂ, z ^ c.length = 1 → ‖aeval z f‖ ≤ 2 * coeffWeight c + |(u : ℝ)| + 1 := by
    intro z hz
    have hz1 : ‖z‖ = 1 := Complex.norm_eq_one_of_pow_eq_one hz hP.ne'
    rw [hf]
    refine (norm_sub_le _ _).trans ?_
    have h1 : ‖∑ j ∈ Finset.range c.length, (c.getD j 0 : ℂ) * (z ^ j + z ^ (c.length - j))‖ ≤ 2 * coeffWeight c := by
      rw [coeffWeight_real, Finset.mul_sum]
      refine norm_sum_le_of_le _ fun j _ => ?_
      rw [norm_mul]
      have h3 : ‖z ^ j + z ^ (c.length - j)‖ ≤ 2 := by
        refine (norm_add_le _ _).trans ?_
        rw [norm_pow, norm_pow, hz1]; norm_num
      have h4 : ‖((c.getD j 0 : ℤ) : ℂ)‖ = |((c.getD j 0 : ℤ) : ℝ)| := by
        rw [← Complex.ofReal_intCast, Complex.norm_real, Real.norm_eq_abs]
      rw [h4, mul_comm]
      gcongr
    have h5 : ‖((u : ℤ) : ℂ)‖ = |(u : ℝ)| := by
      rw [← Complex.ofReal_intCast, Complex.norm_real, Real.norm_eq_abs]
    rw [h5]
    linarith
  have h := root_value_gap hP f (B := 2 * coeffWeight c + |(u : ℝ)| + 1) (by
    have : (0 : ℝ) ≤ coeffWeight c := by positivity
    have := abs_nonneg (u : ℝ)
    linarith) hB (rootOf_primitive hP) (by
    rw [hval]
    exact_mod_cast sub_ne_zero.2 hne)
  rw [hval, Complex.norm_real, Real.norm_eq_abs] at h
  exact h

/-! The precisions tried. -/

theorem precisions_last {start need : ℕ} (hs : 0 < start) :
    ∃ p ∈ precisions start need, need < p ∧ start ≤ p := by
  refine ⟨start * 2 ^ ((need / start).log2 + 1), ?_, ?_, Nat.le_mul_of_pos_right _ (by positivity)⟩
  · unfold precisions
    rw [List.mem_map]
    exact ⟨_, List.mem_range.2 (by omega), rfl⟩
  · have h1 : need / start < 2 ^ ((need / start).log2 + 1) := Nat.lt_log2_self
    have h2 := Nat.lt_mul_div_succ need hs
    calc need < start * (need / start + 1) := h2
      _ ≤ _ := Nat.mul_le_mul_left _ h1

theorem firstSettled_of_mem {ps : List ℕ} {f : ℕ → Option F32} {p : ℕ} (hp : p ∈ ps) (h : ∃ w, f p = some w) :
    ∃ w, firstSettled ps f = some w := by
  unfold firstSettled
  rw [← Option.isSome_iff_exists, List.findSome?_isSome_iff]
  exact ⟨p, hp, Option.isSome_iff_exists.2 h⟩

/-- The width bound is below half the bits. -/
theorem sineWidth_le {p : ℕ} (hp : 64 ≤ p) : sineWidth p ≤ 2 ^ (p / 2) := by
  have key : ∀ n : ℕ, 18 ≤ n → 5 * (2 * n + 1) ^ 2 + 400 * (2 * n + 1) + 2000 ≤ 2 ^ n := by
    intro n hn
    induction n, hn using Nat.le_induction with
    | base => norm_num
    | succ n hn ih => have := pow_succ 2 n; nlinarith
  have h1 := key (p / 2) (by omega)
  have h2 : (p : ℝ) ≤ 2 * ((p / 2 : ℕ) : ℝ) + 1 := by exact_mod_cast (by omega : p ≤ 2 * (p / 2) + 1)
  have h3 : (5 * (2 * ((p / 2 : ℕ) : ℝ) + 1) ^ 2 + 400 * (2 * ((p / 2 : ℕ) : ℝ) + 1) + 2000) ≤ 2 ^ (p / 2) := by
    exact_mod_cast h1
  refine le_trans ?_ h3
  unfold sineWidth
  gcongr

/-- An enclosure narrower than the gap to every boundary settles. -/
theorem settle_of_narrow {r : Interval} {x ε : ℝ} {p den : ℕ} (hd : 0 < den) (hx : r.Holds (x * 2 ^ p))
    (hw : (r.width : ℝ) ≤ ε * 2 ^ p)
    (hgap : ∀ u : ℤ, ε < |x - u * den / 2 ^ 150|) : ∃ w, settle r (2 ^ p * den) = some w := by
  have hp : (0 : ℝ) < 2 ^ p := by positivity
  refine settle_of_gap (by positivity) (by exact_mod_cast hx.1.trans hx.2) fun u hu => ?_
  have h1 : (r.lo : ℝ) * 2 ^ 150 ≤ u * (2 ^ p * den) := by exact_mod_cast hu.1
  have h2 : (u : ℝ) * (2 ^ p * den) ≤ r.hi * 2 ^ 150 := by exact_mod_cast hu.2
  have hg := hgap u
  unfold Interval.width at hw
  push_cast at hw
  have h3 : (r.lo : ℝ) ≤ (u * den / 2 ^ 150) * 2 ^ p := by
    rw [div_mul_eq_mul_div, le_div_iff₀ (by positivity)]; linarith
  have h4 : (u * den / 2 ^ 150) * 2 ^ p ≤ (r.hi : ℝ) := by
    rw [div_mul_eq_mul_div, div_le_iff₀ (by positivity)]; linarith
  have h5 : |x - u * den / 2 ^ 150| * 2 ^ p ≤ ε * 2 ^ p := by
    rw [← abs_of_pos hp, ← abs_mul, abs_of_pos hp, sub_mul, abs_le]
    constructor <;> linarith [hx.1, hx.2]
  exact absurd (le_of_mul_le_mul_right h5 hp) (not_le.2 hg)

/-- A sine of the window tables is irrational. -/
theorem window_sine_irrational {M i : ℕ} (hM : M % 2 = 1) (hi : 1 ≤ i) (hiM : 2 * i < M) (q : ℚ) :
    Real.sin (Real.pi * i / M) ≠ q := by
  intro h
  have hMr : (M : ℝ) ≠ 0 := by exact_mod_cast (by omega : M ≠ 0)
  have hMq : (M : ℚ) ≠ 0 := by exact_mod_cast (by omega : M ≠ 0)
  have hMp : (0 : ℚ) < M := by exact_mod_cast (by omega : 0 < M)
  set r : ℚ := 1 / 2 - i / M with hr
  have hle : (i : ℚ) / M ≤ 1 / 2 := by
    rw [div_le_iff₀ hMp]
    have : (2 * i : ℚ) ≤ M := by exact_mod_cast hiM.le
    linarith
  have hnn : (0 : ℚ) ≤ i / M := by positivity
  have hcos : Real.cos (r * Real.pi) = q := by
    rw [← h, ← Real.cos_pi_div_two_sub]
    congr 1
    rw [hr]; push_cast; ring
  have hmem := niven_angle_div_pi_eq (r := r) ⟨q, hcos⟩ ⟨by rw [hr]; linarith, by rw [hr]; linarith⟩
  have hcase : ∀ a b : ℕ, 0 < b → r = a / b → b * M = 2 * b * i + 2 * a * M := by
    intro a b hb he
    have hb' : (b : ℚ) ≠ 0 := by exact_mod_cast hb.ne'
    rw [hr] at he
    field_simp at he
    have h2 : ((b * M : ℕ) : ℚ) = ((2 * b * i + 2 * a * M : ℕ) : ℚ) := by push_cast; linarith
    exact_mod_cast h2
  simp only [Set.mem_insert_iff, Set.mem_singleton_iff] at hmem
  rcases hmem with h | h | h | h | h
  · have := hcase 0 1 (by norm_num) (by rw [h]; norm_num); omega
  · have := hcase 1 3 (by norm_num) (by rw [h]; norm_num); omega
  · have := hcase 1 2 (by norm_num) (by rw [h]; norm_num); omega
  · have := hcase 2 3 (by norm_num) (by rw [h]; norm_num); omega
  · have := hcase 1 1 (by norm_num) (by rw [h]; norm_num); omega

/-- The coefficients with one entry. -/
def oneCoeff (P k : ℕ) (v : ℤ) : Coeffs := (List.replicate P 0).set k v

theorem oneCoeff_getD {P k : ℕ} (hk : k < P) (v : ℤ) (j : ℕ) : (oneCoeff P k v).getD j 0 = if j = k then v else 0 := by
  unfold oneCoeff
  rw [List.getD_eq_getElem?_getD, List.getElem?_set]
  by_cases h : k = j
  · subst h; simp [hk]
  · rw [if_neg h, if_neg (Ne.symm h), List.getElem?_replicate]
    split <;> rfl

theorem oneCoeff_cosValue {P k : ℕ} (hk : k < P) (v : ℤ) :
    cosValue (oneCoeff P k v) = v * Real.cos (2 * Real.pi * k / P) := by
  have hl : (oneCoeff P k v).length = P := by simp [oneCoeff]
  unfold cosValue
  rw [hl, Finset.sum_eq_single k]
  · rw [oneCoeff_getD hk, if_pos rfl]
  · intro j _ hj
    rw [oneCoeff_getD hk, if_neg hj]; simp
  · intro h; exact absurd (Finset.mem_range.2 hk) h

theorem oneCoeff_weight {P k : ℕ} (hk : k < P) (v : ℤ) : (coeffWeight (oneCoeff P k v) : ℤ) = |v| := by
  have hl : (oneCoeff P k v).length = P := by simp [oneCoeff]
  rw [coeffWeight_eq, hl, Finset.sum_eq_single k]
  · rw [oneCoeff_getD hk, if_pos rfl]
  · intro j _ hj
    rw [oneCoeff_getD hk, if_neg hj]; simp
  · intro h; exact absurd (Finset.mem_range.2 hk) h

/-- From a gap with a bound that is a power of two. -/
theorem gap_pow {y B : ℝ} {P e : ℕ} (h : y < 1 → 1 ≤ y * B ^ P) (hB0 : 0 ≤ B) (hB : y < 1 → B ≤ 2 ^ e)
    (hy : 0 ≤ y) :
    1 ≤ y * 2 ^ (e * P) := by
  rcases lt_or_ge y 1 with h1 | h1
  · refine (h h1).trans (mul_le_mul_of_nonneg_left ?_ hy)
    rw [pow_mul]
    exact pow_le_pow_left₀ hB0 (hB h1) P
  · have : (1 : ℝ) ≤ 2 ^ (e * P) := one_le_pow₀ (by norm_num)
    nlinarith

/-- The search for a window entry settles (R201, R202). -/
theorem windowSearch_settles {len den i : ℕ} (hi : 1 ≤ i) (hlen : i < len) (hden : 1 ≤ den) :
    ∃ w, windowSearch len den i = some w := by
  obtain ⟨p, hmem, hneed, hp64⟩ := precisions_last (start := 64) (need := windowNeed len) (by norm_num)
  unfold windowNeed at hneed
  refine firstSettled_of_mem hmem ?_
  set M := 2 * len - 1 with hM
  have hMr : (M : ℝ) ≠ 0 := by exact_mod_cast (by omega : M ≠ 0)
  obtain ⟨hh, hw⟩ := sinPi_spec (a := i) (b := M) (F := p) (by omega) (by omega) (by omega)
  have hp2 : (0 : ℝ) < 2 ^ p := by positivity
  refine settle_of_narrow (x := Real.sin (Real.pi * i / M)) (ε := sineWidth p / 2 ^ p) (by omega) hh ?_ fun u => ?_
  · rw [div_mul_cancel₀ _ hp2.ne']; exact hw
  -- the gap of the boundary u
  have hk : M - 2 * i < 4 * M := by omega
  have hcos : cosValue (oneCoeff (4 * M) (M - 2 * i) (2 ^ 150)) = 2 ^ 150 * Real.sin (Real.pi * i / M) := by
    rw [oneCoeff_cosValue hk, ← Real.cos_pi_div_two_sub]
    have e : 2 * Real.pi * ((M - 2 * i : ℕ) : ℝ) / ((4 * M : ℕ) : ℝ) = Real.pi / 2 - Real.pi * i / M := by
      push_cast [Nat.cast_sub (by omega : 2 * i ≤ M)]
      field_simp
      ring
    rw [e]
    norm_num
  have hwt : coeffWeight (oneCoeff (4 * M) (M - 2 * i) (2 ^ 150)) = 2 ^ 150 := by
    have := oneCoeff_weight hk (2 ^ 150)
    rw [abs_of_pos (by positivity)] at this
    exact_mod_cast this
  have hl : (oneCoeff (4 * M) (M - 2 * i) (2 ^ 150)).length = 4 * M := by simp [oneCoeff]
  have hne : 2 * cosValue (oneCoeff (4 * M) (M - 2 * i) (2 ^ 150)) ≠ ((2 * (u * den) : ℤ) : ℝ) := by
    rw [hcos]
    intro h
    refine window_sine_irrational (M := M) (i := i) (by omega) hi (by omega) ((u * den : ℚ) / 2 ^ 150) ?_
    push_cast at h ⊢
    linarith
  have hg := cosValue_gap (by rw [hl]; omega) _ hne
  rw [hl, hwt, hcos] at hg
  set x := Real.sin (Real.pi * i / M)
  set y := |2 * (2 ^ 150 * x) - ((2 * (u * den) : ℤ) : ℝ)| with hy
  have hx1 : |x| ≤ 1 := Real.abs_sin_le_one _
  have hgp := gap_pow (y := y) (B := 2 * ((2 ^ 150 : ℕ) : ℝ) + |((2 * (u * den) : ℤ) : ℝ)| + 1) (P := 4 * M)
    (e := 153)
    (fun _ => hg) (by positivity) (fun h => by
      have h1 : |((2 * (u * den) : ℤ) : ℝ)| ≤ |2 * (2 ^ 150 * x)| + y := by
        rw [hy, abs_sub_comm]
        have := abs_add_le (((2 * (u * den) : ℤ) : ℝ) - 2 * (2 ^ 150 * x)) (2 * (2 ^ 150 * x))
        rw [sub_add_cancel] at this
        linarith
      have h2 : |2 * (2 ^ 150 * x)| ≤ 2 ^ 151 := by
        rw [abs_mul, abs_mul, abs_of_pos (by norm_num : (0 : ℝ) < 2),
          abs_of_pos (by positivity : (0 : ℝ) < 2 ^ 150)]
        nlinarith
      push_cast at *
      norm_num at *
      linarith) (abs_nonneg _)
  have hxy : |x - u * den / 2 ^ 150| * 2 ^ 151 = y := by
    rw [hy, ← abs_of_pos (by positivity : (0 : ℝ) < 2 ^ 151), ← abs_mul]
    congr 1
    push_cast
    ring
  rw [div_lt_iff₀ hp2]
  by_contra hcon
  rw [not_lt] at hcon
  have h1 : |x - u * den / 2 ^ 150| * 2 ^ p ≤ 2 ^ (p / 2) := hcon.trans (sineWidth_le hp64)
  have h2 : (2 : ℝ) ^ p ≤ 2 ^ (p / 2) * 2 ^ (151 + 153 * (4 * M)) := by
    calc (2 : ℝ) ^ p ≤ 2 ^ p * (y * 2 ^ (153 * (4 * M))) := le_mul_of_one_le_right hp2.le hgp
      _ = (|x - u * den / 2 ^ 150| * 2 ^ p) * 2 ^ (151 + 153 * (4 * M)) := by rw [← hxy, pow_add]; ring
      _ ≤ _ := by gcongr
  rw [← pow_add] at h2
  have h3 : p ≤ p / 2 + (151 + 153 * (4 * M)) := (pow_le_pow_iff_right₀ (by norm_num : (1 : ℝ) < 2)).1 h2
  omega

/-! The coefficients of the map. -/

theorem bump_length (c : Coeffs) (j : ℕ) (v : ℤ) : (bump c j v).length = c.length := by simp [bump]

/-- Every coefficient is even. -/
def EvenCoeffs (c : Coeffs) : Prop := ∀ v ∈ c, 2 ∣ v

theorem EvenCoeffs.bump {c : Coeffs} (h : EvenCoeffs c) (j : ℕ) {v : ℤ} (hv : 2 ∣ v) : EvenCoeffs (bump c j v) := by
  intro w hw
  obtain ⟨i, hi, rfl⟩ := List.mem_iff_getElem.1 hw
  unfold Machine.bump at *
  rw [List.getElem_modify]
  rw [List.length_modify] at hi
  split
  · exact dvd_add (h _ (List.getElem_mem hi)) hv
  · exact h _ (List.getElem_mem hi)

theorem addInput_spec (n l m : ℕ) {c : Coeffs} (h : EvenCoeffs c) (i : ℕ) (v : ℤ) :
    EvenCoeffs (addInput n l m c i v) ∧ (addInput n l m c i v).length = c.length := by
  have h0 : EvenCoeffs (Machine.bump c 0 (v + if (m + i) % 2 = 0 then v else -v)) := by
    refine h.bump 0 ?_
    split
    · exact ⟨v, by ring⟩
    · simp
  have key : ∀ (at' : ℕ → ℕ) (ks : List ℕ) (c' : Coeffs), EvenCoeffs c' →
      EvenCoeffs (ks.foldl (fun c k => Machine.bump c (at' k) (2 * v)) c')
        ∧ (ks.foldl (fun c k => Machine.bump c (at' k) (2 * v)) c').length = c'.length := by
    intro at' ks
    induction ks with
    | nil => intro c' hc; exact ⟨hc, rfl⟩
    | cons k ks ih =>
      intro c' hc
      rw [List.foldl_cons]
      obtain ⟨h1, h2⟩ := ih _ (hc.bump (at' k) ⟨v, rfl⟩)
      exact ⟨h1, by rw [h2, bump_length]⟩
  obtain ⟨h1, h2⟩ := key
    (fun k => ((k + 1) * (m + (2 * n * l - i * l % (2 * n * l)))) % (2 * n * l)) (List.range (n - 1)) _ h0
  exact ⟨h1, by rw [addInput, h2, bump_length]⟩

theorem mapCoeffs_spec (n l : ℕ) (b : List F32) (m : ℕ) :
    EvenCoeffs (mapCoeffs n l b m) ∧ (mapCoeffs n l b m).length = 2 * n * l := by
  have key : ∀ (is : List ℕ) (c : Coeffs), EvenCoeffs c →
      EvenCoeffs (is.foldl (fun c i => addInput n l m c i (scaled (b.getD i 0))) c)
      ∧ (is.foldl (fun c i => addInput n l m c i (scaled (b.getD i 0))) c).length = c.length := by
    intro is
    induction is with
    | nil => intro c hc; exact ⟨hc, rfl⟩
    | cons i is ih =>
      intro c hc
      rw [List.foldl_cons]
      obtain ⟨h1, h2⟩ := addInput_spec n l m hc i (scaled (b.getD i 0))
      obtain ⟨h3, h4⟩ := ih _ h1
      exact ⟨h3, h4.trans h2⟩
  have := key (List.range (2 * n)) (List.replicate (2 * n * l) 0) (fun v hv => by
    rw [List.eq_of_mem_replicate hv]; exact dvd_zero 2)
  exact ⟨this.1, this.2.trans (by simp)⟩

theorem bump_cosValue {c : Coeffs} (hP : 0 < c.length) (v : ℤ) : cosValue (bump c 0 v) = cosValue c + v := by
  unfold cosValue
  rw [bump_length]
  obtain ⟨P, hPl⟩ : ∃ P, c.length = P + 1 := ⟨c.length - 1, by omega⟩
  rw [hPl, Finset.sum_range_succ', Finset.sum_range_succ']
  have h0 : (bump c 0 v).getD 0 0 = c.getD 0 0 + v := by
    simp [bump, List.getD_eq_getElem?_getD, hP]
  have hs : ∀ j, (bump c 0 v).getD (j + 1) 0 = c.getD (j + 1) 0 := by
    intro j; simp [bump, List.getD_eq_getElem?_getD]
  rw [h0]
  simp only [hs]
  push_cast
  simp
  ring

/-- A cosine sum with even coefficients is an algebraic integer, so it is an integer if it is half of one. -/
theorem cosValue_integer {c : Coeffs} (he : EvenCoeffs c) {u : ℤ} (h : 2 * cosValue c = u) :
    ∃ q : ℤ, cosValue c = q := by
  have hint : IsIntegral ℤ (cosValue c) := by
    unfold cosValue
    refine IsIntegral.sum _ fun j hj => ?_
    have hj := Finset.mem_range.1 hj
    obtain ⟨e, hev⟩ := he (c.getD j 0) (by rw [List.getD_eq_getElem _ _ hj]; exact List.getElem_mem hj)
    rw [hev]
    have h1 := (isIntegral_algebraMap (R := ℤ) (A := ℝ) (x := e)).mul
      (Real.isIntegral_two_mul_cos_rat_mul_pi ((2 * j : ℚ) / c.length))
    have e1 : (algebraMap ℤ ℝ e) * (2 * Real.cos (((2 * j : ℚ) / c.length : ℚ) * Real.pi))
        = ((2 * e : ℤ) : ℝ) * Real.cos (2 * Real.pi * j / c.length) := by
      push_cast
      rw [show (2 * (j : ℝ) / c.length * Real.pi) = 2 * Real.pi * j / c.length by ring]
      simp; ring
    rwa [e1] at h1
  refine hint.exists_int_iff_exists_rat.1 ⟨u / 2, ?_⟩
  push_cast; linarith

theorem nearestInt_eq {r : Interval} {q : ℤ} {F : ℕ} (hr : r.Holds (q * 2 ^ F)) (hw : 2 * r.width < 2 ^ F) :
    nearestInt r F = q := by
  have h1 : r.lo ≤ q * 2 ^ F := by exact_mod_cast hr.1
  have h2 : q * 2 ^ F ≤ r.hi := by exact_mod_cast hr.2
  unfold nearestInt
  unfold Interval.width at hw
  have hp : (0 : ℤ) < 2 ^ F := by positivity
  rw [pow_succ]
  generalize (2 : ℤ) ^ F = p at *
  have hp2 : 0 < p * 2 := by linarith
  refine le_antisymm (Int.lt_add_one_iff.1 (Int.ediv_lt_of_lt_mul hp2 ?_)) (Int.le_ediv_of_mul_le hp2 ?_)
  · linarith
  · linarith

/-- The precision of the first look leaves a narrow interval. -/
theorem mapPrecision_spec (c : Coeffs) :
    (coeffWeight c : ℝ) * sineWidth (mapPrecision c) ≤ 2 ^ (mapPrecision c - 2) := by
  set A := coeffWeight c with hA
  set a := A.log2 with ha
  set b := a.log2 with hb
  have hF : mapPrecision c = a + 2 * b + 40 := rfl
  have hA1 : (A : ℝ) ≤ 2 ^ (a + 1) := by exact_mod_cast (Nat.lt_log2_self (n := A)).le
  have ha1 : a < 2 ^ (b + 1) := Nat.lt_log2_self
  have hb1 : b < 2 ^ b := Nat.lt_two_pow_self
  have hFn : mapPrecision c ≤ 44 * 2 ^ b := by
    have : 1 ≤ 2 ^ b := Nat.one_le_two_pow
    rw [hF]; rw [pow_succ] at ha1; omega
  have hFr : (mapPrecision c : ℝ) ≤ 44 * 2 ^ b := by exact_mod_cast hFn
  have hone : (1 : ℝ) ≤ 2 ^ b := one_le_pow₀ (by norm_num)
  have hW : sineWidth (mapPrecision c) ≤ 2 ^ (2 * b + 15) := by
    have h4 : (2 : ℝ) ^ (2 * b + 15) = 32768 * (2 ^ b) ^ 2 := by rw [pow_add, pow_mul']; norm_num; ring
    rw [h4]
    unfold sineWidth
    have : (mapPrecision c : ℝ) ^ 2 ≤ (44 * 2 ^ b) ^ 2 := by gcongr
    nlinarith
  have hW0 : 0 ≤ sineWidth (mapPrecision c) := by unfold sineWidth; positivity
  calc (A : ℝ) * sineWidth (mapPrecision c) ≤ 2 ^ (a + 1) * 2 ^ (2 * b + 15) := by gcongr
    _ = 2 ^ (a + 1 + (2 * b + 15)) := (pow_add _ _ _).symm
    _ ≤ _ := pow_le_pow_right₀ (by norm_num) (by rw [hF]; omega)

theorem abs_cosValue_le (c : Coeffs) : |cosValue c| ≤ coeffWeight c := by
  rw [coeffWeight_real]
  refine (Finset.abs_sum_le_sum_abs _ _).trans (Finset.sum_le_sum fun j _ => ?_)
  rw [abs_mul]
  exact mul_le_of_le_one_right (abs_nonneg _) (Real.abs_cos_le_one _)

/-- The search for a cosine sum with even coefficients settles (R214). -/
theorem cosSumSearch_settles_of_even {c : Coeffs} (hP : 0 < c.length) (he : EvenCoeffs c) :
    ∃ w, cosSumSearch c = some w := by
  unfold cosSumSearch
  simp only []
  set F := mapPrecision c with hF
  split
  · exact ⟨_, rfl⟩
  rename_i hz
  have hF40 : 40 ≤ F := by rw [hF]; unfold mapPrecision; omega
  have hnot : ∀ q : ℤ, cosValue c ≠ q := by
    intro q hq
    apply hz
    obtain ⟨h1, h2⟩ := cosSum_spec c (F := F) (by omega)
    rw [hq] at h1
    have hw : 2 * (cosSum c F).width < 2 ^ F := by
      have h3 := h2.trans (mapPrecision_spec c)
      have h4 : (2 : ℝ) * (cosSum c F).width ≤ 2 ^ (F - 1) := by
        rw [show F - 1 = F - 2 + 1 by omega, pow_succ]; linarith
      have h5 : (2 : ℝ) ^ (F - 1) < 2 ^ F := pow_lt_pow_right₀ (by norm_num) (by omega)
      exact_mod_cast h4.trans_lt h5
    rw [nearestInt_eq h1 hw]
    refine cosSumIsZero_of_zero (by rw [bump_length]; exact hP) ?_
    rw [bump_cosValue hP, hq]; simp
  have hne : ∀ u : ℤ, 2 * cosValue c ≠ u := fun u hu => by
    obtain ⟨q, hq⟩ := cosValue_integer he hu
    exact hnot q hq
  obtain ⟨p, hmem, hneed, hpF⟩ := precisions_last (start := F) (need := mapNeed c) (by omega)
  refine firstSettled_of_mem hmem ?_
  unfold mapNeed at hneed
  obtain ⟨h1, h2⟩ := cosSum_spec c (F := p) (by omega)
  have hp2 : (0 : ℝ) < 2 ^ p := by positivity
  refine settle_of_narrow (x := cosValue c) (ε := coeffWeight c * sineWidth p / 2 ^ p) (by positivity) h1 ?_ fun u => ?_
  · rw [div_mul_cancel₀ _ hp2.ne']; exact h2
  set a := (coeffWeight c).log2 with ha
  have hA : (coeffWeight c : ℝ) ≤ 2 ^ (a + 1) := by exact_mod_cast (Nat.lt_log2_self (n := coeffWeight c)).le
  have hx : |cosValue c| ≤ coeffWeight c := abs_cosValue_le c
  have hg := cosValue_gap hP u (hne u)
  set y := |2 * cosValue c - u| with hy
  have hgp := gap_pow (y := y) (B := 2 * coeffWeight c + |(u : ℝ)| + 1) (P := c.length) (e := a + 4)
    (fun _ => hg) (by positivity) (fun h => by
      have h1 : |(u : ℝ)| ≤ |2 * cosValue c| + y := by
        rw [hy, abs_sub_comm]
        have := abs_add_le ((u : ℝ) - 2 * cosValue c) (2 * cosValue c)
        rw [sub_add_cancel] at this
        linarith
      rw [abs_mul, abs_of_pos (by norm_num : (0 : ℝ) < 2)] at h1
      have h3 : (2 : ℝ) ^ (a + 4) = 8 * 2 ^ (a + 1) := by rw [pow_add, pow_add]; norm_num; ring
      have h4 : (1 : ℝ) ≤ 2 ^ (a + 1) := one_le_pow₀ (by norm_num)
      rw [h3]
      linarith) (abs_nonneg _)
  have hxy : |cosValue c - u * ((2 ^ 149 : ℕ) : ℝ) / 2 ^ 150| * 2 = y := by
    rw [hy, ← abs_of_pos (by norm_num : (0 : ℝ) < 2), ← abs_mul]
    congr 1
    push_cast
    ring
  rw [div_lt_iff₀ hp2]
  by_contra hcon
  rw [not_lt] at hcon
  have hW0 : 0 ≤ sineWidth p := by unfold sineWidth; positivity
  have h3 : |cosValue c - u * ((2 ^ 149 : ℕ) : ℝ) / 2 ^ 150| * 2 ^ p ≤ 2 ^ (a + 1) * 2 ^ (p / 2) :=
    hcon.trans (mul_le_mul hA (sineWidth_le (by omega)) hW0 (by positivity))
  have h4 : (2 : ℝ) ^ p ≤ (2 ^ (a + 1) * 2 ^ (p / 2)) * 2 ^ (1 + (a + 4) * c.length) := by
    calc (2 : ℝ) ^ p ≤ 2 ^ p * (y * 2 ^ ((a + 4) * c.length)) := le_mul_of_one_le_right hp2.le hgp
      _ = (|cosValue c - u * ((2 ^ 149 : ℕ) : ℝ) / 2 ^ 150| * 2 ^ p) * 2 ^ (1 + (a + 4) * c.length) := by
        rw [← hxy, pow_add]; ring
      _ ≤ _ := by gcongr
  rw [← pow_add, ← pow_add] at h4
  have h5 := (pow_le_pow_iff_right₀ (by norm_num : (1 : ℝ) < 2)).1 h4
  have h6 : (c.length + 2) * (a + 4) = (a + 4) * c.length + 2 * (a + 4) := by ring
  rw [h6] at hneed
  generalize (a + 4) * c.length = T at *
  omega

/-- The search for a value of the map settles (R214). -/
theorem cosSumSearch_settles {n l : ℕ} (hn : 1 ≤ n) (hl : 1 ≤ l) (b : List F32) (m : ℕ) :
    ∃ w, cosSumSearch (mapCoeffs n l b m) = some w :=
  cosSumSearch_settles_of_even (by rw [(mapCoeffs_spec n l b m).2]; positivity) (mapCoeffs_spec n l b m).1

end Sys2Proof.Machine
end

