-- ==== Sys2Proof/Laws/Shape.lean ====
section
/-! SUPPORT. The sizes of the memories (R32, R35 to R39): the reset state has them, and every operation that
writes a memory keeps them. The block has no byte-addressed memory (R93), so this stands for its canonical form. -/

namespace Sys2Proof.Machine

/-- A tabulated window has its length. -/
theorem analysisWindow_length (b : Build) : (analysisWindow b).length = b.n := by simp [analysisWindow]

theorem synthesisWindow_length (b : Build) : (synthesisWindow b).length = b.nl := by simp [synthesisWindow]

/-- The fields that reset and START rebuild have the shape, whatever they were. -/
theorem ShapeOk.of_fresh {s : State} (hb : s.build.valid = true) (ha : s.wa.length = s.build.n)
    (hs : s.ws.length = s.build.nl) (hl : s.lanes = List.replicate s.build.cMax (Lane.resetFor s.build))
    (hf : s.frameBuf = List.replicate s.build.cMax (List.replicate s.build.n 0x00000000#32))
    (hd : s.fifo.length ≤ s.build.outDepth) (hg : ∀ g ∈ s.fifo, groupOk s.build g = true) : ShapeOk s where
  build := hb
  wa := ha
  ws := hs
  lanes := by rw [hl]; exact List.length_replicate
  inbuf := fun l h => by
    rw [hl] at h; rw [(List.mem_replicate.1 h).2]; exact List.length_replicate
  tail := fun l h => by
    rw [hl] at h; rw [(List.mem_replicate.1 h).2]; exact List.length_replicate
  rows := by rw [hf]; exact List.length_replicate
  row := fun r h => by
    rw [hf] at h; rw [(List.mem_replicate.1 h).2]; exact List.length_replicate
  depth := hd
  groups := hg

/-- Every block of a legal build starts with its shape (R11, R381). -/
theorem shape_resetFor {b : Build} (hb : b.valid = true) : ShapeOk (State.resetFor b) :=
  .of_fresh hb (analysisWindow_length b) (synthesisWindow_length b) rfl rfl (Nat.zero_le _)
    (fun _ h => absurd h List.not_mem_nil)

/-- Reset keeps the shape (R380). -/
theorem ShapeOk.resetBlock {s : State} (h : ShapeOk s) : ShapeOk (resetBlock s) :=
  .of_fresh h.build h.wa h.ws rfl rfl (Nat.zero_le _) (fun _ h => absurd h List.not_mem_nil)

/-- A fresh stream keeps the shape (R164). -/
theorem ShapeOk.freshStream {s : State} (h : ShapeOk s) (st : FsrState) : ShapeOk (freshStream s st) :=
  .of_fresh h.build h.wa h.ws rfl rfl h.depth h.groups

/-- ABORT keeps the shape (R165). -/
theorem ShapeOk.abandonStream {s : State} (h : ShapeOk s) : ShapeOk (abandonStream s) :=
  .of_fresh h.build h.wa h.ws rfl rfl (Nat.zero_le _) (fun _ h => absurd h List.not_mem_nil)

/-- Fields that hold no memory may change. -/
theorem ShapeOk.of_memories {s t : State} (h : ShapeOk s) (hb : t.build = s.build) (ha : t.wa = s.wa)
    (hs : t.ws = s.ws) (hl : t.lanes = s.lanes) (hf : t.frameBuf = s.frameBuf) (hq : t.fifo = s.fifo) :
    ShapeOk t where
  build := by rw [hb]; exact h.build
  wa := by rw [ha, hb]; exact h.wa
  ws := by rw [hs, hb]; exact h.ws
  lanes := by rw [hl, hb]; exact h.lanes
  inbuf := by rw [hl, hb]; exact h.inbuf
  tail := by rw [hl, hb]; exact h.tail
  rows := by rw [hf, hb]; exact h.rows
  row := by rw [hf, hb]; exact h.row
  depth := by rw [hq, hb]; exact h.depth
  groups := by rw [hq, hb]; exact h.groups

/-- Fault entry keeps the shape (R342). -/
theorem ShapeOk.faulted {s : State} (h : ShapeOk s) (code : ErrCode) (addr : BitVec 8) (v : Word32) :
    ShapeOk (faulted code addr v s) :=
  h.of_memories rfl rfl rfl rfl rfl rfl

/-- The lane an operand names has its buffers. -/
theorem ShapeOk.laneAt {s : State} (h : ShapeOk s) (c : Nat) :
    (laneAt s c).inbuf.length = 2 * s.build.n ∧ (laneAt s c).tail.length = s.build.nl := by
  unfold Machine.laneAt
  rw [List.getD_eq_getElem?_getD]
  cases hc : s.lanes[c]? with
  | none => exact ⟨List.length_replicate, List.length_replicate⟩
  | some l => exact ⟨h.inbuf l (List.mem_of_getElem? hc), h.tail l (List.mem_of_getElem? hc)⟩

/-- A lane replaced by one with the same buffers keeps the shape (R166, R167). -/
theorem ShapeOk.setLane {s : State} (h : ShapeOk s) (c : Nat) {l : Lane} (hi : l.inbuf.length = 2 * s.build.n)
    (ht : l.tail.length = s.build.nl) : ShapeOk (setLane s c l) where
  build := h.build
  wa := h.wa
  ws := h.ws
  lanes := List.length_set.trans h.lanes
  inbuf := fun k hk => by
    rcases List.mem_or_eq_of_mem_set hk with hm | rfl
    · exact h.inbuf k hm
    · exact hi
  tail := fun k hk => by
    rcases List.mem_or_eq_of_mem_set hk with hm | rfl
    · exact h.tail k hm
    · exact ht
  rows := h.rows
  row := h.row
  depth := h.depth
  groups := h.groups

/-- A stored sample keeps the shape (R293). -/
theorem ShapeOk.storeSample {s : State} (h : ShapeOk s) (v : F32) : ShapeOk (storeSample v s) where
  build := h.build
  wa := h.wa
  ws := h.ws
  lanes := h.lanes
  inbuf := h.inbuf
  tail := h.tail
  rows := (List.length_modify ..).trans h.rows
  row := fun r hr => by
    obtain ⟨i, hi⟩ := List.mem_iff_getElem?.1 hr
    simp only [Machine.storeSample, List.getElem?_modify] at hi
    cases hx : s.frameBuf[i]? with
    | none => simp [hx] at hi
    | some x =>
      have hlen := h.row x (List.mem_of_getElem? hx)
      rw [hx] at hi
      obtain rfl := Option.some.inj hi
      show (if _ then _ else _ : List F32).length = s.build.n
      split <;> simp [hlen]
  depth := h.depth
  groups := h.groups

/-- The zero fill of a short frame keeps every row's length (R294). -/
theorem zeroFill_shape {s : State} (h : ShapeOk s) {pos : Nat} (hp : pos ≤ s.build.n) :
    (zeroFill s pos).length = s.build.cMax ∧ ∀ r ∈ zeroFill s pos, r.length = s.build.n := by
  refine ⟨by simp [zeroFill, h.rows], fun r hr => ?_⟩
  obtain ⟨i, hi⟩ := List.mem_iff_getElem?.1 hr
  simp only [zeroFill, List.getElem?_mapIdx] at hi
  cases hx : s.frameBuf[i]? with
  | none => simp [hx] at hi
  | some x =>
    have hlen := h.row x (List.mem_of_getElem? hx)
    simp only [hx, Option.map_some, Option.some.injEq] at hi
    subst hi
    split
    · simp [hlen]; omega
    · exact hlen

/-- The GROUP byte as eight bits, the first at bit 7 (R130). -/
def byteOf (b0 b1 b2 b3 b4 b5 b6 b7 : Bool) : BitVec 8 :=
  BitVec.ofNat 8 ((if b0 then 2 ^ 7 else 0) + (if b1 then 2 ^ 6 else 0) + (if b2 then 2 ^ 5 else 0)
    + (if b3 then 2 ^ 4 else 0) + (if b4 then 2 ^ 3 else 0) + (if b5 then 2 ^ 2 else 0)
    + (if b6 then 2 ^ 1 else 0) + (if b7 then 2 ^ 0 else 0))

theorem packBits_eq (bits : List Bool) :
    packBits bits = byteOf (bits.getD 0 false) (bits.getD 1 false) (bits.getD 2 false) (bits.getD 3 false)
      (bits.getD 4 false) (bits.getD 5 false) (bits.getD 6 false) (bits.getD 7 false) := by
  simp [packBits, byteOf, List.range_succ]

theorem byteOf_getLsbD : ∀ b0 b1 b2 b3 b4 b5 b6 b7 : Bool, ∀ t < 8,
    (byteOf b0 b1 b2 b3 b4 b5 b6 b7).getLsbD (7 - t) = [b0, b1, b2, b3, b4, b5, b6, b7].getD t false := by
  decide +kernel

theorem byteOf_low : ∀ b0 b1 b2 b3 b4 b5 b6 b7 : Bool, ∀ n ≤ 8,
    (∀ t < 8, n ≤ t → [b0, b1, b2, b3, b4, b5, b6, b7].getD t false = false) →
      (byteOf b0 b1 b2 b3 b4 b5 b6 b7).toNat % 2 ^ (8 - n) = 0 := by
  decide +kernel

/-- Bit 7 - t of a GROUP byte is the bit of time t (R130). -/
theorem packBits_getLsbD (bits : List Bool) (t : Nat) (ht : t < 8) :
    (packBits bits).getLsbD (7 - t) = bits.getD t false := by
  rw [packBits_eq, byteOf_getLsbD _ _ _ _ _ _ _ _ t ht]
  have : t = 0 ∨ t = 1 ∨ t = 2 ∨ t = 3 ∨ t = 4 ∨ t = 5 ∨ t = 6 ∨ t = 7 := by omega
  rcases this with rfl | rfl | rfl | rfl | rfl | rfl | rfl | rfl <;> rfl

/-- The unused low bits of a GROUP byte are 0 (R130). -/
theorem packBits_low (bits : List Bool) (n : Nat) (hn : n ≤ 8) (hl : bits.length ≤ n) :
    (packBits bits).toNat % 2 ^ (8 - n) = 0 := by
  rw [packBits_eq]
  refine byteOf_low _ _ _ _ _ _ _ _ n hn fun t ht hnt => ?_
  have hz : bits.getD t false = false := by
    rw [List.getD_eq_getElem?_getD, List.getElem?_eq_none (by omega)]; rfl
  have : t = 0 ∨ t = 1 ∨ t = 2 ∨ t = 3 ∨ t = 4 ∨ t = 5 ∨ t = 6 ∨ t = 7 := by omega
  rcases this with rfl | rfl | rfl | rfl | rfl | rfl | rfl | rfl <;> exact hz

/-- Every group a lane makes is well formed (R39, R300). -/
theorem groupsOf_ok (b : Build) {c w : Nat} (bits : List Bool) (hc : c < b.cMax) (hb : b.cMax ≤ 255) :
    ∀ g ∈ groupsOf c w bits, groupOk b g = true := by
  intro g hg
  obtain ⟨i, hi⟩ := List.mem_iff_getElem?.1 hg
  rw [groupsOf, tabulate_getElem?] at hi
  split at hi
  · rename_i hlt
    have hlt' : 8 * i < w := by
      have := Nat.div_mul_le_self (w + 8 - 1) 8
      simp only [ceilDiv] at hlt
      omega
    obtain rfl := Option.some.inj hi
    have hlow := packBits_low ((bits.drop (8 * i)).take (min 8 (w - 8 * i))) (min 8 (w - 8 * i)) (by omega)
      (List.length_take_le ..)
    simp only [groupOk, Bool.and_eq_true, decide_eq_true_eq, beq_iff_eq]
    refine ⟨⟨⟨by omega, by omega⟩, ?_⟩, hlow⟩
    rw [BitVec.toNat_ofNat]
    omega
  · cases hi

/-- How many groups a frame step pushes: as many for each active lane (R300). -/
theorem framePushes_length (s : State) (w : Nat) :
    ((activeLanes s).mapIdx fun c r => groupsOf c w r.2).flatten.length
      = s.regs.chCount.toNat * ceilDiv w 8 := by
  rw [List.length_flatten]
  have : ((activeLanes s).mapIdx fun c r => groupsOf c w r.2).map List.length
      = List.replicate s.regs.chCount.toNat (ceilDiv w 8) := by
    apply List.ext_getElem?
    intro i
    simp only [List.getElem?_map, List.getElem?_mapIdx, activeLanes_getElem?, List.getElem?_replicate]
    split <;> simp [groupsOf_length]
  rw [this, List.sum_replicate_nat]

/-- The frame step keeps the shape (R296): with an empty FIFO its groups fit (R12). -/
theorem ShapeOk.frameStep {s : State} (h : ShapeOk s) (hq : s.fifo = [])
    (hc : s.regs.chCount.toNat ≤ s.build.cMax) : ShapeOk (frameStep s) := by
  have hv := h.build
  simp only [Build.valid, Bool.and_eq_true, decide_eq_true_eq] at hv
  have hlane : ∀ l ∈ (Machine.frameStep s).lanes,
      l.inbuf.length = 2 * s.build.n ∧ l.tail.length = s.build.nl := by
    intro l hl
    rcases List.mem_append.1 hl with hl | hl
    · obtain ⟨r, hr, rfl⟩ := List.mem_map.1 hl
      obtain ⟨i, hi⟩ := List.mem_iff_getElem?.1 hr
      rw [activeLanes_getElem?] at hi
      split at hi
      · obtain rfl := Option.some.inj hi
        exact ⟨(laneFrame_shape ..).2.1, (laneFrame_shape ..).2.2⟩
      · cases hi
    · exact ⟨h.inbuf l (List.mem_of_mem_drop hl), h.tail l (List.mem_of_mem_drop hl)⟩
  refine ⟨h.build, h.wa, h.ws, ?_, fun l hl => (hlane l hl).1, fun l hl => (hlane l hl).2, h.rows, h.row, ?_, ?_⟩
  · show ((activeLanes s).map Prod.fst ++ s.lanes.drop s.regs.chCount.toNat).length = s.build.cMax
    rw [List.length_append, List.length_map, activeLanes_length, List.length_drop, h.lanes]
    omega
  · show (s.fifo ++ _).length ≤ s.build.outDepth
    rw [hq, List.nil_append, framePushes_length]
    refine Nat.le_trans (Nat.mul_le_mul hc ?_) hv.2
    have := pushWidth_le s
    exact Nat.div_le_div_right (by simp only [Build.nl] at this ⊢; omega)
  · intro g hg
    have hg' : g ∈ ((activeLanes s).mapIdx fun c r => groupsOf c (pushWidth s) r.2).flatten := by
      have : g ∈ s.fifo ++ ((activeLanes s).mapIdx fun c r => groupsOf c (pushWidth s) r.2).flatten := hg
      rwa [hq, List.nil_append] at this
    obtain ⟨gs, hgs, hgg⟩ := List.mem_flatten.1 hg'
    obtain ⟨i, hi⟩ := List.mem_iff_getElem?.1 hgs
    simp only [List.getElem?_mapIdx, activeLanes_getElem?] at hi
    split at hi
    · obtain rfl := Option.some.inj hi
      exact groupsOf_ok s.build _ (by omega) (by omega) g hgg
    · cases hi

end Sys2Proof.Machine
end

