-- ==== Sys2Proof/Laws/Step.lean ====
section
/-! SUPPORT. What each turn makes of a step, said once. -/

namespace Sys2Proof.Machine

/-- With no turn to come the core goes on alone. -/
theorem step_of_nil {s : State} (h : s.schedule = []) : step s = .next (coreTurn s) := by
  unfold step
  split <;> simp_all

/-- A core turn. -/
theorem step_of_core {s : State} {rest : List Turn} (h : s.schedule = .core :: rest) :
    step s = .next (coreTurn { s with schedule := rest }) := by
  unfold step
  split <;> simp_all

/-- A reset turn. -/
theorem step_of_reset {s : State} {rest : List Turn} (h : s.schedule = .reset :: rest) :
    step s = .next (resetBlock { s with schedule := rest }) := by
  unfold step
  split <;> simp_all

/-- A host turn: the row of the transaction's key, or the structural access rules. -/
theorem step_of_host {s : State} {t : Transaction} {rest : List Turn} (h : s.schedule = .host t :: rest) :
    step s = match decodeBus t with
      | some i => exec i { s with schedule := rest }
      | none => structuralAccess t { s with schedule := rest } := by
  cases s
  cases h
  rfl

end Sys2Proof.Machine
end

