-- ==== Sys2Proof/Laws/Turn.lean ====
section
/-! SUPPORT. Everything a host turn can do, said once: later proofs about steps are a case analysis over
`TurnEffect` and unfold no meaning. -/

namespace Sys2Proof.Machine

/-- What a host transaction makes of a state (R160 to R180): one constructor for each way it can go. -/
inductive TurnEffect (s : State) (t : Transaction) : State → Prop
  | read (hw : t.we = false) (fifo : List Group) (shadows : Shadows) (w : Word32) (k : Nat)
      (hf : fifo = s.fifo ∨ ∃ g, s.fifo = g :: fifo) :
      TurnEffect s t { s with fifo := fifo, shadows := shadows, response := some w, freeCount := k }
  | ignored (hw : t.we = true) (hf : s.fsr.state = .fault)
      (hn : ¬(t.addr = 0x10 ∧ decodeCommand s.build.cMax t.data = some .srst)) :
      TurnEffect s t { s with response := none }
  | reset (hw : t.we = true) (ha : t.addr = 0x10) (hc : decodeCommand s.build.cMax t.data = some .srst) :
      TurnEffect s t { resetBlock s with response := none }
  | fault (hw : t.we = true) (hf : s.fsr.state ≠ .fault) (code : ErrCode) (hc : code ≠ .none) :
      TurnEffect s t (faulted code t.addr t.data s)
  | nop (hw : t.we = true) (hf : s.fsr.state ≠ .fault) : TurnEffect s t { s with response := none }
  | start (hw : t.we = true) (ha : t.addr = 0x10) (hc : decodeCommand s.build.cMax t.data = some .start)
      (hs : s.fsr.state = .idle ∨ s.fsr.state = .done) (hq : s.fifo = []) (h1 : 1 ≤ s.regs.chCount.toNat)
      (h2 : s.regs.chCount.toNat ≤ s.build.cMax) (h3 : s.build.l * durationOf s ≤ 2 ^ 64 - 1) :
      TurnEffect s t
        { freshStream s (if s.regs.duration = 0 then .draining else .filling) with response := none }
  | abort (hw : t.we = true) (ha : t.addr = 0x10) (hc : decodeCommand s.build.cMax t.data = some .abort)
      (hf : s.fsr.state ≠ .fault) : TurnEffect s t { abandonStream s with response := none }
  | nsStep (hw : t.we = true) (hs : s.fsr.state = .idle ∨ s.fsr.state = .done) (ch : BitVec 8)
      (hc : ch.toNat < s.build.cMax) (r : Lane × Bool) (hr : r = nsStep (laneAt s ch.toNat) s.regs.data0) :
      TurnEffect s t
        { setLane s ch.toNat r.1 with
          regs := { s.regs with result := 0x80000000#32 ||| bitWord r.2 }
          response := none }
  | nsLoad (hw : t.we = true) (hs : s.fsr.state = .idle ∨ s.fsr.state = .done) (ch : BitVec 8)
      (hc : ch.toNat < s.build.cMax) (z : Bool) (z1 z2 : F32) :
      TurnEffect s t
        { setLane s ch.toNat { laneAt s ch.toNat with z := z, z1 := z1, z2 := z2 } with response := none }
  | configure (hw : t.we = true) (hs : s.fsr.state = .idle ∨ s.fsr.state = .done) (regs : HostRegs)
      (hr : regs.result = s.regs.result) : TurnEffect s t { s with regs := regs, response := none }
  | operand (hw : t.we = true) (hf : s.fsr.state ≠ .fault) (regs : HostRegs)
      (hr : regs.result = s.regs.result) (hc : regs.chCount = s.regs.chCount)
      (hd : regs.duration = s.regs.duration) : TurnEffect s t { s with regs := regs, response := none }
  | sample (hw : t.we = true) (ha : t.addr = 0x30) (hs : s.fsr.state = .filling)
      (hv : isFinite t.data = true) : TurnEffect s t { acceptSample t.data s with response := none }

/-- The errors of START's rule have a code. -/
theorem startStream_error {s : State} {code : ErrCode} (h : startStream s = .error code) : code ≠ .none := by
  unfold startStream at h
  repeat' split at h
  all_goals cases h <;> simp

theorem testStep_error {ch : BitVec 8} {s : State} {code : ErrCode} (h : testStep ch s = .error code) :
    code ≠ .none := by
  unfold testStep at h
  repeat' split at h
  all_goals cases h <;> simp

theorem testLoad_error {ch : BitVec 8} {s : State} {code : ErrCode} (h : testLoad ch s = .error code) :
    code ≠ .none := by
  unfold testLoad at h
  repeat' split at h
  all_goals cases h <;> simp

theorem pushSample_error {v : Word32} {s : State} {code : ErrCode} (h : pushSample v s = .error code) :
    code ≠ .none := by
  unfold pushSample at h
  repeat' split at h
  all_goals cases h <;> simp

theorem configure_error {s : State} {regs : HostRegs} {code : ErrCode} (h : configure s regs = .error code) :
    code ≠ .none := by
  unfold configure at h
  split at h
  · cases h
  · cases h; simp

/-- A write under the preamble: ignored, in error, or its rule's effect. -/
theorem TurnEffect.of_write {s u : State} {t : Transaction} {rule : State → Except ErrCode State}
    (hw : t.we = true) (h : hostWrite t.addr t.data s rule = .next u)
    (hn : s.fsr.state = .fault → ¬(t.addr = 0x10 ∧ decodeCommand s.build.cMax t.data = some .srst))
    (herr : ∀ code, rule s = .error code → code ≠ .none)
    (hok : ∀ v, s.fsr.state ≠ .fault → rule s = .ok v → TurnEffect s t { v with response := none }) :
    TurnEffect s t u := by
  rcases hostWrite_cases h with ⟨hf, rfl⟩ | ⟨hf, v, hv, rfl⟩ | ⟨hf, code, hc, rfl⟩
  · exact .ignored hw hf (hn hf)
  · exact hok v hf hv
  · exact .fault hw hf code (herr code hc)

/-- Every read leaves all but the FIFO, the shadows and the answer. -/
theorem readRow_effect {s u : State} {t : Transaction} {i : Instr} (hw : t.we = false)
    (hi : readRow t.addr = some i) (h : exec i s = .next u) : TurnEffect s t u := by
  have plain : ∀ w, hostRead w s = .next u → TurnEffect s t u := by
    intro w hr
    obtain rfl := Host.Outcome.next.inj hr
    exact .read hw s.fifo s.shadows w s.freeCount (.inl rfl)
  have latch : ∀ w sh, hostRead w { s with shadows := sh } = .next u → TurnEffect s t u := by
    intro w sh hr
    obtain rfl := Host.Outcome.next.inj hr
    exact .read hw s.fifo sh w s.freeCount (.inl rfl)
  have free : ∀ shape, hostReadFree shape s = .next u → TurnEffect s t u := by
    intro shape hr
    obtain rfl := Host.Outcome.next.inj hr
    exact .read hw s.fifo s.shadows _ _ (.inl rfl)
  have integrator : ∀ a, integratorRead a s = .next u → TurnEffect s t u := by
    intro a hr
    unfold integratorRead at hr
    split at hr
    · exact free _ hr
    · exact plain _ hr
  have debug : ∀ view : Lane → Answer, (∀ l, view l = .next u → TurnEffect s t u) →
      debugRead s view = .next u → TurnEffect s t u := by
    intro view hv hr
    unfold debugRead at hr
    split at hr
    · exact free _ hr
    · split at hr
      · exact plain _ hr
      · exact hv _ hr
  have pop : execRdBitsOut s = .next u → TurnEffect s t u := by
    intro hr
    unfold execRdBitsOut at hr
    split at hr
    · exact plain _ hr
    · rename_i g rest hg
      obtain rfl := Host.Outcome.next.inj hr
      exact .read hw rest s.shadows _ s.freeCount (.inr ⟨g, hg⟩)
  unfold readRow at hi
  split at hi
  all_goals
    first
    | cases hi; done
    | (obtain rfl := Option.some.inj hi
       first
       | exact pop h
       | exact debug (fun l => hostRead _ s) (fun l => plain _) h
       | exact debug (fun l => integratorRead _ s) (fun l => integrator _) h
       | exact plain _ h
       | exact latch _ _ h)

/-- What a command does, as a write of its word to CMD. -/
theorem command_effect {s u : State} {t : Transaction} {c : Command} (hw : t.we = true) (ha : t.addr = 0x10)
    (hc : decodeCommand s.build.cMax t.data = some c) (hword : encodeCommand c = t.data)
    (h : exec c.toInstr s = .next u) : TurnEffect s t u := by
  have hne : ∀ d : Command, d ≠ .srst → c = d →
      s.fsr.state = .fault → ¬(t.addr = 0x10 ∧ decodeCommand s.build.cMax t.data = some .srst) := by
    intro d hd hcd _ hx
    rw [hc] at hx
    exact hd (hcd ▸ Option.some.inj hx.2)
  cases c with
  | srst =>
    obtain rfl := Host.Outcome.next.inj (h : Host.Outcome.next _ = _)
    exact .reset hw ha hc
  | nop =>
    rw [show exec Command.nop.toInstr s = hostWrite t.addr t.data s .ok by rw [ha, ← hword]; rfl] at h
    exact .of_write hw h (hne _ (by simp) rfl) (fun _ hr => by cases hr) fun v hf hv => by
      obtain rfl := Except.ok.inj hv
      exact .nop hw hf
  | start =>
    rw [show exec Command.start.toInstr s = hostWrite t.addr t.data s startStream by rw [ha, ← hword]; rfl] at h
    exact .of_write hw h (hne _ (by simp) rfl) (fun _ => startStream_error) fun v hf hv => by
      obtain ⟨h1, h2, h3, h4, h5, rfl⟩ := startStream_ok hv
      exact .start hw ha hc h1 h2 h3 h4 h5
  | abort =>
    rw [show exec Command.abort.toInstr s = hostWrite t.addr t.data s (fun s => .ok (abandonStream s)) by
      rw [ha, ← hword]; rfl] at h
    exact .of_write hw h (hne _ (by simp) rfl) (fun _ hr => by cases hr) fun v hf hv => by
      obtain rfl := Except.ok.inj hv
      exact .abort hw ha hc hf
  | nsStep ch =>
    rw [show exec (Command.nsStep ch).toInstr s = hostWrite t.addr t.data s (testStep ch) by
      rw [ha, ← hword]; rfl] at h
    exact .of_write hw h (hne _ (by simp) rfl) (fun _ => testStep_error) fun v hf hv => by
      obtain ⟨h1, h2, h3, rfl⟩ := testStep_ok hv
      exact .nsStep hw h2 ch h1 _ rfl
  | nsLoad ch =>
    rw [show exec (Command.nsLoad ch).toInstr s = hostWrite t.addr t.data s (testLoad ch) by
      rw [ha, ← hword]; rfl] at h
    exact .of_write hw h (hne _ (by simp) rfl) (fun _ => testLoad_error) fun v hf hv => by
      obtain ⟨h1, h2, h3, h4, rfl⟩ := testLoad_ok hv
      exact .nsLoad hw h2 ch h1 _ _ _

/-- The address decoded by a row of the write table is none of another register's. -/
theorem writeRow_effect {s u : State} {t : Transaction} {i : Instr} (hw : t.we = true)
    (hcanon : ∀ c, decodeCommand s.build.cMax t.data = some c → encodeCommand c = t.data)
    (hi : writeRow t.addr t.data = some i) (h : exec i s = .next u) : TurnEffect s t u := by
  have haddr : ∀ k : Nat, k < 256 → t.addr.toNat = k → t.addr = BitVec.ofNat 8 k := by
    intro k hk ht
    apply BitVec.eq_of_toNat_eq
    rw [ht, BitVec.toNat_ofNat, Nat.mod_eq_of_lt hk]
  have write : ∀ (addr : BitVec 8) (rule : State → Except ErrCode State), t.addr = addr → addr ≠ 0x10 →
      hostWrite addr t.data s rule = .next u → (∀ code, rule s = .error code → code ≠ .none) →
      (∀ v, s.fsr.state ≠ .fault → rule s = .ok v → TurnEffect s t { v with response := none }) →
      TurnEffect s t u := by
    intro addr rule ha hne hr
    subst ha
    exact .of_write hw hr fun _ hx => hne hx.1
  have config : ∀ (addr : BitVec 8) (f : State → HostRegs), t.addr = addr → addr ≠ 0x10 →
      hostWrite addr t.data s (fun s => configure s (f s)) = .next u → (f s).result = s.regs.result →
      TurnEffect s t u := by
    intro addr f ha hne hr hres
    refine write addr _ ha hne hr (fun _ => configure_error) fun v hf hv => ?_
    obtain ⟨h1, rfl⟩ := configure_ok hv
    exact .configure hw h1 _ hres
  have operand : ∀ (addr : BitVec 8) (f : State → HostRegs), t.addr = addr → addr ≠ 0x10 →
      hostWrite addr t.data s (fun s => .ok { s with regs := f s }) = .next u →
      (f s).result = s.regs.result → (f s).chCount = s.regs.chCount → (f s).duration = s.regs.duration →
      TurnEffect s t u := by
    intro addr f ha hne hr h1 h2 h3
    refine write addr _ ha hne hr (fun _ hx => by cases hx) fun v hf hv => ?_
    obtain rfl := Except.ok.inj hv
    exact .operand hw hf _ h1 h2 h3
  unfold writeRow at hi
  split at hi
  case h_1 ht =>
    obtain rfl := Option.some.inj hi
    have ha := haddr 0x10 (by decide) ht
    cases hc : decodeCommand s.build.cMax t.data with
    | some c =>
      rw [exec_wrCmd_of_some hc] at h
      exact command_effect hw ha hc (hcanon c hc) h
    | none =>
      rw [exec_wrCmd_of_none hc] at h
      rw [show (0x10 : BitVec 8) = t.addr from ha.symm] at h
      refine .of_write hw h (fun _ hx => by rw [hc] at hx; cases hx.2) (fun _ hx => ?_) (fun _ _ hx => by cases hx)
      cases hx
      simp
  case h_6 ht =>
    obtain rfl := Option.some.inj hi
    have ha := haddr 0x30 (by decide) ht
    refine write _ _ ha (by decide) (h : hostWrite 0x30 t.data s (pushSample t.data) = _)
      (fun _ => pushSample_error) fun v hf hv => ?_
    obtain ⟨h1, h2, rfl⟩ := pushSample_ok hv
    exact .sample hw ha h1 h2
  case h_2 ht =>
    obtain rfl := Option.some.inj hi
    exact operand _ _ (haddr 0x20 (by decide) ht) (by decide) ((exec_wrIrqEn _ s).symm.trans h) rfl rfl rfl
  case h_3 ht =>
    obtain rfl := Option.some.inj hi
    exact config _ _ (haddr 0x24 (by decide) ht) (by decide) ((exec_wrChCount _ s).symm.trans h) rfl
  case h_4 ht =>
    obtain rfl := Option.some.inj hi
    exact config _ _ (haddr 0x28 (by decide) ht) (by decide) ((exec_wrDurationLo _ s).symm.trans h) rfl
  case h_5 ht =>
    obtain rfl := Option.some.inj hi
    exact config _ _ (haddr 0x2C (by decide) ht) (by decide) ((exec_wrDurationHi _ s).symm.trans h) rfl
  case h_7 ht =>
    obtain rfl := Option.some.inj hi
    exact operand _ _ (haddr 0x58 (by decide) ht) (by decide) ((exec_wrChSel _ s).symm.trans h) rfl rfl rfl
  case h_8 ht =>
    obtain rfl := Option.some.inj hi
    exact operand _ _ (haddr 0x68 (by decide) ht) (by decide) ((exec_wrData0 _ s).symm.trans h) rfl rfl rfl
  case h_9 ht =>
    obtain rfl := Option.some.inj hi
    exact operand _ _ (haddr 0x6C (by decide) ht) (by decide) ((exec_wrData1 _ s).symm.trans h) rfl rfl rfl
  case h_10 ht =>
    obtain rfl := Option.some.inj hi
    exact operand _ _ (haddr 0x70 (by decide) ht) (by decide) ((exec_wrData2 _ s).symm.trans h) rfl rfl rfl
  case h_11 => cases hi

/-- Everything a host turn can do. The premise is that a word that decodes to a command is that command's. -/
theorem hostTurn_effect {s u : State} {t : Transaction} {rest : List Turn} (hs : s.schedule = .host t :: rest)
    (hcanon : ∀ c, decodeCommand s.build.cMax t.data = some c → encodeCommand c = t.data)
    (h : step s = .next u) : TurnEffect { s with schedule := rest } t u := by
  rw [step_of_host hs] at h
  cases hd : decodeBus t with
  | some i =>
    rw [hd] at h
    unfold decodeBus at hd
    split at hd
    · exact writeRow_effect ‹_› hcanon hd h
    · exact readRow_effect (Bool.eq_false_iff.2 ‹_›) hd h
  | none =>
    rw [hd] at h
    cases hw : t.we with
    | false =>
      have hr : hostRead 0 { s with schedule := rest } = .next u := by
        simpa [structuralAccess, hw] using h
      obtain rfl := Host.Outcome.next.inj hr
      exact .read hw s.fifo s.shadows 0 s.freeCount (.inl rfl)
    | true =>
      have hr : hostWrite t.addr t.data { s with schedule := rest } (fun _ => .error .badAccess) = .next u := by
        simpa only [structuralAccess, hw, if_true] using h
      refine .of_write hw hr (fun _ hx => ?_) (fun _ hx => ?_) (fun _ _ hx => by cases hx)
      · unfold decodeBus at hd
        rw [hw, hx.1] at hd
        cases hd
      · cases hx
        simp

end Sys2Proof.Machine
end

