-- ==== Sys2Proof/Machine/HostSyntax.lean ====
section
/-! DEFINITION. The host program syntax of R133 and R134: what each line stands for as transactions. -/

namespace Sys2Proof.Machine

/-- The register names of R81. -/
inductive RegName where
  | id | paramN | paramL | paramC | cmd | status | errAddr | errData | irqEn | chCount | durationLo
  | durationHi | sampleIn | bitsOut | outLevel | fillPos | frameIdxLo | frameIdxHi | inCountLo | inCountHi
  | outCountLo | outCountHi | chSel | dbgZ | dbgZ1 | dbgZ2 | data0 | data1 | data2 | result
deriving DecidableEq, Repr

/-- `offset(REG)` (R81). -/
def offsetOf (r : RegName) : BitVec 8 :=
  match r with
  | .id => 0x00 | .paramN => 0x04 | .paramL => 0x08 | .paramC => 0x0C | .cmd => 0x10 | .status => 0x14
  | .errAddr => 0x18 | .errData => 0x1C | .irqEn => 0x20 | .chCount => 0x24 | .durationLo => 0x28
  | .durationHi => 0x2C | .sampleIn => 0x30 | .bitsOut => 0x34 | .outLevel => 0x38 | .fillPos => 0x3C
  | .frameIdxLo => 0x40 | .frameIdxHi => 0x44 | .inCountLo => 0x48 | .inCountHi => 0x4C
  | .outCountLo => 0x50 | .outCountHi => 0x54 | .chSel => 0x58 | .dbgZ => 0x5C | .dbgZ1 => 0x60
  | .dbgZ2 => 0x64 | .data0 => 0x68 | .data1 => 0x6C | .data2 => 0x70 | .result => 0x74

/-- A `<value>` of R133: a word, or `f:<decimal>` written as digits over a power of ten. -/
inductive Value where
  | word (w : Word32)
  | decimal (neg : Bool) (digits places : Nat)
deriving DecidableEq, Repr

/-- The word of a value: `f:<decimal>` is the bit pattern of the decimal rounded to binary32. A
zero result keeps the sign the decimal is written with: R133 does not say which zero (log 23). -/
def Value.bits (v : Value) : Word32 :=
  match v with
  | .word w => w
  | .decimal neg digits places => roundRatio neg digits (10 ^ places)

/-- The 64-bit counters of RD64. -/
inductive Counter where
  | frameIdx
  | inCount
  | outCount
deriving DecidableEq, Repr

/-- One line of a host program (R133) or one pseudo-instruction (R134). WAIT is a loop of the host over
`RD STATUS`, not a transaction, so it is no line of its own here. -/
inductive Line where
  | wr (r : RegName) (v : Value)
  | rd (r : RegName)
  | command (c : Command)
  | push (v : Value)
  | pop
  | wr64Duration (d : BitVec 64)
  | rd64 (c : Counter)
  | nsSet (ch : BitVec 8) (zbit z1 z2 : Value)
deriving DecidableEq, Repr

/-- `WR <REG>, <value>` as a transaction. -/
def wrLine (r : RegName) (v : Value) : Transaction := writeOf (offsetOf r) v.bits
/-- `RD <REG>` as a transaction. -/
def rdLine (r : RegName) : Transaction := readOf (offsetOf r)
/-- A command line as a transaction: a write of its word to CMD. -/
def commandLine (c : Command) : Transaction := writeOf (offsetOf .cmd) (encodeCommand c)

/-- The expansion of a line (R133, R134). -/
def expand (line : Line) : List Transaction :=
  match line with
  | .wr r v => [wrLine r v]
  | .rd r => [rdLine r]
  | .command c => [commandLine c]
  | .push v => [wrLine .sampleIn v]
  | .pop => [rdLine .bitsOut]
  | .wr64Duration d => [wrLine .durationLo (.word (lowWord d)), wrLine .durationHi (.word (highWord d))]
  | .rd64 .frameIdx => [rdLine .frameIdxLo, rdLine .frameIdxHi]
  | .rd64 .inCount => [rdLine .inCountLo, rdLine .inCountHi]
  | .rd64 .outCount => [rdLine .outCountLo, rdLine .outCountHi]
  | .nsSet ch zbit z1 z2 =>
    [wrLine .data0 zbit, wrLine .data1 z1, wrLine .data2 z2, commandLine (.nsLoad ch)]

/-- The schedule EAGER of 95_test_vectors: after each host transaction the core runs for as long as a frame
step is enabled. Two turns are enough: of two frame steps in a row only the first can push nothing (R298),
and a pushed group disables the next. -/
def eager (lines : List Line) : List Turn :=
  (lines.flatMap expand).flatMap fun t => [.host t, .core, .core]

end Sys2Proof.Machine
end

