-- ==== Sys2Proof/Tests/Slice0.lean ====
section
/-! SUPPORT. The author's own tests. Expected values are the derived vectors of spec/95_test_vectors.md, named in
the comments, or are read off the tables of spec/. For each obligation with hypotheses a theorem `meets_…` shows
concrete values that meet them all. -/

namespace Sys2Proof.Tests

open Sys2Proof Sys2Proof.Machine

set_option Elab.async false

/-- N = 2, L = 2, C_MAX = 2 and the reference path: the build of the CMD vectors. -/
def demoBuild : Build := { n := 2, l := 2, cMax := 2, outDepth := 2, prf := .ideal }

/-- The block of `demoBuild` in a given STATE, everything else as after reset. The window tables are written out
from WIN. -/
def demo (st : FsrState) : State :=
  { build := demoBuild
    wa := [0, 0x3E5DB3D7#32]
    ws := [0, 0x3EDE2602#32, 0x3F48261C#32, 0x3F7994E0#32]
    lanes := List.replicate 2 (Lane.resetFor demoBuild)
    frameBuf := List.replicate 2 [0, 0]
    fifo := []
    fsr := { Fsr.reset with state := st }
    regs := HostRegs.reset
    err := ErrorRecord.reset
    shadows := Shadows.reset
    schedule := []
    response := none
    freeCount := 0 }

/-- The state a step answers. -/
def after (a : Answer) : State :=
  match a with
  | .next t => t
  | .fault f => nomatch f
  | .refused _ => demo .fault

/-- Whether a next state is answered. -/
def answers (a : Answer) : Bool :=
  match a with
  | .next _ => true
  | .fault _ => false
  | .refused _ => false

theorem next_after {a : Answer} (h : answers a = true) : a = .next (after a) := by
  cases a with
  | next t => rfl
  | fault f => exact nomatch f
  | refused r => cases h

/-- `demo` with other host registers. -/
def withRegs (st : FsrState) (f : HostRegs → HostRegs) : State := { demo st with regs := f (demo st).regs }

/-- `demo` with turns to come. -/
def withTurns (st : FsrState) (turns : List Turn) : State := { demo st with schedule := turns }

/-- What a read returns. -/
def answer (i : Instr) (s : State) : Option Word32 := (after (exec i s)).response

/-! ## WellFormed refuses what it must -/

theorem test_wf_step_lane : (Instr.nsStep 2).wellFormed 2 = false ∧ (Instr.nsStep 1).wellFormed 2 = true := by decide
theorem test_wf_load_lane : (Instr.nsLoad 255).wellFormed 2 = false ∧ (Instr.nsLoad 0).wellFormed 2 = true := by decide
theorem test_wf_build_accepted : demoBuild.valid = true := by decide
theorem test_wf_build_n : { demoBuild with n := 0 }.valid = false := by decide
theorem test_wf_build_l : { demoBuild with l := 0 }.valid = false ∧ { demoBuild with n := 1, l := 2 ^ 16 + 1, outDepth := 2 ^ 17 }.valid = false := by
  decide
theorem test_wf_build_nl : { demoBuild with n := 2 ^ 24, l := 2, outDepth := 2 ^ 26 }.valid = false := by decide
theorem test_wf_build_lanes :
    { demoBuild with cMax := 0 }.valid = false ∧ { demoBuild with cMax := 256, outDepth := 256 }.valid = false := by decide
theorem test_wf_build_depth : { demoBuild with outDepth := 1 }.valid = false := by decide
theorem test_wf_transaction :
    Transaction.onMap ⟨true, 0x14, 0⟩ = false ∧ Transaction.onMap ⟨false, 0x10, 0⟩ = false
      ∧ Transaction.onMap ⟨false, 0x31, 0⟩ = false ∧ Transaction.onMap ⟨true, 0x7C, 5⟩ = false := by decide
theorem test_instantiate_refuses : State.instantiate { demoBuild with cMax := 0 } = .refused .illegalBuild := rfl

/-! ## Decoding: ENC-C, and every key of 30_encoding R127 -/

theorem test_decode_commands :
    decodeCommand 2 0x00000000#32 = some .nop ∧ decodeCommand 2 0x01000000#32 = some .srst
      ∧ decodeCommand 2 0x02000000#32 = some .start ∧ decodeCommand 2 0x03000000#32 = some .abort
      ∧ decodeCommand 2 0x10000000#32 = some (.nsStep 0) ∧ decodeCommand 2 0x10010000#32 = some (.nsStep 1)
      ∧ decodeCommand 2 0x11010000#32 = some (.nsLoad 1) := by decide

theorem test_decode_illegal :
    ([0x00000001, 0x00010000, 0x04000000, 0x10020000, 0x10FF0000, 0x11000001, 0x12000000, 0xFF000000] : List Word32).map
      (decodeCommand 2) = List.replicate 8 none := by decide

/-- Each read key {0, ADDR} and its row. -/
theorem test_decode_reads_low :
    ([0x00, 0x04, 0x08, 0x0C, 0x14, 0x18, 0x1C, 0x20, 0x24, 0x28, 0x2C, 0x34, 0x38, 0x3C] : List (BitVec 8)).map
        (fun a => decodeBus ⟨false, a, 0⟩)
      = [some .rdId, some .rdParamN, some .rdParamL, some .rdParamC, some .rdStatus, some .rdErrAddr, some .rdErrData,
         some .rdIrqEn, some .rdChCount, some .rdDurationLo, some .rdDurationHi, some .rdBitsOut, some .rdOutLevel,
         some .rdFillPos] := by decide

theorem test_decode_reads_high :
    ([0x40, 0x44, 0x48, 0x4C, 0x50, 0x54, 0x58, 0x5C, 0x60, 0x64, 0x68, 0x6C, 0x70, 0x74] : List (BitVec 8)).map
        (fun a => decodeBus ⟨false, a, 0⟩)
      = [some .rdFrameIdxLo, some .rdFrameIdxHi, some .rdInCountLo, some .rdInCountHi, some .rdOutCountLo,
         some .rdOutCountHi, some .rdChSel, some .rdDbgZ, some .rdDbgZ1, some .rdDbgZ2, some .rdData0, some .rdData1,
         some .rdData2, some .rdResult] := by decide

/-- Each write key {1, ADDR} and its row. -/
theorem test_decode_writes :
    ([0x10, 0x20, 0x24, 0x28, 0x2C, 0x30, 0x58, 0x68, 0x6C, 0x70] : List (BitVec 8)).map
        (fun a => decodeBus ⟨true, a, 0xA5000001⟩)
      = [some (.wrCmd 0xA5000001), some (.wrIrqEn 0xA5000001), some (.wrChCount 0xA5000001),
         some (.wrDurationLo 0xA5000001), some (.wrDurationHi 0xA5000001), some (.wrSampleIn 0xA5000001),
         some (.wrChSel 0xA5000001), some (.wrData0 0xA5000001), some (.wrData1 0xA5000001),
         some (.wrData2 0xA5000001)] := by decide

theorem test_decode_no_row :
    decodeBus ⟨true, 0x14, 0⟩ = none ∧ decodeBus ⟨false, 0x30, 0⟩ = none ∧ decodeBus ⟨false, 0x01, 0⟩ = none
      ∧ decodeBus ⟨false, 0x78, 0⟩ = none := by decide

/-- The words as the opcode table numbers them. -/
theorem test_table_words :
    decodeTableWord 32 0x02000000 = some .start ∧ decodeTableWord 16 0x034 = some .rdBitsOut
      ∧ decodeTableWord 16 0x130 = some (.wrSampleIn 0) ∧ decodeTableWord 16 0x210 = none
      ∧ decodeTableWord 48 0x3F0000000130 = some (.wrSampleIn 0x3F000000) := ⟨rfl, rfl, rfl, rfl, rfl⟩

theorem test_step_fetches_the_word :
    (after (step ((demo .idle).withFetchWord 32 0x10000000))).regs.result = 0x80000000#32
      ∧ (after (step ((demo .idle).withFetchWord 16 0x000))).response = some 0x44534431#32 := by decide +kernel

/-! ## Arithmetic and windows -/

/-- 0.5 + 0.25, 2^24 + 1 (a tie, NS-9), the largest value doubled, 1 - 1 = +0, -0 + -0. -/
theorem test_sums :
    fadd 0x3F000000#32 0x3E800000#32 = 0x3F400000#32 ∧ fadd 0x4B800000#32 0x3F800000#32 = 0x4B800000#32
      ∧ fadd 0x7F7FFFFF#32 0x7F7FFFFF#32 = 0x7F800000#32 ∧ fsub 0x3F800000#32 0x3F800000#32 = 0x00000000#32
      ∧ fadd 0x80000000#32 0x80000000#32 = 0x80000000#32 := by decide +kernel

/-- OLA-1's -0, half the smallest subnormal (a tie to zero), and OLA-4's infinity times zero. -/
theorem test_products :
    fmul 0xBE1CC470#32 0x00000000#32 = 0x80000000#32 ∧ fmul 0x00000001#32 0x3F000000#32 = 0x00000000#32
      ∧ isNaN (fmul 0x7F800000#32 0x00000000#32) = true := by decide +kernel

/-- WIN, N = 4, L = 2. -/
theorem test_windows :
    analysisWindow { demoBuild with n := 4 } = [0, 0x3D5E2602#32, 0x3DC8261C#32, 0x3DF994E0#32]
      ∧ synthesisWindow { demoBuild with n := 4 }
        = [0, 0x3E54E6CD#32, 0x3ED03FC9#32, 0x3F167918#32, 0x3F3E3EBD#32, 0x3F5DB3D7#32, 0x3F737871#32, 0x3F7E98FD#32] := by
  decide +kernel

/-- PRF-1, PRF-2 and PRF-3. -/
theorem test_prf_mixed :
    prfFn demoBuild [0, 0x3E800000#32, 0x3F000000#32, 0xBE000000#32]
      = [0x00000000#32, 0x3D95F61A#32, 0x3FE00000#32, 0x3FBE6455#32, 0x40000000#32, 0x3EDA827A#32, 0x3E800000#32,
         0xBF7CC8AA#32] := by decide +kernel
theorem test_prf_impulse :
    prfFn demoBuild [0x3F800000#32, 0, 0, 0]
      = [0x40800000#32, 0x3FB504F3#32, 0x40000000#32, 0xBFB504F3#32, 0x00000000#32, 0xBFB504F3#32, 0x40000000#32,
         0x3FB504F3#32] := by decide +kernel
theorem test_prf_nyquist :
    prfFn demoBuild [0x3F800000#32, 0xBF800000#32, 0x3F800000#32, 0xBF800000#32]
      = [0x40800000#32, 0xC0800000#32, 0x40800000#32, 0xC0800000#32, 0x40800000#32, 0xC0800000#32, 0x40800000#32,
         0xC0800000#32] := by decide +kernel

/-- PRF-6's buffer after the call. -/
theorem test_prf_call :
    (prfCall demoBuild (demo .idle).wa (Lane.resetFor demoBuild) [0x3F000000#32, 0x3F000000#32]).1.inbuf
      = [0, 0x3DDDB3D7#32, 0x3DDDB3D7#32, 0] := by decide +kernel

/-- PRF-6's output, the input of OLA-1. -/
def prf6 : List F32 :=
  [0x00000000#32, 0xBE1CC470#32, 0x3E5DB3D7#32, 0x3E1CC470#32, 0x3EDDB3D7#32, 0x3E1CC470#32, 0x3E5DB3D7#32, 0xBE1CC470#32]

/-- OLA-1. -/
theorem test_ola_first_frame :
    let r := olaCall demoBuild (demo .idle).ws (Lane.resetFor demoBuild) prf6
    r.2 = [0x00000000#32, 0xBD8809A0#32, 0x3E2D5581#32, 0x3E18D63C#32]
      ∧ r.1.tail = [0x3ED824DA#32, 0x3DF5219C#32, 0x3DC062DF#32, 0x80000000#32] := by decide +kernel

/-- NS-2 and NS-12: the shaper's bits; an infinity, then a NaN. -/
theorem test_shaper_half :
    (nsRun (Lane.resetFor demoBuild) (List.replicate 8 0x3F000000#32)).2
      = [false, true, true, false, true, true, true, true] := by decide +kernel
theorem test_shaper_non_finite :
    (nsRun (Lane.resetFor demoBuild) [0x7F800000#32, 0xFF800000#32, 0]).2 = [true, false, false] := by decide +kernel

/-- ENC-G: the 16-bit pattern 0xA5C3 and its first 12 bits. -/
theorem test_groups :
    groupsOf 1 12 [true, false, true, false, false, true, false, true, true, true, false, false, false, false, true, true]
      = [⟨1, 8, 0xA5⟩, ⟨1, 4, 0xC0⟩] := by decide
theorem test_group_word : groupWord ⟨1, 4, 0xB0⟩ = 0x800104B0#32 ∧ groupWord ⟨0, 8, 0x7F⟩ = 0x8000087F#32 := by decide

/-! ## Commands -/

theorem test_nop : (after (exec .nop (demo .filling))) = demo .filling := by decide +kernel
/-- ERR-22. -/
theorem test_srst :
    (after (exec .srst { demo .fault with err := ⟨.illegalCmd, 0x10, 0x04000000#32⟩ })) = demo .idle := by decide +kernel
/-- CMD-12 and ERR-6. -/
theorem test_start :
    statusWord (after (exec .start (withRegs .idle fun r => { r with chCount := 2, duration := 3 }))) = 0x00001011#32 := by
  decide +kernel
theorem test_start_refused :
    statusWord (after (exec .start { demo .done with fifo := [⟨0, 4, 0x60⟩] })) = 0x000002A7#32 := by decide +kernel
/-- CMD-13. -/
theorem test_abort :
    statusWord (after (exec .abort { demo .filling with fifo := [⟨0, 4, 0x60⟩] })) = 0x00000000#32 := by decide +kernel
/-- CMD-14 and ERR-16. -/
theorem test_nsStep :
    let t := after (exec (.nsStep 0) (withRegs .idle fun r => { r with data0 := 0x3F000000#32 }))
    t.regs.result = 0x80000000#32
      ∧ (laneAt t 0).z = false ∧ (laneAt t 0).z1 = 0xBFC00000#32 ∧ (laneAt t 0).z2 = 0xBF000000#32 := by decide +kernel
theorem test_nsStep_not_finite :
    (after (exec (.nsStep 0) (withRegs .idle fun r => { r with data0 := 0x7FC00000#32 }))).err
      = ⟨.badSample, 0x10, 0x10000000#32⟩ := by decide +kernel
/-- ERR-17, and the load of NS-10. -/
theorem test_nsLoad :
    (after (exec (.nsLoad 1) (withRegs .idle fun r => { r with data0 := 2, data1 := 0xBF800000#32 }))).lanes
      = [Lane.resetFor demoBuild, { Lane.resetFor demoBuild with z := false, z1 := 0xBF800000#32 }] := by decide +kernel
theorem test_nsLoad_not_finite :
    (after (exec (.nsLoad 1) (withRegs .idle fun r => { r with data2 := 0xFF800000#32 }))).err
      = ⟨.badSample, 0x10, 0x11010000#32⟩ := by decide +kernel
/-- ERR-1 and ERR-18. -/
theorem test_wrCmd_illegal :
    (after (exec (.wrCmd 0x04000000#32) (demo .idle))).err = ⟨.illegalCmd, 0x10, 0x04000000#32⟩
      ∧ statusWord (after (exec (.wrCmd 0x05000000#32) (demo .filling))) = 0x00000187#32 := by decide +kernel

/-! ## Register writes -/

/-- CMD-6 and ERR-5. -/
theorem test_wrChCount :
    (after (exec (.wrChCount 0x102#32) (demo .idle))).regs.chCount = 2#8
      ∧ (after (exec (.wrChCount 1) (demo .filling))).err = ⟨.badState, 0x24, 1⟩ := by decide +kernel
/-- CMD-7. -/
theorem test_wrIrqEn : (after (exec (.wrIrqEn 0xFFFFFFFF#32) (demo .filling))).regs.irqEn = 0xF#4 := by decide +kernel
/-- CMD-19: D = 2^32, then its low half. -/
theorem test_wrDuration :
    (after (exec (.wrDurationHi 1) (demo .idle))).regs.duration = 0x100000000#64
      ∧ (after (exec (.wrDurationLo 3) (withRegs .done fun r => { r with duration := 0x100000005 }))).regs.duration
        = 0x100000003#64 := by decide +kernel
theorem test_wrChSel : (after (exec (.wrChSel 0x105#32) (demo .resampling))).regs.chSel = 5#8 := by decide +kernel
/-- CMD-8. -/
theorem test_wrData :
    (after (exec (.wrData0 0x7FC00000#32) (demo .idle))).regs.data0 = 0x7FC00000#32
      ∧ (after (exec (.wrData1 1) (demo .idle))).regs.data1 = 1
      ∧ (after (exec (.wrData2 2) (demo .idle))).regs.data2 = 2 := by decide +kernel
/-- CMD-18's first PUSH, and ERR-19. -/
theorem test_wrSampleIn :
    fillPosWord (after (exec (.wrSampleIn 0x3F000000#32)
      (withRegs .filling fun r => { r with chCount := 2, duration := 3 }))) = 0x00000001#32 := by decide +kernel
theorem test_wrSampleIn_not_ready :
    (after (exec (.wrSampleIn 0x7FC00000#32) (demo .idle))).err = ⟨.inNotReady, 0x30, 0x7FC00000#32⟩ := by decide +kernel
/-- CMD-17: the frame completes. -/
theorem test_wrSampleIn_completes :
    let s := withRegs .filling fun r => { r with duration := 3 }
    let t := after (exec (.wrSampleIn 0x3E800000#32) { s with fsr := { s.fsr with pos := 1, inCount := 1 } })
    t.fsr = ⟨.resampling, 0, 2, 0, 0, 0⟩ ∧ t.frameBuf = [[0, 0x3E800000#32], [0, 0]] := by decide +kernel

/-! ## Register reads -/

/-- CMD-1 to CMD-4. -/
theorem test_rdConstants :
    answer .rdId (demo .idle) = some 0x44534431#32 ∧ answer .rdParamN (demo .idle) = some 2
      ∧ answer .rdParamL (demo .idle) = some 2 ∧ answer .rdParamC (demo .idle) = some 2 := by decide +kernel
/-- FILLING with a frame still to discard (CMD-12), and FAULT with ERR-20's code. -/
theorem test_rdStatus :
    answer .rdStatus (demo .filling) = some 0x00001011#32
      ∧ answer .rdStatus { demo .fault with err := ⟨.badAccess, 0x32, 0⟩ } = some 0x00000487#32 := by decide +kernel
theorem test_rdErr :
    answer .rdErrAddr { demo .fault with err := ⟨.badAccess, 0x7C, 5⟩ } = some 0x7C#32
      ∧ answer .rdErrData { demo .fault with err := ⟨.badAccess, 0x7C, 5⟩ } = some 5 := by decide +kernel
/-- ERR-23 and ENC-G: a pop in FAULT; and an empty FIFO. -/
theorem test_rdBitsOut :
    answer .rdBitsOut { demo .fault with fifo := [⟨0, 4, 0x60⟩] } = some 0x80000460#32
      ∧ (after (exec .rdBitsOut { demo .fault with fifo := [⟨0, 4, 0x60⟩] })).fifo = []
      ∧ answer .rdBitsOut (demo .done) = some 0 := by decide +kernel
/-- CMD-10: the low half, and the latched high half. -/
theorem test_rdInCount :
    let t := after (exec .rdInCountLo { demo .idle with fsr := { Fsr.reset with inCount := 0x100000002 } })
    t.response = some 2 ∧ answer .rdInCountHi t = some 1 := by decide +kernel
theorem test_rdOutCount :
    let t := after (exec .rdOutCountLo { demo .idle with fsr := { Fsr.reset with outCount := 0x300000004 } })
    t.response = some 4 ∧ answer .rdOutCountHi t = some 3 := by decide +kernel
theorem test_rdFrameIdx :
    let t := after (exec .rdFrameIdxLo { demo .idle with fsr := { Fsr.reset with frameIdx := 0x500000006 } })
    t.response = some 6 ∧ answer .rdFrameIdxHi t = some 5 ∧ t.shadows = ⟨5, 0, 0⟩ := by decide +kernel
/-- CMD-18 after the second PUSH: POS = 1. -/
theorem test_rdFillPos :
    answer .rdFillPos { demo .filling with fsr := { Fsr.reset with pos := 1, chPtr := 0 } } = some 0x00000100#32 := by
  decide +kernel
/-- CMD-4 and CMD-5. -/
theorem test_rdDbg :
    answer .rdDbgZ (demo .idle) = some 1 ∧ answer .rdDbgZ1 (demo .idle) = some 0 ∧ answer .rdDbgZ2 (demo .idle) = some 0
      ∧ answer .rdDbgZ (withRegs .idle fun r => { r with chSel := 5 }) = some 0 := by decide +kernel
/-- The plain registers, each with a value of its own. -/
theorem test_rdPlain :
    let s := withRegs .idle fun _ => ⟨7, 0x900000008, 0xA, 11, 12, 13, 14, 0x80000001#32⟩
    answer .rdChCount s = some 7 ∧ answer .rdDurationLo s = some 8 ∧ answer .rdDurationHi s = some 9
      ∧ answer .rdIrqEn s = some 0xA ∧ answer .rdChSel s = some 11 ∧ answer .rdData0 s = some 12
      ∧ answer .rdData1 s = some 13 ∧ answer .rdData2 s = some 14 ∧ answer .rdResult s = some 0x80000001#32
      ∧ answer .rdOutLevel { s with fifo := [⟨0, 4, 0x60⟩] } = some 1 := by decide +kernel

/-! ## The step -/

/-- ERR-11, ERR-12 and ERR-13; CMD-9. -/
theorem test_structural_writes :
    (after (step (withTurns .idle [.host (writeOf 0x7C 5)]))).err = ⟨.badAccess, 0x7C, 5⟩
      ∧ (after (step (withTurns .idle [.host (writeOf 0x31 0)]))).err = ⟨.badAccess, 0x31, 0⟩
      ∧ (after (step (withTurns .idle [.host (writeOf 0x14 0)]))).err = ⟨.badAccess, 0x14, 0⟩ := by decide +kernel
theorem test_structural_reads :
    ([0x10, 0x30, 0x78, 0x01] : List (BitVec 8)).map (fun a => (after (step (withTurns .idle [.host (readOf a)]))))
      = List.replicate 4 { demo .idle with response := some 0 } := by decide +kernel

/-- P3 before its frame step 1: the lane as PRF-6, OLA-1 and NS leave it is not needed for the counters. -/
def p3Frame : State :=
  { withRegs .resampling fun r => { r with duration := 3 } with
    fsr := ⟨.resampling, 1, 3, 0, 0, 0⟩, frameBuf := [[0x3F000000#32, 0], [0, 0]] }

/-- FS-9: after step 1 of P3 the tuple is (DRAINING, 2, 3, 0, 4), and one group of 4 bits is pushed. -/
theorem test_frame_step :
    let t := after (step p3Frame)
    t.fsr = ⟨.draining, 2, 3, 4, 0, 0⟩ ∧ t.fifo.map Group.nbits = [4] ∧ statusWord t = 0x00000023#32 := by decide +kernel
/-- P2: the one step of an empty stream ends it; its idle bits are discarded. -/
theorem test_empty_stream :
    (after (step (demo .draining))) = { demo .done with fsr := ⟨.done, 1, 0, 0, 0, 0⟩ } := by decide +kernel
/-- IRQ-2, IRQ-3, IRQ-4, IRQ-6. -/
theorem test_irq :
    irq (withRegs .filling fun r => { r with irqEn := 1 }) = true
      ∧ irq (withRegs .resampling fun r => { r with irqEn := 1 }) = false
      ∧ irq { withRegs .idle (fun r => { r with irqEn := 2 }) with fifo := [⟨0, 4, 0x60⟩] } = true
      ∧ irq (withRegs .fault fun r => { r with irqEn := 8 }) = true := by decide +kernel
/-- The values of R133: f:0.5 and f:-1 (P1, P3). -/
theorem test_values :
    Value.bits (.decimal false 5 1) = 0x3F000000#32 ∧ Value.bits (.decimal true 1 0) = 0xBF800000#32 := by decide +kernel
theorem test_expand :
    expand (.nsSet 0 (.word 0) (.decimal true 1 0) (.word 0))
      = [⟨true, 0x68, 0⟩, ⟨true, 0x6C, 0xBF800000#32⟩, ⟨true, 0x70, 0⟩, ⟨true, 0x10, 0x11000000#32⟩] := by decide +kernel

/-! ## Values that meet the hypotheses of the obligations -/

/-- The invariant as one decidable statement. -/
abbrev InvData (s : State) : Prop :=
  (s.build.valid = true ∧ s.wa.length = s.build.n ∧ s.ws.length = s.build.nl ∧ s.lanes.length = s.build.cMax
    ∧ (∀ l ∈ s.lanes, l.inbuf.length = 2 * s.build.n) ∧ (∀ l ∈ s.lanes, l.tail.length = s.build.nl)
    ∧ s.frameBuf.length = s.build.cMax ∧ (∀ r ∈ s.frameBuf, r.length = s.build.n)
    ∧ s.fifo.length ≤ s.build.outDepth ∧ (∀ g ∈ s.fifo, groupOk s.build g = true))
  ∧ ((streaming s → 1 ≤ s.regs.chCount.toNat ∧ s.regs.chCount.toNat ≤ s.build.cMax)
    ∧ (streaming s → s.build.l * durationOf s ≤ 2 ^ 64 - 1)
    ∧ (streaming s →
        s.fsr.outCount.toNat = min (s.build.l * durationOf s) ((s.fsr.frameIdx.toNat - 1) * s.build.nl))
    ∧ (s.fsr.state = .filling →
        s.fsr.inCount.toNat < durationOf s ∧ s.fsr.pos.toNat < s.build.n
          ∧ s.fsr.chPtr.toNat < s.regs.chCount.toNat
          ∧ s.fsr.inCount.toNat = s.fsr.frameIdx.toNat * s.build.n + s.fsr.pos.toNat)
    ∧ (s.fsr.state = .resampling →
        s.fsr.pos = 0 ∧ s.fsr.chPtr = 0 ∧ s.fsr.frameIdx.toNat * s.build.n < durationOf s
          ∧ s.fsr.inCount.toNat = min (durationOf s) ((s.fsr.frameIdx.toNat + 1) * s.build.n))
    ∧ (s.fsr.state = .draining →
        s.fsr.inCount.toNat = durationOf s ∧ s.fsr.frameIdx.toNat = ceilDiv (durationOf s) s.build.n))
  ∧ ((s.fsr.state ≠ .fault → s.err = ErrorRecord.reset) ∧ (s.fsr.state = .fault → s.err.code ≠ .none)
    ∧ (s.frameBuf.all fun r => r.all isFinite) = true
    ∧ (s.regs.result = 0x00000000#32 ∨ s.regs.result = 0x80000000#32 ∨ s.regs.result = 0x80000001#32))

theorem inv_of {s : State} (h : InvData s) : Inv s := by
  obtain ⟨⟨h1, h2, h3, h4, h5, h6, h7, h8, h9, h10⟩, ⟨h11, h12, h13, h14, h15, h16⟩, h17, h18, h19, h20⟩ := h
  refine ⟨⟨h1, h2, h3, h4, h5, h6, h7, h8, h9, h10⟩, ⟨h11, h12, h13, h14, h15, h16⟩, ⟨h17, h18, ?_, h20⟩⟩
  exact fun r hr v hv => List.all_eq_true.1 (List.all_eq_true.1 h19 r hr) v hv

/-- `demo` with one channel and the given D, FSR and turns. -/
def stream (d : BitVec 64) (fsr : Fsr) (turns : List Turn) : State :=
  { withRegs fsr.state (fun r => { r with duration := d }) with fsr := fsr, schedule := turns }

/-- One state before each kind of change of STATE (R291). -/
def turning : List State :=
  [stream 0 ⟨.idle, 0, 0, 0, 0, 0⟩ [.host (writeOf 0x10 0x02000000)],
   stream 3 ⟨.done, 0, 0, 0, 0, 0⟩ [.host (writeOf 0x10 0x02000000)],
   stream 1 ⟨.filling, 0, 0, 0, 0, 0⟩ [.host (writeOf 0x30 0x3F000000)],
   stream 3 ⟨.resampling, 0, 2, 0, 0, 0⟩ [],
   stream 2 ⟨.resampling, 0, 2, 0, 0, 0⟩ [.core]]
  ++
  [stream 0 ⟨.draining, 0, 0, 0, 0, 0⟩ [.core],
   stream 3 ⟨.filling, 1, 2, 0, 0, 0⟩ [.host (writeOf 0x10 0x03000000)],
   { stream 3 ⟨.fault, 1, 2, 0, 0, 0⟩ [.host (writeOf 0x10 0x01000000)] with err := ⟨.badAccess, 0x7C, 5⟩ },
   stream 3 ⟨.draining, 2, 3, 4, 0, 0⟩ [.reset],
   stream 3 ⟨.idle, 0, 0, 0, 0, 0⟩ [.host (writeOf 0x7C 5)]]

theorem meets_DecodeInvertsEncode : (Instr.nsStep 1).wellFormed 2 = true := by decide

theorem meets_CommandWordsAreCanonical : decodeCommand 2 0x11010000#32 = some (.nsLoad 1) := by decide

theorem meets_ReservedWordsAreIllegal :
    (demo .idle).fsr.state ≠ .fault
      ∧ ∀ p ∈ [(0x01, 0, 0xFFFF), (0x04, 0, 0), (0x0F, 0, 0), (0x12, 0, 0), (0x03, 1, 0), (0x10, 2, 0), (0x11, 255, 0)],
        (BitVec.ofNat 32 (p.1 * 2 ^ 24 + p.2.1 * 2 ^ 16 + p.2.2)).toNat = p.1 * 2 ^ 24 + p.2.1 * 2 ^ 16 + p.2.2
          ∧ p.2.1 < 2 ^ 8 ∧ p.2.2 < 2 ^ 16
          ∧ (p.2.2 ≠ 0 ∨ (0x04 ≤ p.1 ∧ p.1 ≤ 0x0F) ∨ 0x12 ≤ p.1 ∨ (p.1 ≤ 0x03 ∧ p.2.1 ≠ 0)
            ∨ ((p.1 = 0x10 ∨ p.1 = 0x11) ∧ (demo .idle).build.cMax ≤ p.2.1)) := by decide

theorem meets_StepRunsTheDecodedInstruction :
    let t := writeOf 0x10 0x10010000#32
    (withTurns .idle [.host t]).schedule = .host t :: [] ∧ decodeBus t = some (.wrCmd 0x10010000#32)
      ∧ t.we = true ∧ t.addr = 0x10 ∧ decodeCommand 2 t.data = some (.nsStep 1) := by decide

theorem meets_StructuralAccessRules :
    (∀ a ∈ [0x03, 0x31, 0x78, 0xFC, 0x14, 0x74],
      (withTurns .idle [.host (writeOf a 5)]).schedule = .host (writeOf a 5) :: []
        ∧ (writeOf a 5).we = true ∧ (withTurns .idle [.host (writeOf a 5)]).fsr.state ≠ .fault
        ∧ ((writeOf a 5).addr.toNat % 4 ≠ 0 ∨ 0x78 ≤ (writeOf a 5).addr.toNat
          ∨ accessAt (writeOf a 5).addr = some .ro))
    ∧ ∀ a ∈ [0x03, 0x78, 0x10, 0x30],
      (withTurns .idle [.host (readOf a)]).schedule = .host (readOf a) :: [] ∧ (readOf a).we = false
        ∧ ((readOf a).addr.toNat % 4 ≠ 0 ∨ 0x78 ≤ (readOf a).addr.toNat ∨ accessAt (readOf a).addr = some .wo) := by
  decide

theorem meets_FaultGateIgnoresWrites :
    ∀ t ∈ [writeOf 0x7C 5, writeOf 0x10 0x02000000, writeOf 0x14 0x01000000],
      (withTurns .fault [.host t]).schedule = .host t :: [] ∧ t.we = true
        ∧ (withTurns .fault [.host t]).fsr.state = .fault ∧ ¬(t.addr = 0x10 ∧ t.data = 0x01000000#32) := by decide

theorem meets_FaultEntryRecordsTheWrite :
    (answers (step (withTurns .idle [.host (writeOf 0x7C 5)])) = true
      ∧ (after (step (withTurns .idle [.host (writeOf 0x7C 5)]))).fsr.state = .fault
      ∧ (withTurns .idle [.host (writeOf 0x7C 5)]).fsr.state ≠ .fault)
    ∧ answers (step (withTurns .fault [.core])) = true ∧ (after (step (withTurns .fault [.core]))).fsr.state = .fault
      ∧ (withTurns .fault [.core]).fsr.state = .fault := by decide +kernel

theorem meets_StateChangesOnlyByTheTable :
    ∀ s ∈ turning, Inv s ∧ ∃ t, step s = .next t ∧ t.fsr.state ≠ s.fsr.state := by
  have h : (turning.all fun s =>
      decide (InvData s) && (answers (step s) && decide ((after (step s)).fsr.state ≠ s.fsr.state))) = true := by
    decide +kernel
  intro s hs
  have hs' := List.all_eq_true.1 h s hs
  simp only [Bool.and_eq_true, decide_eq_true_eq] at hs'
  exact ⟨inv_of hs'.1, _, next_after hs'.2.1, hs'.2.2⟩

theorem meets_StepKeepsTheConstants : ∃ t, step (demo .filling) = .next t := ⟨_, rfl⟩

theorem meets_ConfigurationFixedWhileStreaming :
    let s := withTurns .filling [.host (writeOf 0x20 1)]
    answers (step s) = true ∧ streaming s ∧ (after (step s)).fsr.state ≠ .idle := by decide +kernel

theorem meets_InstructionsTouchOnlyTheirState :
    (∃ t, exec .rdBitsOut (demo .done) = .next t) ∧ mayWriteLanes .rdBitsOut = false
      ∧ mayWriteFrameBuf .rdBitsOut = false ∧ mayWriteShadows .rdBitsOut = false ∧ isRead .rdBitsOut = true
      ∧ (∃ t, exec .start (demo .idle) = .next t) ∧ mayWriteFifo .start = false :=
  ⟨⟨_, rfl⟩, rfl, rfl, rfl, rfl, ⟨_, rfl⟩, rfl⟩

theorem meets_StepKeepsTheInvariant : ∀ s ∈ turning, Inv s ∧ ∃ t, step s = .next t :=
  fun s hs => ⟨(meets_StateChangesOnlyByTheTable s hs).1, _, (meets_StateChangesOnlyByTheTable s hs).2.choose_spec.1⟩

theorem meets_IllegalBuildsAreRefused :
    (∀ b ∈ ([⟨0, 1, 1, 9, .ideal⟩, ⟨2 ^ 24 + 1, 1, 1, 2 ^ 24, .ideal⟩, ⟨1, 0, 1, 9, .ideal⟩,
        ⟨1, 2 ^ 16 + 1, 1, 2 ^ 24, .ideal⟩, ⟨2 ^ 8 + 1, 2 ^ 16, 1, 2 ^ 24, .ideal⟩, ⟨1, 1, 0, 9, .ideal⟩,
        ⟨1, 1, 256, 256, .ideal⟩, ⟨2, 2, 2, 1, .ideal⟩] : List Build),
      b.n = 0 ∨ 2 ^ 24 < b.n ∨ b.l = 0 ∨ 2 ^ 16 < b.l ∨ 2 ^ 24 < b.n * b.l ∨ b.cMax = 0 ∨ 255 < b.cMax
        ∨ b.outDepth < b.cMax * ceilDiv (b.n * b.l) 8)
    ∧ ∀ b ∈ ([⟨1, 1, 1, 1, .ideal⟩, ⟨2 ^ 24, 1, 1, 2 ^ 21, .implementation⟩, ⟨2 ^ 8, 2 ^ 16, 255, 255 * 2 ^ 21, .ideal⟩] :
        List Build),
      1 ≤ b.n ∧ b.n ≤ 2 ^ 24 ∧ 1 ≤ b.l ∧ b.l ≤ 2 ^ 16 ∧ b.n * b.l ≤ 2 ^ 24 ∧ 1 ≤ b.cMax ∧ b.cMax ≤ 255
        ∧ b.cMax * ceilDiv (b.n * b.l) 8 ≤ b.outDepth := by decide +kernel

theorem meets_SoftResetRestoresEveryValue : (withTurns .fault [.reset]).schedule = .reset :: [] := rfl

theorem meets_StartBeginsAFreshStream :
    (∀ s ∈ [demo .filling, { demo .done with fifo := [⟨0, 4, 0x60⟩] }],
      s.fsr.state ≠ .fault ∧ (¬(s.fsr.state = .idle ∨ s.fsr.state = .done) ∨ s.fifo ≠ []))
    ∧ (∀ s ∈ [withRegs .idle fun r => { r with chCount := 0 }, withRegs .done fun r => { r with chCount := 3 },
        withRegs .idle fun r => { r with duration := 0x8000000000000000 }],
      s.fsr.state ≠ .fault ∧ (s.fsr.state = .idle ∨ s.fsr.state = .done) ∧ s.fifo = []
        ∧ (s.regs.chCount.toNat < 1 ∨ s.build.cMax < s.regs.chCount.toNat
          ∨ 2 ^ 64 - 1 < s.regs.duration.toNat * s.build.l))
    ∧ ∀ s ∈ [demo .idle, withRegs .done fun r => { r with chCount := 2, duration := 0x7FFFFFFFFFFFFFFF }],
      s.fsr.state ≠ .fault ∧ (s.fsr.state = .idle ∨ s.fsr.state = .done) ∧ s.fifo = [] ∧ 1 ≤ s.regs.chCount.toNat
        ∧ s.regs.chCount.toNat ≤ s.build.cMax ∧ s.regs.duration.toNat * s.build.l ≤ 2 ^ 64 - 1 := by decide +kernel

theorem meets_AbortClearsTheStream :
    (demo .draining).fsr.state ≠ .fault ∧ (demo .fault).fsr.state = .fault := by decide

theorem meets_NsStepRunsOneShaperStep :
    (1#8).toNat < (demo .idle).build.cMax
      ∧ ((demo .filling).fsr.state ≠ .fault
        ∧ ¬((demo .filling).fsr.state = .idle ∨ (demo .filling).fsr.state = .done))
      ∧ isFinite (withRegs .done fun r => { r with data0 := 0x7F800000#32 }).regs.data0 = false
      ∧ isFinite (withRegs .idle fun r => { r with data0 := 0x7F7FFFFF#32 }).regs.data0 = true
      ∧ (demo .idle).lanes[(1#8).toNat]? = some (Lane.resetFor demoBuild) := by decide

theorem meets_NsLoadSetsTheLane :
    (1#8).toNat < (demo .idle).build.cMax
      ∧ ((demo .draining).fsr.state ≠ .fault
        ∧ ¬((demo .draining).fsr.state = .idle ∨ (demo .draining).fsr.state = .done))
      ∧ ¬(isFinite (withRegs .idle fun r => { r with data2 := 0xFF800000#32 }).regs.data1 = true
        ∧ isFinite (withRegs .idle fun r => { r with data2 := 0xFF800000#32 }).regs.data2 = true)
      ∧ (isFinite (demo .done).regs.data1 = true ∧ isFinite (demo .done).regs.data2 = true)
      ∧ (demo .done).lanes[(1#8).toNat]? = some (Lane.resetFor demoBuild) := by decide

theorem meets_LaneOutOfRangeIsIllegal :
    (demo .idle).fsr.state ≠ .fault ∧ (demo .idle).build.cMax ≤ (2#8).toNat ∧ (demo .idle).build.cMax ≤ (255#8).toNat := by
  decide

theorem meets_CmdWriteExecutesItsCommand :
    decodeCommand (demo .idle).build.cMax 0x02000000#32 = some .start
      ∧ decodeCommand (demo .idle).build.cMax 0x04000000#32 = none ∧ (demo .idle).fsr.state ≠ .fault := by decide

theorem meets_ConfigurationWrites :
    ((demo .idle).fsr.state = .idle ∨ (demo .idle).fsr.state = .done)
      ∧ ((demo .done).fsr.state = .idle ∨ (demo .done).fsr.state = .done)
      ∧ streaming (demo .filling) ∧ streaming (demo .resampling) ∧ streaming (demo .draining) := by decide

theorem meets_OperandWrites : (demo .resampling).fsr.state ≠ .fault := by decide

/-- FILLING with two channels: before the slot's last channel, at it, and at the frame's and the stream's end. -/
theorem meets_SampleWriteFillsTheFrame :
    let two := fun (d : BitVec 64) (fsr : Fsr) =>
      { withRegs .filling (fun r => { r with chCount := 2, duration := d }) with fsr := fsr }
    let mid := two 3 ⟨.filling, 0, 0, 0, 0, 0⟩
    let slot := two 3 ⟨.filling, 0, 0, 0, 0, 1⟩
    let frame := two 3 ⟨.filling, 0, 1, 0, 1, 1⟩
    let last := two 1 ⟨.filling, 0, 0, 0, 0, 1⟩
    ((demo .idle).fsr.state ≠ .fault ∧ (demo .idle).fsr.state ≠ .filling) ∧ isFinite 0x7F800000#32 = false
      ∧ (mid.fsr.state = .filling ∧ isFinite 0x3F000000#32 = true ∧ ¬mid.regs.chCount.toNat ≤ mid.fsr.chPtr.toNat + 1)
      ∧ (slot.regs.chCount.toNat ≤ slot.fsr.chPtr.toNat + 1
        ∧ ¬(slot.fsr.pos.toNat + 1 = slot.build.n ∨ slot.fsr.inCount + 1 = slot.regs.duration))
      ∧ (frame.regs.chCount.toNat ≤ frame.fsr.chPtr.toNat + 1 ∧ frame.fsr.pos.toNat + 1 = frame.build.n)
      ∧ last.regs.chCount.toNat ≤ last.fsr.chPtr.toNat + 1 ∧ last.fsr.inCount + 1 = last.regs.duration := by
  decide

theorem meets_BitsOutPopsTheOldestGroup :
    (demo .done).fifo = [] ∧ { demo .done with fifo := [⟨1, 8, 0xFF⟩] }.fifo = ⟨1, 8, 0xFF⟩ :: []
      ∧ (⟨1, 8, 0xFF⟩ : Group).nbits ≤ 8 := by decide

theorem meets_PlainReadsReturnTheRegister : (demo .idle).build.cMax ≤ 255 ∧ { demoBuild with cMax := 255 }.cMax ≤ 255 := by
  decide

/-- Each of the three counters, with a frame step that changes two of them between the reads. -/
theorem meets_CounterPairIsNotTorn :
    ([0x40, 0x48, 0x50] : List (BitVec 8)).all (fun lo =>
      let s := { stream 3 ⟨.resampling, 1, 3, 0, 0, 0⟩ [.host (readOf lo), .core, .host (readOf (lo + 4))] with
        frameBuf := [[0x3F000000, 0], [0, 0]] }
      let a := after (step s)
      let b := after (step a)
      decide (s.schedule = .host (readOf lo) :: .core :: .host (readOf (lo + 4)) :: []) && answers (step s)
        && answers (step a) && answers (step b) && decide (b.fsr.outCount = 4 ∧ b.fsr.frameIdx = 2)) = true := by
  decide +kernel

theorem meets_DebugReadsShowTheLane :
    let nan := { demo .done with lanes := List.replicate 2 { Lane.resetFor demoBuild with z1 := coreNaN, z2 := coreNaN } }
    ((demo .resampling).fsr.state = .resampling ∨ (demo .resampling).fsr.state = .draining)
      ∧ ¬((demo .done).fsr.state = .resampling ∨ (demo .done).fsr.state = .draining)
      ∧ (demo .done).build.cMax ≤ (withRegs .done fun r => { r with chSel := 2 }).regs.chSel.toNat
      ∧ (demo .done).regs.chSel.toNat < (demo .done).build.cMax
      ∧ (demo .done).lanes[(demo .done).regs.chSel.toNat]? = some (Lane.resetFor demoBuild)
      ∧ isNaN (Lane.resetFor demoBuild).z1 = false ∧ isNaN (Lane.resetFor demoBuild).z2 = false
      ∧ nan.lanes[nan.regs.chSel.toNat]? = some { Lane.resetFor demoBuild with z1 := coreNaN, z2 := coreNaN }
      ∧ isNaN coreNaN = true := by decide

theorem meets_SumsAreCorrectlyRounded :
    isFinite 0x7F7FFFFF#32 = true ∧ isFinite 0x80000000#32 = true
      ∧ valueOf 0x80000000#32 + valueOf 0x80000000#32 = 0 := by
  have h : scaled 0x80000000#32 = 0 := by decide
  exact ⟨by decide, by decide, by simp [valueOf, h]⟩

theorem meets_ProductsAreCorrectlyRounded :
    isFinite 0xBE1CC470#32 = true ∧ isFinite 0x00000000#32 = true
      ∧ valueOf 0xBE1CC470#32 * valueOf 0x00000000#32 = 0 := by
  have h : scaled 0x00000000#32 = 0 := by decide
  exact ⟨by decide, by decide, by simp [valueOf, h]⟩

theorem meets_SpecialValuesFollowTheIeeeRules :
    isNaN 0x7FC00000#32 = true ∧ isNaN 0xFFFFFFFF#32 = true ∧ isInf 0x7F800000#32 = true ∧ isInf 0xFF800000#32 = true
      ∧ isFinite 0x7F7FFFFF#32 = true ∧ signBit 0x7F800000#32 ≠ signBit 0xFF800000#32 ∧ isNaN 0x80000000#32 = false
      ∧ magnitude 0x80000000#32 = 0 ∧ magnitude 0x00000001#32 ≠ 0 := by decide

theorem meets_DecisionIsTheSignOfTheIntegrator :
    isNaN (nsStep { Lane.resetFor demoBuild with z1 := coreNaN } 0).1.z1 = true
      ∧ isFinite (nsStep (Lane.resetFor demoBuild) 0).1.z1 = true
      ∧ isInf (nsStep (Lane.resetFor demoBuild) 0x7F800000#32).1.z1 = true := by decide +kernel

theorem meets_IdleLaneRepeatsItsPattern :
    (Lane.resetFor demoBuild).z = true ∧ (Lane.resetFor demoBuild).z1 = 0 ∧ (Lane.resetFor demoBuild).z2 = 0 := by decide

theorem meets_TransformIsThePolyphaseForm : (1 ≤ 2 ∧ 1 ≤ 2 ∧ 7 < 2 * 2 * 2) ∧ (1 ≤ 1 ∧ 1 ≤ 1 ∧ 0 < 2 * 1 * 1) := by decide

theorem meets_RateOneMapOnlyScales : 1 ≤ 2 ∧ 3 < 2 * 2 := by decide

theorem meets_WindowEntriesAreCorrectlyRounded :
    1 ≤ demoBuild.n ∧ 1 ≤ demoBuild.l ∧ (analysisWindow demoBuild)[0]? = some 0x00000000#32
      ∧ (analysisWindow demoBuild)[1]? = some 0x3E5DB3D7#32 ∧ (synthesisWindow demoBuild)[0]? = some 0x00000000#32
      ∧ ((synthesisWindow demoBuild)[3]?).isSome = true := by decide +kernel

theorem meets_IdealPathRoundsTheExactMap :
    let b : List F32 := [0x3F800000, 0, 0, 0]
    1 ≤ 2 ∧ b.length = 2 * 2 ∧ (∀ v ∈ b, isFinite v = true) ∧ 4 < 2 * 2 * 2
      ∧ prfIdeal 2 2 b 4 = 0x00000000#32 ∧ prfIdeal 2 2 b 1 = 0x3FB504F3#32 :=
  ⟨by decide, by decide, List.all_eq_true.1 (by decide), by decide, by decide +kernel, by decide +kernel⟩

theorem meets_PrfCallWritesBothHalves :
    (Lane.resetFor demoBuild).inbuf.length = 2 * demoBuild.n ∧ [0x3F000000#32, 0x3F000000#32].length = demoBuild.n
      ∧ (demo .idle).wa.length = demoBuild.n := by decide

theorem meets_OlaCallAddsTheOldTail :
    prf6.length = 2 * (demoBuild.n * demoBuild.l) ∧ (demo .idle).ws.length = demoBuild.n * demoBuild.l
      ∧ (Lane.resetFor demoBuild).tail.length = demoBuild.n * demoBuild.l := by decide

theorem meets_CoreRunsExactlyWhenEnabled :
    (withTurns .resampling [.core]).schedule = .core :: [] ∧ (demo .draining).schedule = []
      ∧ (((demo .resampling).fsr.state = .resampling ∨ (demo .resampling).fsr.state = .draining)
        ∧ (demo .resampling).fifo = [])
      ∧ ¬(((demo .filling).fsr.state = .resampling ∨ (demo .filling).fsr.state = .draining) ∧ (demo .filling).fifo = []) := by
  decide

theorem meets_LaneFrameRunsTheThreeUnitsInOrder :
    let prf := prfCall demoBuild p3Frame.wa (Lane.resetFor demoBuild) [0x3F000000, 0]
    let ola := olaCall demoBuild p3Frame.ws prf.1 prf.2
    ola.2[0]?.isSome = true ∧ ola.2[3]?.isSome = true := by decide +kernel

theorem meets_FrameStepRunsEveryActiveLane :
    p3Frame.regs.chCount.toNat ≤ p3Frame.lanes.length ∧ p3Frame.lanes[0]? = some (Lane.resetFor demoBuild)
      ∧ 0 < p3Frame.regs.chCount.toNat ∧ p3Frame.fsr.state ≠ .draining
      ∧ p3Frame.frameBuf[0]? = some [0x3F000000#32, 0] ∧ p3Frame.lanes[1]? = some (Lane.resetFor demoBuild)
      ∧ p3Frame.regs.chCount.toNat ≤ 1 := by decide

theorem meets_DrainFrameProcessesSilence :
    (demo .draining).fsr.state = .draining ∧ (demo .draining).regs.chCount.toNat ≤ (demo .draining).lanes.length
      ∧ 0 < (demo .draining).regs.chCount.toNat ∧ (demo .draining).lanes[0]? = some (Lane.resetFor demoBuild) := by decide

theorem meets_FirstFrameIsDiscarded : (demo .resampling).fsr.frameIdx = 0 := by decide

theorem meets_GroupsCarryTheBits : 255 < 256 ∧ 9 ≤ (List.replicate 16 true).length ∧ 0 ≤ ([] : List Bool).length := by decide

theorem meets_FrameStepPushesTheTruncatedBits :
    let s := stream 3 ⟨.draining, 2, 3, 4, 0, 0⟩ []
    (p3Frame.fsr.frameIdx ≠ 0 ∧ p3Frame.fsr.outCount.toNat ≤ durationOf p3Frame * p3Frame.build.l
      ∧ durationOf p3Frame * p3Frame.build.l ≤ 2 ^ 64 - 1)
    ∧ s.fsr.frameIdx ≠ 0 ∧ s.fsr.outCount.toNat ≤ durationOf s * s.build.l ∧ durationOf s * s.build.l ≤ 2 ^ 64 - 1
    ∧ 0 < s.regs.chCount.toNat ∧ ((frameStep s).fifo.filter fun g => g.ch.toNat = 0)[0]?.isSome = true := by
  decide +kernel

/-- Two blocks that differ in CH_COUNT and in the other channel's samples. -/
theorem meets_ChannelsAreIndependent :
    let s := p3Frame
    let t := { p3Frame with regs := { p3Frame.regs with chCount := 2 }, frameBuf := [[0x3F000000, 0], [0x3F800000, 0]] }
    t.build = s.build ∧ t.wa = s.wa ∧ t.ws = s.ws ∧ t.fsr = s.fsr ∧ t.regs.duration = s.regs.duration ∧ s.fifo = []
      ∧ t.fifo = [] ∧ 0 < s.regs.chCount.toNat ∧ 0 < t.regs.chCount.toNat ∧ s.regs.chCount.toNat ≤ s.lanes.length
      ∧ t.regs.chCount.toNat ≤ t.lanes.length ∧ t.lanes[0]? = s.lanes[0]? ∧ t.frameBuf[0]? = s.frameBuf[0]? := by
  decide

theorem meets_DrainFrameCompletesTheOutput :
    let s := stream 3 ⟨.draining, 2, 3, 4, 0, 0⟩ []
    let d := withTurns .done [.host (writeOf 0x28 9)]
    (Inv s ∧ s.fsr.state = .draining ∧ durationOf s ≤ 2 * s.build.n ∧ 2 * s.build.n < durationOf s + s.build.n)
      ∧ answers (step d) = true ∧ d.fsr.state = .done ∧ (after (step d)).fsr.state = .done :=
  ⟨⟨inv_of (by decide +kernel), rfl, by decide, by decide⟩, by decide +kernel⟩

theorem meets_EmptyStreamEndsAtOnce :
    let s := withTurns .idle [.host (writeOf 0x10 0x02000000), .core]
    let a := after (step s)
    s.schedule = .host (writeOf 0x10 0x02000000) :: .core :: [] ∧ (s.fsr.state = .idle ∨ s.fsr.state = .done)
      ∧ s.fifo = [] ∧ 1 ≤ s.regs.chCount.toNat ∧ s.regs.chCount.toNat ≤ s.build.cMax ∧ s.regs.duration = 0
      ∧ answers (step s) = true ∧ answers (step a) = true := by decide +kernel

theorem meets_InterruptLineFollowsTheState : ∃ t, exec .srst (demo .fault) = .next t := ⟨_, rfl⟩

end Sys2Proof.Tests
end

section
/-! The construction-time contract (R11, R354): what a legal build satisfies, how an illegal one breaks it, and
what instantiating either gives. -/

namespace Sys2Proof

/-- The bounds of R11 as propositions. -/
theorem Build.valid_iff (b : Build) :
    b.valid = true ↔ 1 ≤ b.n ∧ b.n ≤ 2 ^ 24 ∧ 1 ≤ b.l ∧ b.l ≤ 2 ^ 16 ∧ b.n * b.l ≤ 2 ^ 24 ∧ 1 ≤ b.cMax
      ∧ b.cMax ≤ 255 ∧ b.cMax * ceilDiv (b.n * b.l) 8 ≤ b.outDepth := by
  simp only [Build.valid, Bool.and_eq_true, decide_eq_true_eq, and_assoc]

/-- A build is illegal exactly when it breaks one of the bounds of R11. -/
theorem Build.valid_eq_false_iff (b : Build) :
    b.valid = false ↔ b.n = 0 ∨ 2 ^ 24 < b.n ∨ b.l = 0 ∨ 2 ^ 16 < b.l ∨ 2 ^ 24 < b.n * b.l ∨ b.cMax = 0
      ∨ 255 < b.cMax ∨ b.outDepth < b.cMax * ceilDiv (b.n * b.l) 8 := by
  rw [← Bool.not_eq_true, b.valid_iff]
  simp only [not_and_or, not_le, Nat.lt_one_iff]

end Sys2Proof

namespace Sys2Proof.Machine

/-- A legal build gives the block right after reset. -/
theorem State.instantiate_of_valid {b : Build} (hb : b.valid = true) :
    State.instantiate b = .next (State.resetFor b) :=
  if_pos hb

/-- No block is built from an illegal build. -/
theorem State.instantiate_of_not_valid {b : Build} (hb : b.valid = false) :
    State.instantiate b = .refused .illegalBuild :=
  if_neg (Bool.eq_false_iff.1 hb)

/-- Settles O18: the two premises are the illegal and the legal case of the contract. -/
theorem illegalBuildsAreRefused : Obligations.IllegalBuildsAreRefused := by
  intro b
  constructor
  · intro outside
    exact State.instantiate_of_not_valid (b.valid_eq_false_iff.2 outside)
  · intro inside
    exact State.instantiate_of_valid (b.valid_iff.2 inside)

end Sys2Proof.Machine
end

section
/-! The STATUS word (R52): its flags as conditions on the state, its codes (R40, R341) as numbers, and the word
as the sum of its fields. -/

namespace Sys2Proof.Machine

/-- OUT_VALID says that the FIFO is not empty (R52). -/
theorem outValid_eq_decide (s : State) : outValid s = decide (s.fifo ≠ []) := by
  rw [outValid, Bool.eq_iff_iff]
  simp

/-- DISCARD_PENDING says that a stream is running and has no frame yet (R52). -/
theorem discardPending_eq_decide (s : State) :
    discardPending s = decide (s.fsr.frameIdx = 0 ∧ streaming s) := by
  rw [discardPending, Bool.eq_iff_iff]
  simp [or_assoc]

/-- The STATE codes of R40 as numbers. -/
theorem stateCode_toNat (st : FsrState) :
    (stateCode st).toNat =
      match st with
      | .idle => 0 | .filling => 1 | .resampling => 2 | .draining => 3 | .done => 4 | .fault => 7 := by
  cases st <;> rfl

/-- The error codes of R341 as numbers. -/
theorem errCode_toNat (e : ErrCode) :
    (errCode e).toNat =
      match e with
      | .none => 0 | .illegalCmd => 1 | .badState => 2 | .badConfig => 3 | .badAccess => 4 | .inNotReady => 5
      | .badSample => 6 := by
  cases e <;> rfl

/-- A field set above another one counts by its place: bit fields add up, they do not overlap. -/
theorem toNat_append_eq_add {m n : Nat} (high : BitVec m) (low : BitVec n) :
    (high ++ low).toNat = high.toNat * 2 ^ n + low.toNat := by
  rw [BitVec.toNat_append, ← Nat.shiftLeft_add_eq_or_of_lt low.isLt, Nat.shiftLeft_eq]

/-- A one-bit field `k` places up counts as the flag number of its condition. -/
theorem flagBit_eq_ofBool_toNat_mul (p : Bool) (k : Nat) : flagBit p k = (BitVec.ofBool p).toNat * 2 ^ k := by
  cases p <;> simp [flagBit]

/-- STATUS is the sum of its fields, each in its place (R52). -/
theorem statusWord_toNat (s : State) :
    (statusWord s).toNat =
      (stateCode s.fsr.state).toNat + flagBit (inReady s) 4 + flagBit (outValid s) 5 + flagBit (doneFlag s) 6
        + flagBit (faultFlag s) 7 + 2 ^ 8 * (errCode s.err.code).toNat + flagBit (discardPending s) 12 := by
  simp only [statusWord, toNat_append_eq_add, flagBit_eq_ofBool_toNat_mul, BitVec.ofNat_eq_ofNat, BitVec.toNat_ofNat]
  omega

/-- Settles O32: the word of the read is the sum of the fields, and each field is what R52 says of the state. -/
theorem statusReadShowsTheFields : Obligations.StatusReadShowsTheFields := by
  intro s
  have hWord := statusWord_toNat s
  rw [stateCode_toNat, errCode_toNat, outValid_eq_decide, discardPending_eq_decide] at hWord
  exact ⟨statusWord s, hostRead_eq (statusWord s) s, hWord⟩

end Sys2Proof.Machine
end

section
/-! The structural access errors (R82 to R84): which addresses the register map leaves out, which keys have no row
(R127), and what a host turn makes of such a key. -/

namespace Sys2Proof

/-- The map leaves out exactly the misaligned (R82) and the reserved (R83) addresses. -/
theorem accessAt_eq_none_iff : ∀ addr : BitVec 8,
    accessAt addr = none ↔ addr.toNat % 4 ≠ 0 ∨ 0x78 ≤ addr.toNat := by
  decide +kernel

/-- The reads without a row: of no register, or of a write-only one (R84). -/
theorem readRow_eq_none_iff : ∀ addr : BitVec 8,
    readRow addr = none ↔ accessAt addr = none ∨ accessAt addr = some .wo := by
  decide +kernel

/-- Whether a write has a row does not depend on the word written: the data is no part of the key (R127). -/
theorem writeRow_eq_none_iff_zero (addr : BitVec 8) (v : Word32) :
    writeRow addr v = none ↔ writeRow addr 0 = none := by
  unfold writeRow
  split <;> simp

/-- The writes without a row: to no register, or to a read-only one (R84). -/
theorem writeRow_eq_none_iff (addr : BitVec 8) (v : Word32) :
    writeRow addr v = none ↔ accessAt addr = none ∨ accessAt addr = some .ro := by
  have atZero : ∀ a : BitVec 8, writeRow a 0 = none ↔ accessAt a = none ∨ accessAt a = some .ro := by
    decide +kernel
  exact (writeRow_eq_none_iff_zero addr v).trans (atZero addr)

/-- A write without a row is misaligned, reserved or to a read-only register. -/
theorem decodeBus_eq_none_iff_of_write {t : Transaction} (hw : t.we = true) :
    decodeBus t = none ↔ t.addr.toNat % 4 ≠ 0 ∨ 0x78 ≤ t.addr.toNat ∨ accessAt t.addr = some .ro := by
  rw [decodeBus, if_pos hw, writeRow_eq_none_iff, accessAt_eq_none_iff, or_assoc]

/-- A read without a row is misaligned, reserved or of a write-only register. -/
theorem decodeBus_eq_none_iff_of_read {t : Transaction} (hr : t.we = false) :
    decodeBus t = none ↔ t.addr.toNat % 4 ≠ 0 ∨ 0x78 ≤ t.addr.toNat ∨ accessAt t.addr = some .wo := by
  rw [decodeBus, if_neg (Bool.eq_false_iff.1 hr), readRow_eq_none_iff, accessAt_eq_none_iff, or_assoc]

end Sys2Proof

namespace Sys2Proof.Machine

/-- Outside FAULT a write without a row raises BAD_ACCESS and does nothing else. -/
theorem structuralAccess_of_write {t : Transaction} {s : State} (hw : t.we = true) (hf : s.fsr.state ≠ .fault) :
    structuralAccess t s = .next (faulted .badAccess t.addr t.data s) :=
  (if_pos hw).trans (hostWrite_of_error hf rfl)

/-- A read without a row answers 0 and does nothing else, in any state. -/
theorem structuralAccess_of_read {t : Transaction} (s : State) (hr : t.we = false) :
    structuralAccess t s = .next { s with response := some 0 } :=
  (if_neg (Bool.eq_false_iff.1 hr)).trans (hostRead_eq 0 s)

/-- A host turn whose key has no row is a structural access (R127). -/
theorem step_of_decodeBus_eq_none {s : State} {t : Transaction} {rest : List Turn}
    (hs : s.schedule = .host t :: rest) (hd : decodeBus t = none) :
    step s = structuralAccess t { s with schedule := rest } := by
  rw [step_of_host hs, hd]

/-- Settles O7: a misaligned, reserved or wrong-direction key has no row, so the turn is a structural access of
its direction. -/
theorem structuralAccessRules : Obligations.StructuralAccessRules := by
  intro s t rest hs
  constructor
  · rintro ⟨hw, hf, outside⟩
    have hd : decodeBus t = none := (decodeBus_eq_none_iff_of_write hw).2 outside
    rw [step_of_decodeBus_eq_none hs hd]
    exact structuralAccess_of_write hw hf
  · rintro ⟨hr, outside⟩
    have hd : decodeBus t = none := (decodeBus_eq_none_iff_of_read hr).2 outside
    rw [step_of_decodeBus_eq_none hs hd]
    exact structuralAccess_of_read _ hr

end Sys2Proof.Machine
end

section
/-! The reserved command words (R123, R124, R126): the fields of a word as numbers, the words that decode to ILLEGAL,
and what a write of one to CMD does. -/

namespace Sys2Proof

/-- A word is its three fields, each in its place (R121). -/
theorem toNat_eq_fields (w : Word32) :
    w.toNat = (opField w).toNat * 2 ^ 24 + (chField w).toNat * 2 ^ 16 + (immField w).toNat := by
  simp only [opField, chField, immField, BitVec.extractLsb'_toNat, Nat.shiftRight_eq_div_pow]
  omega

/-- A word laid out as in R121 has the laid out numbers as its fields. -/
theorem fields_toNat_of_layout {w : Word32} {op ch imm : Nat} (hw : w.toNat = op * 2 ^ 24 + ch * 2 ^ 16 + imm)
    (hch : ch < 2 ^ 8) (himm : imm < 2 ^ 16) :
    (opField w).toNat = op ∧ (chField w).toNat = ch ∧ (immField w).toNat = imm := by
  have hFields := toNat_eq_fields w
  have hChField := (chField w).isLt
  have hImmField := (immField w).isLt
  omega

/-- The ILLEGAL words by their fields: a nonzero IMM (R124), a reserved opcode (R126), a nonzero CH where the
command takes no lane, or a lane that the build does not have (R123). -/
theorem decodeCommand_eq_none_iff (cMax : Nat) (w : Word32) :
    decodeCommand cMax w = none ↔
      (immField w).toNat ≠ 0 ∨ (0x04 ≤ (opField w).toNat ∧ (opField w).toNat ≤ 0x0F) ∨ 0x12 ≤ (opField w).toNat
        ∨ ((opField w).toNat ≤ 0x03 ∧ (chField w).toNat ≠ 0)
        ∨ (((opField w).toNat = 0x10 ∨ (opField w).toNat = 0x11) ∧ cMax ≤ (chField w).toNat) := by
  simp only [decodeCommand, ne_eq, ← BitVec.toNat_inj, BitVec.ofNat_eq_ofNat, BitVec.reduceToNat]
  split_ifs with hImm hNop hSrst hStart hAbort hStep hLoad
  -- The six rows of the command table decode to a command; every other word is ILLEGAL.
  iterate 6 exact iff_of_false nofun (by omega)
  · exact iff_of_true rfl (by omega)
  · exact iff_of_true rfl (.inl hImm)

end Sys2Proof

namespace Sys2Proof.Machine

/-- Outside FAULT a CMD write of an ILLEGAL word raises ILLEGAL_CMD and does nothing else (R126). -/
theorem exec_wrCmd_illegal {w : Word32} {s : State} (hd : decodeCommand s.build.cMax w = none)
    (hf : s.fsr.state ≠ .fault) : exec (.wrCmd w) s = .next (faulted .illegalCmd 0x10 w s) :=
  (exec_wrCmd_of_none hd).trans (hostWrite_of_error hf rfl)

/-- Settles O4: the numbers of the layout are the word's fields, so the word is one that decodes to ILLEGAL. -/
theorem reservedWordsAreIllegal : Obligations.ReservedWordsAreIllegal := by
  intro s w op ch imm hw hch himm reserved
  obtain ⟨rfl, rfl, rfl⟩ := fields_toNat_of_layout hw hch himm
  have hd : decodeCommand s.build.cMax w = none := (decodeCommand_eq_none_iff _ w).2 reserved
  exact ⟨hd, exec_wrCmd_illegal hd⟩

end Sys2Proof.Machine
end

section
/-! The words of the registers as numbers: the halves of a 64-bit register (R86, R171, R172), the group word of
BITS_OUT (R130), RESULT (R51), and the words of the commands (R122). -/

namespace Sys2Proof

/-- A command word is its opcode and its lane, each in its place (R121). -/
theorem commandWord_eq_ofNat (op ch : BitVec 8) :
    commandWord op ch = BitVec.ofNat 32 (op.toNat * 2 ^ 24 + ch.toNat * 2 ^ 16) := by
  apply BitVec.eq_of_toNat_eq
  have hop := op.isLt
  have hch := ch.isLt
  simp only [commandWord, Machine.toNat_append_eq_add, BitVec.ofNat_eq_ofNat, BitVec.toNat_ofNat]
  omega

theorem encodeCommand_nsStep (ch : BitVec 8) :
    encodeCommand (.nsStep ch) = BitVec.ofNat 32 (0x10000000 + ch.toNat * 2 ^ 16) := commandWord_eq_ofNat 0x10 ch

theorem encodeCommand_nsLoad (ch : BitVec 8) :
    encodeCommand (.nsLoad ch) = BitVec.ofNat 32 (0x11000000 + ch.toNat * 2 ^ 16) := commandWord_eq_ofNat 0x11 ch

/-- The word 0 is NOP's, in every build (R122). -/
theorem decodeCommand_zero (cMax : Nat) : decodeCommand cMax 0 = some .nop := rfl

end Sys2Proof

namespace Sys2Proof.Machine

theorem lowWord_eq_ofNat (x : BitVec 64) : lowWord x = BitVec.ofNat 32 x.toNat := rfl

theorem highWord_eq_ofNat (x : BitVec 64) : highWord x = BitVec.ofNat 32 (x.toNat / 2 ^ 32) := by
  rw [← Nat.shiftRight_eq_div_pow]
  rfl

/-- The low word replaced: the high half stays in its place (R171). -/
theorem withLow_eq_ofNat (x : BitVec 64) (v : Word32) :
    withLow x v = BitVec.ofNat 64 (x.toNat / 2 ^ 32 * 2 ^ 32 + v.toNat) := by
  apply BitVec.eq_of_toNat_eq
  have hx := x.isLt
  have hv := v.isLt
  simp only [withLow, toNat_append_eq_add, highWord_eq_ofNat, BitVec.toNat_ofNat]
  omega

/-- The high word replaced: the low half stays in its place (R172). -/
theorem withHigh_eq_ofNat (x : BitVec 64) (v : Word32) :
    withHigh x v = BitVec.ofNat 64 (v.toNat * 2 ^ 32 + x.toNat % 2 ^ 32) := by
  apply BitVec.eq_of_toNat_eq
  have hv := v.isLt
  simp only [withHigh, toNat_append_eq_add, lowWord_eq_ofNat, BitVec.toNat_ofNat]
  omega

/-- The group word is VALID, CH, NBITS and GROUP, each in its place (R130). -/
theorem groupWord_eq_ofNat {g : Group} (hn : g.nbits ≤ 8) :
    groupWord g = BitVec.ofNat 32 (2 ^ 31 + g.ch.toNat * 2 ^ 16 + g.nbits * 2 ^ 8 + g.bits.toNat) := by
  apply BitVec.eq_of_toNat_eq
  have hch := g.ch.isLt
  have hbits := g.bits.isLt
  simp only [groupWord, toNat_append_eq_add, BitVec.ofNat_eq_ofNat, BitVec.toNat_ofNat]
  omega

/-- RESULT after NS_STEP: its valid bit, and the output bit below (R51, R264). -/
theorem resultWord_eq_ite (z : Bool) :
    0x80000000#32 ||| bitWord z = if z then 0x80000001#32 else 0x80000000#32 := by
  cases z <;> rfl

/-- NS_LOAD takes its decision from bit 0 of DATA0 (R131). -/
theorem loadedDecision_eq_decide (w : Word32) : loadedDecision w = decide (w.toNat % 2 = 1) := by
  simp [loadedDecision, BitVec.getLsbD, Nat.testBit_zero]

end Sys2Proof.Machine
end

section
/-! What the rule of each write does under its checks, in the order of R345: the equations that go with the
inversion lemmas `startStream_ok`, `testStep_ok`, `testLoad_ok`, `configure_ok` and `pushSample_ok`. -/

namespace Sys2Proof.Machine

/-- A state that is neither IDLE nor DONE is not between streams. -/
theorem betweenStreams_eq_false {s : State} (h : ¬(s.fsr.state = .idle ∨ s.fsr.state = .done)) :
    betweenStreams s = false :=
  Bool.eq_false_iff.2 (mt betweenStreams_iff.1 h)

/-- IDLE and DONE, the states of a running stream, and FAULT exclude each other (R40). -/
theorem not_between_of_streaming {s : State} (h : streaming s) : ¬(s.fsr.state = .idle ∨ s.fsr.state = .done) := by
  rcases h with h | h | h <;> simp [h]

theorem not_fault_of_streaming {s : State} (h : streaming s) : s.fsr.state ≠ .fault := by
  rcases h with h | h | h <;> simp [h]

theorem not_fault_of_between {s : State} (h : s.fsr.state = .idle ∨ s.fsr.state = .done) : s.fsr.state ≠ .fault := by
  rcases h with h | h <;> simp [h]

/-- A lane of the block is the one its number reads. -/
theorem laneAt_of_getElem? {s : State} {c : Nat} {l : Lane} (h : s.lanes[c]? = some l) : laneAt s c = l := by
  simp [laneAt, h]

/-- Outside FAULT a write whose rule has no check has its effect. -/
theorem hostWrite_unchecked {addr : BitVec 8} {v : Word32} {s : State} (hf : s.fsr.state ≠ .fault)
    (effect : State → State) :
    hostWrite addr v s (fun s => .ok (effect s)) = .next { effect s with response := none } := by
  apply hostWrite_of_ok hf
  rfl

/-! ## START (R164) -/

theorem startStream_of_busy {s : State}
    (h : ¬(s.fsr.state = .idle ∨ s.fsr.state = .done) ∨ s.fifo ≠ []) : startStream s = .error .badState := by
  by_cases hb : s.fsr.state = .idle ∨ s.fsr.state = .done
  · have hq : s.fifo ≠ [] := h.resolve_left (not_not.2 hb)
    simp [startStream, betweenStreams_iff.2 hb, hq]
  · simp [startStream, betweenStreams_eq_false hb]

/-- In IDLE or DONE with the FIFO empty, only the checks of CH_COUNT and D·L are left. -/
theorem startStream_of_ready {s : State} (hb : s.fsr.state = .idle ∨ s.fsr.state = .done) (hq : s.fifo = []) :
    startStream s =
      if s.regs.chCount.toNat < 1 ∨ s.build.cMax < s.regs.chCount.toNat then .error .badConfig
      else if 2 ^ 64 - 1 < s.build.l * durationOf s then .error .badConfig
      else .ok (freshStream s (if s.regs.duration = 0 then .draining else .filling)) := by
  rw [startStream, if_neg (by simp [betweenStreams_iff.2 hb]), if_neg (by simp [hq])]
  simp only [Bool.or_eq_true, decide_eq_true_eq]

theorem startStream_of_bad_config {s : State} (hb : s.fsr.state = .idle ∨ s.fsr.state = .done) (hq : s.fifo = [])
    (h : s.regs.chCount.toNat < 1 ∨ s.build.cMax < s.regs.chCount.toNat ∨ 2 ^ 64 - 1 < s.build.l * durationOf s) :
    startStream s = .error .badConfig := by
  rw [startStream_of_ready hb hq]
  by_cases hc : s.regs.chCount.toNat < 1 ∨ s.build.cMax < s.regs.chCount.toNat
  · exact if_pos hc
  · rw [if_neg hc, if_pos ((or_assoc.2 h).resolve_left hc)]

theorem startStream_of_valid {s : State} (hb : s.fsr.state = .idle ∨ s.fsr.state = .done) (hq : s.fifo = [])
    (h1 : 1 ≤ s.regs.chCount.toNat) (h2 : s.regs.chCount.toNat ≤ s.build.cMax)
    (h3 : s.build.l * durationOf s ≤ 2 ^ 64 - 1) :
    startStream s = .ok (freshStream s (if s.regs.duration = 0 then .draining else .filling)) := by
  rw [startStream_of_ready hb hq, if_neg (by omega), if_neg (by omega)]

/-! ## NS_STEP and NS_LOAD (R166, R167), on a lane of the build -/

section
variable {s : State} {ch : BitVec 8} (hc : ch.toNat < s.build.cMax)
include hc

theorem testStep_of_busy (hb : ¬(s.fsr.state = .idle ∨ s.fsr.state = .done)) :
    testStep ch s = .error .badState := by
  simp [testStep, hc.not_ge, betweenStreams_eq_false hb]

theorem testStep_of_not_finite (hb : s.fsr.state = .idle ∨ s.fsr.state = .done)
    (hv : isFinite s.regs.data0 = false) : testStep ch s = .error .badSample := by
  simp [testStep, hc.not_ge, betweenStreams_iff.2 hb, hv]

theorem testStep_of_finite (hb : s.fsr.state = .idle ∨ s.fsr.state = .done) (hv : isFinite s.regs.data0 = true)
    {l : Lane} (hl : s.lanes[ch.toNat]? = some l) :
    testStep ch s = .ok
      { setLane s ch.toNat (nsStep l s.regs.data0).1 with
        regs := { s.regs with result := 0x80000000#32 ||| bitWord (nsStep l s.regs.data0).2 } } := by
  simp [testStep, hc.not_ge, betweenStreams_iff.2 hb, hv, laneAt_of_getElem? hl]

theorem testLoad_of_busy (hb : ¬(s.fsr.state = .idle ∨ s.fsr.state = .done)) :
    testLoad ch s = .error .badState := by
  simp [testLoad, hc.not_ge, betweenStreams_eq_false hb]

theorem testLoad_of_not_finite (hb : s.fsr.state = .idle ∨ s.fsr.state = .done)
    (hv : ¬(isFinite s.regs.data1 = true ∧ isFinite s.regs.data2 = true)) : testLoad ch s = .error .badSample := by
  have hv' : isFinite s.regs.data1 = false ∨ isFinite s.regs.data2 = false := by
    simpa only [Decidable.not_and_iff_or_not, Bool.not_eq_true] using hv
  simp [testLoad, hc.not_ge, betweenStreams_iff.2 hb, hv']

theorem testLoad_of_finite (hb : s.fsr.state = .idle ∨ s.fsr.state = .done) (h1 : isFinite s.regs.data1 = true)
    (h2 : isFinite s.regs.data2 = true) {l : Lane} (hl : s.lanes[ch.toNat]? = some l) :
    testLoad ch s = .ok
      (setLane s ch.toNat { l with z := loadedDecision s.regs.data0, z1 := s.regs.data1, z2 := s.regs.data2 }) := by
  simp [testLoad, hc.not_ge, betweenStreams_iff.2 hb, h1, h2, laneAt_of_getElem? hl]

end

/-! ## The configuration writes (R170 to R172) -/

theorem configure_of_between {s : State} (hb : s.fsr.state = .idle ∨ s.fsr.state = .done) (regs : HostRegs) :
    configure s regs = .ok { s with regs := regs } :=
  if_pos (betweenStreams_iff.2 hb)

theorem configure_of_streaming {s : State} (h : streaming s) (regs : HostRegs) :
    configure s regs = .error .badState :=
  if_neg (mt betweenStreams_iff.1 (not_between_of_streaming h))

/-! ## SAMPLE_IN (R168, R293) -/

theorem pushSample_of_not_filling {s : State} (v : Word32) (h : s.fsr.state ≠ .filling) :
    pushSample v s = .error .inNotReady :=
  if_pos h

theorem pushSample_of_not_finite {s : State} {v : Word32} (h : s.fsr.state = .filling) (hv : isFinite v = false) :
    pushSample v s = .error .badSample := by
  simp [pushSample, h, hv]

theorem pushSample_of_finite {s : State} {v : Word32} (h : s.fsr.state = .filling) (hv : isFinite v = true) :
    pushSample v s = .ok (acceptSample v s) := by
  simp [pushSample, h, hv]

/-- Before the last channel of a time slot the channel pointer advances. -/
theorem acceptSample_of_more_channels (v : F32) {s : State} (h : ¬s.regs.chCount.toNat ≤ s.fsr.chPtr.toNat + 1) :
    acceptSample v s = { storeSample v s with fsr := { s.fsr with chPtr := s.fsr.chPtr + 1 } } :=
  if_pos (not_le.1 h)

/-- At the last channel the slot is counted. -/
theorem acceptSample_of_open_frame (v : F32) {s : State} (h : s.regs.chCount.toNat ≤ s.fsr.chPtr.toNat + 1)
    (hopen : ¬(s.fsr.pos.toNat + 1 = s.build.n ∨ s.fsr.inCount + 1 = s.regs.duration)) :
    acceptSample v s =
      { storeSample v s with
        fsr := { s.fsr with
          chPtr := 0, pos := BitVec.ofNat 24 (s.fsr.pos.toNat + 1), inCount := s.fsr.inCount + 1 } } :=
  (if_neg (not_lt.2 h)).trans (if_neg hopen)

/-- If that slot fills the frame or ends the stream, the frame is completed. -/
theorem acceptSample_of_full_frame (v : F32) {s : State} (h : s.regs.chCount.toNat ≤ s.fsr.chPtr.toNat + 1)
    (full : s.fsr.pos.toNat + 1 = s.build.n ∨ s.fsr.inCount + 1 = s.regs.duration) :
    acceptSample v s =
      { storeSample v s with
        frameBuf := zeroFill (storeSample v s) (s.fsr.pos.toNat + 1)
        fsr := { s.fsr with chPtr := 0, pos := 0, inCount := s.fsr.inCount + 1, state := .resampling } } :=
  (if_neg (not_lt.2 h)).trans (if_pos full)

end Sys2Proof.Machine
end

section
/-! The commands and the CMD write that carries them (R161 to R167). -/

namespace Sys2Proof.Machine

/-- Settles O19: NOP is ignored in FAULT (R160), and its own rule changes nothing. -/
theorem nopChangesNothing : Obligations.NopChangesNothing := by
  intro s
  rw [exec_nop]
  by_cases hf : s.fsr.state = .fault
  · exact hostWrite_of_fault hf
  · exact hostWrite_unchecked hf id

/-- Settles O21: the three outcomes of START's rule under the write preamble. -/
theorem startBeginsAFreshStream : Obligations.StartBeginsAFreshStream := by
  intro s hf
  dsimp only
  rw [exec_start, Nat.mul_comm s.regs.duration.toNat]
  refine ⟨fun busy => ?_, fun ⟨hb, hq, bad⟩ => ?_, fun ⟨hb, hq, h1, h2, h3⟩ => ?_⟩
  · exact hostWrite_of_error hf (startStream_of_busy busy)
  · exact hostWrite_of_error hf (startStream_of_bad_config hb hq bad)
  · exact hostWrite_of_ok hf (startStream_of_valid hb hq h1 h2 h3)

/-- Settles O22: ABORT's rule has no check, and FAULT ignores it. -/
theorem abortClearsTheStream : Obligations.AbortClearsTheStream :=
  fun s => ⟨fun hf => (exec_abort s).trans (hostWrite_unchecked hf abandonStream),
    fun hf => (exec_abort s).trans (hostWrite_of_fault hf)⟩

/-- Settles O23: the three outcomes of NS_STEP's rule; the accepted one is NSStep of R261 on the lane. -/
theorem nsStepRunsOneShaperStep : Obligations.NsStepRunsOneShaperStep := by
  intro s ch hc hf
  dsimp only
  rw [exec_nsStep, encodeCommand_nsStep]
  refine ⟨fun busy => ?_, fun hb hv => ?_, fun l hb hv hl => ?_⟩
  · exact hostWrite_of_error hf (testStep_of_busy hc busy)
  · exact hostWrite_of_error hf (testStep_of_not_finite hc hb hv)
  · rw [hostWrite_of_ok hf (testStep_of_finite hc hb hv hl), resultWord_eq_ite]
    rfl

/-- Settles O24: the three outcomes of NS_LOAD's rule; the accepted one sets the lane's shaper registers. -/
theorem nsLoadSetsTheLane : Obligations.NsLoadSetsTheLane := by
  intro s ch hc hf
  dsimp only
  rw [exec_nsLoad, encodeCommand_nsLoad, ← loadedDecision_eq_decide]
  refine ⟨fun busy => ?_, fun hb hv => ?_, fun l hb ⟨h1, h2⟩ hl => ?_⟩
  · exact hostWrite_of_error hf (testLoad_of_busy hc busy)
  · exact hostWrite_of_error hf (testLoad_of_not_finite hc hb hv)
  · exact hostWrite_of_ok hf (testLoad_of_finite hc hb h1 h2 hl)

/-- Every command answers a next state. -/
theorem exec_command_answers (c : Command) (s : State) : ∃ t, exec c.toInstr s = .next t := by
  cases c with
  | nop => exact hostWrite_answers _ _ s .ok
  | srst => exact ⟨_, exec_srst s⟩
  | start => exact hostWrite_answers _ _ s startStream
  | abort => exact hostWrite_answers _ _ s fun s => .ok (abandonStream s)
  | nsStep ch => exact hostWrite_answers _ _ s (testStep ch)
  | nsLoad ch => exact hostWrite_answers _ _ s (testLoad ch)

/-- Settles O26: a word that decodes runs its command, one that does not is illegal, and the word 0 is NOP's. -/
theorem cmdWriteExecutesItsCommand : Obligations.CmdWriteExecutesItsCommand := by
  intro s v
  refine ⟨fun c hd => ?_, fun hd hf => ?_, ?_⟩
  · rw [exec_wrCmd_of_some hd]
    exact ⟨rfl, exec_command_answers c s⟩
  · exact exec_wrCmd_illegal hd hf
  · rw [exec_wrCmd_of_some (decodeCommand_zero _)]
    exact nopChangesNothing s

end Sys2Proof.Machine
end

section
/-! The writes of the configuration and operand registers (R170 to R175). -/

namespace Sys2Proof.Machine

/-- Between streams a configuration write stores its registers. -/
theorem hostWrite_configure_of_between {addr : BitVec 8} {v : Word32} {s : State}
    (hb : s.fsr.state = .idle ∨ s.fsr.state = .done) (regs : State → HostRegs) :
    hostWrite addr v s (fun s => configure s (regs s)) = .next { s with regs := regs s, response := none } := by
  rw [hostWrite_of_ok (not_fault_of_between hb) (configure_of_between hb (regs s))]

/-- While a stream runs it raises BAD_STATE (R387). -/
theorem hostWrite_configure_of_streaming {addr : BitVec 8} {v : Word32} {s : State} (h : streaming s)
    (regs : State → HostRegs) :
    hostWrite addr v s (fun s => configure s (regs s)) = .next (faulted .badState addr v s) :=
  hostWrite_of_error (not_fault_of_streaming h) (configure_of_streaming h (regs s))

/-- Settles O27: each of the three writes is `configure` under the write preamble. -/
theorem configurationWrites : Obligations.ConfigurationWrites := by
  intro s v
  rw [exec_wrChCount, exec_wrDurationLo, exec_wrDurationHi, ← withLow_eq_ofNat, ← withHigh_eq_ofNat]
  exact ⟨fun hb => ⟨hostWrite_configure_of_between hb _, hostWrite_configure_of_between hb _,
      hostWrite_configure_of_between hb _⟩,
    fun running => ⟨hostWrite_configure_of_streaming running _, hostWrite_configure_of_streaming running _,
      hostWrite_configure_of_streaming running _⟩⟩

/-- Settles O28: the rules of these writes have no check. -/
theorem operandWrites : Obligations.OperandWrites := by
  intro s v hf
  rw [exec_wrIrqEn, exec_wrChSel, exec_wrData0, exec_wrData1, exec_wrData2]
  refine ⟨?_, ?_, ?_, ?_, ?_⟩
  all_goals exact hostWrite_unchecked hf _

end Sys2Proof.Machine
end

section
/-! The stream data registers (R168, R169) and the counter reads (R176, R177). -/

namespace Sys2Proof.Machine

/-- Outside FAULT an accepted SAMPLE_IN write is AcceptSample of R293. -/
theorem exec_wrSampleIn_of_finite {s : State} {v : Word32} (h : s.fsr.state = .filling) (hv : isFinite v = true) :
    exec (.wrSampleIn v) s = .next { acceptSample v s with response := none } :=
  hostWrite_of_ok (not_fault_of_streaming (.inl h)) (pushSample_of_finite h hv)

/-- Settles O29: the two checks, then the three things an accepted sample can do. -/
theorem sampleWriteFillsTheFrame : Obligations.SampleWriteFillsTheFrame := by
  intro s v hf
  dsimp only
  refine ⟨fun h => ?_, fun h hv => ?_, fun ⟨h, hv⟩ more => ?_, fun ⟨h, hv⟩ last hopen => ?_,
    fun ⟨h, hv⟩ last full => ?_⟩
  · exact hostWrite_of_error hf (pushSample_of_not_filling v h)
  · exact hostWrite_of_error hf (pushSample_of_not_finite h hv)
  · rw [exec_wrSampleIn_of_finite h hv, acceptSample_of_more_channels v more]
    rfl
  · rw [exec_wrSampleIn_of_finite h hv, acceptSample_of_open_frame v last hopen]
    rfl
  · rw [exec_wrSampleIn_of_finite h hv, acceptSample_of_full_frame v last full]
    rfl

theorem exec_rdBitsOut_of_nil {s : State} (hq : s.fifo = []) :
    exec .rdBitsOut s = .next { s with response := some 0 } := by
  show execRdBitsOut s = _
  simp only [execRdBitsOut, hq, hostRead_eq]

theorem exec_rdBitsOut_of_cons {s : State} {g : Group} {rest : List Group} (hq : s.fifo = g :: rest) :
    exec .rdBitsOut s = .next { s with fifo := rest, response := some (groupWord g) } := by
  show execRdBitsOut s = _
  simp only [execRdBitsOut, hq, hostRead_eq]

/-- Settles O30: a read of the empty FIFO answers 0; otherwise the head leaves the FIFO as its group word. -/
theorem bitsOutPopsTheOldestGroup : Obligations.BitsOutPopsTheOldestGroup := by
  intro s
  refine ⟨exec_rdBitsOut_of_nil, fun g rest hq hn => ?_⟩
  rw [exec_rdBitsOut_of_cons hq, groupWord_eq_ofNat hn]

/-- Settles O33: each LO read answers one half of its counter and latches the other; each HI read is plain. -/
theorem counterReadsLatchTheHighHalf : Obligations.CounterReadsLatchTheHighHalf := by
  intro s
  simp only [← highWord_eq_ofNat, ← lowWord_eq_ofNat]
  exact ⟨hostRead_eq _ _, hostRead_eq _ _, hostRead_eq _ _, hostRead_eq _ s, hostRead_eq _ s, hostRead_eq _ s⟩

end Sys2Proof.Machine
end

section
/-! The two buffer writes of a PRF call (R204, R206) as lists, and the call that makes them (R200). -/

namespace Sys2Proof.Machine

/-- A tabulation over a stretch of a list is that stretch. -/
theorem tabulate_getD_stretch {α : Type} {n off : Nat} {xs : List α} (d : α) (h : off + n ≤ xs.length) :
    tabulate n (fun i => xs.getD (off + i) d) = (xs.drop off).take n := by
  apply List.ext_getElem?
  intro i
  rw [tabulate_getElem?, List.getElem?_take]
  split
  · rw [List.getElem?_drop, List.getD_eq_getElem?_getD, List.getElem?_eq_getElem (by omega), Option.getD_some]
  · rfl

theorem tabulate_congr {α : Type} {n : Nat} {f g : Nat → α} (h : ∀ i < n, f i = g i) :
    tabulate n f = tabulate n g :=
  List.map_congr_left fun i hi => h i (List.mem_range.1 hi)

/-- R204: the old first half stays, the frame meets the reversed window. -/
theorem writeSecondHalf_eq {b : Build} {wa inbuf x : List F32} (hb : b.n ≤ inbuf.length) (hx : x.length = b.n)
    (hw : wa.length = b.n) :
    writeSecondHalf b wa inbuf x = inbuf.take b.n ++ List.zipWith fmul x wa.reverse := by
  have first : tabulate b.n (fun i => inbuf.getD i 0) = inbuf.take b.n := by
    simpa using tabulate_getD_stretch (off := 0) 0 (by omega : 0 + b.n ≤ inbuf.length)
  have second : tabulate b.n (fun i => fmul (x.getD i 0) (wa.getD (b.n - 1 - i) 0))
      = List.zipWith fmul x wa.reverse := by
    rw [tabulate_congr fun i hi => by rw [← hw, ← List.getD_reverse i (hw ▸ hi)]]
    exact tabulate_getD_zipWith fmul 0 0 b.n x wa.reverse hx (by rw [List.length_reverse, hw])
  exact congrArg₂ (· ++ ·) first second

/-- R206: the frame meets the window, the second half stays. -/
theorem writeFirstHalf_eq {b : Build} {wa inbuf x : List F32} (hb : inbuf.length = 2 * b.n) (hx : x.length = b.n)
    (hw : wa.length = b.n) :
    writeFirstHalf b wa inbuf x = List.zipWith fmul x wa ++ inbuf.drop b.n := by
  have first := tabulate_getD_zipWith fmul 0 0 b.n x wa hx hw
  have second : tabulate b.n (fun i => inbuf.getD (b.n + i) 0) = inbuf.drop b.n := by
    rw [tabulate_getD_stretch 0 (by omega), List.take_of_length_le (by rw [List.length_drop]; omega)]
  exact congrArg₂ (· ++ ·) first second

/-- Settles O46: the transform runs on what `writeSecondHalf` leaves; `writeFirstHalf` then replaces the half that
the transform saw old. -/
theorem prfCallWritesBothHalves : Obligations.PrfCallWritesBothHalves := by
  intro b wa l x hl hx hw
  have seen := writeSecondHalf_eq (inbuf := l.inbuf) (by omega) hx hw
  have hfirst : (l.inbuf.take b.n).length = b.n := by rw [List.length_take]; omega
  have left := writeFirstHalf_eq (inbuf := l.inbuf.take b.n ++ List.zipWith fmul x wa.reverse)
    (by simp [hx, hw]; omega) hx hw
  rw [List.drop_left' hfirst] at left
  refine ⟨?_, congrArg (prfFn b) seen, prfFn_length b _, rfl⟩
  exact (congrArg (writeFirstHalf b wa · x) seen).trans left

end Sys2Proof.Machine
end

section
/-! The steps of `roundScaled` on naturals: the fields of the words it makes (R87), the significand it keeps, and where
it overflows (R16). -/

namespace Sys2Proof.Machine

/-! ## The fields of a word -/

/-- The magnitude that the low 31 bits of a word stand for, in units of 2^-149 (R87). -/
def magnitudeOfBits (bits : ℕ) : ℕ :=
  if bits / 2 ^ 23 = 0 then bits % 2 ^ 23 else (2 ^ 23 + bits % 2 ^ 23) * 2 ^ (bits / 2 ^ 23 - 1)

/-- The word of a sign and 31 bits below it. -/
def signedWord (neg : Bool) (bits : ℕ) : F32 := if neg then BitVec.ofNat 32 (2 ^ 31 + bits) else BitVec.ofNat 32 bits

theorem signedWord_toNat (neg : Bool) {bits : ℕ} (h : bits < 2 ^ 31) :
    (signedWord neg bits).toNat = (if neg then 2 ^ 31 else 0) + bits := by
  cases neg <;> simp [signedWord]
  all_goals omega

theorem signBit_eq_decide (a : F32) : signBit a = decide (2 ^ 31 ≤ a.toNat) := BitVec.msb_eq_decide a

theorem signedWord_signBit (neg : Bool) {bits : ℕ} (h : bits < 2 ^ 31) : signBit (signedWord neg bits) = neg := by
  rw [signBit_eq_decide, signedWord_toNat neg h]
  cases neg <;> simp
  omega

theorem signedWord_expField (neg : Bool) {bits : ℕ} (h : bits < 2 ^ 31) :
    expField (signedWord neg bits) = bits / 2 ^ 23 := by
  rw [expField, signedWord_toNat neg h]
  cases neg <;> simp only [if_true, Bool.false_eq_true, if_false] <;> omega

theorem signedWord_fracField (neg : Bool) {bits : ℕ} (h : bits < 2 ^ 31) :
    fracField (signedWord neg bits) = bits % 2 ^ 23 := by
  rw [fracField, signedWord_toNat neg h]
  cases neg <;> simp
  omega

theorem signedWord_magnitude (neg : Bool) {bits : ℕ} (h : bits < 2 ^ 31) :
    magnitude (signedWord neg bits) = magnitudeOfBits bits := by
  rw [magnitude, signedWord_expField neg h, signedWord_fracField neg h, magnitudeOfBits]

/-- A word's magnitude is a multiple of 2^e, or its exponent is smaller and it lies below 24 bits of that grid. -/
theorem magnitude_on_grid (u : F32) (e : ℕ) :
    2 ^ e ∣ magnitude u ∨ 1 ≤ e ∧ magnitude u ≤ (2 ^ 24 - 1) * 2 ^ (e - 1) := by
  have hf : fracField u < 2 ^ 23 := Nat.mod_lt _ (by norm_num)
  rcases Nat.eq_zero_or_pos e with rfl | he
  · exact .inl (one_dvd _)
  unfold magnitude
  split
  · exact .inr ⟨he, le_trans (by omega) (Nat.le_mul_of_pos_right _ (by positivity))⟩
  · rcases Nat.lt_or_ge (expField u - 1) e with h | h
    · exact .inr ⟨he, Nat.mul_le_mul (by omega) (Nat.pow_le_pow_right (by norm_num) (by omega))⟩
    · exact .inl (dvd_mul_of_dvd_right (pow_dvd_pow 2 h) _)

/-! ## Rounding an integer to a grid -/

/-- `roundShift` takes the quotient or the next integer, whichever is nearer. -/
theorem roundShift_eq_or (mag drop : ℕ) :
    (roundShift mag drop = mag / 2 ^ drop ∧ 2 * (mag % 2 ^ drop) ≤ 2 ^ drop)
      ∨ (roundShift mag drop = mag / 2 ^ drop + 1 ∧ 2 ^ drop ≤ 2 * (mag % 2 ^ drop)) := by
  unfold roundShift
  dsimp only
  generalize mag / 2 ^ drop = q
  generalize mag % 2 ^ drop = r
  generalize 2 ^ drop = p
  split <;> (try split) <;> omega

theorem roundShift_even_of_tie {mag drop : ℕ} (h : 2 * (mag % 2 ^ drop) = 2 ^ drop) : roundShift mag drop % 2 = 0 := by
  unfold roundShift
  dsimp only
  rw [if_neg (by omega), if_neg (by omega)]
  omega

/-- The rounded multiple of 2^drop is at most half a step away. -/
theorem roundShift_near (mag drop : ℕ) :
    2 * (roundShift mag drop * 2 ^ drop) ≤ 2 * mag + 2 ^ drop
      ∧ 2 * mag ≤ 2 * (roundShift mag drop * 2 ^ drop) + 2 ^ drop := by
  have hdiv := Nat.div_add_mod' mag (2 ^ drop)
  have hlt := Nat.mod_lt mag (by positivity : 0 < 2 ^ drop)
  rcases roundShift_eq_or mag drop with ⟨hs, hr⟩ | ⟨hs, hr⟩
  · rw [hs]
    omega
  · rw [hs, Nat.add_one_mul (mag / 2 ^ drop)]
    omega

/-- Half a step away, the rounded significand is even. -/
theorem roundShift_even {mag drop : ℕ} (h : 2 * (roundShift mag drop * 2 ^ drop) = 2 * mag + 2 ^ drop
      ∨ 2 * mag = 2 * (roundShift mag drop * 2 ^ drop) + 2 ^ drop) : roundShift mag drop % 2 = 0 := by
  have hdiv := Nat.div_add_mod' mag (2 ^ drop)
  have hlt := Nat.mod_lt mag (by positivity : 0 < 2 ^ drop)
  refine roundShift_even_of_tie ?_
  rcases roundShift_eq_or mag drop with ⟨hs, hr⟩ | ⟨hs, hr⟩
  · rw [hs] at h
    omega
  · rw [hs, Nat.add_one_mul (mag / 2 ^ drop)] at h
    omega

/-! ## The bits `roundedBits` makes -/

theorem le_dropBits (mag extra : ℕ) : extra ≤ dropBits mag extra := le_max_left _ _

/-- At most 24 significant bits stay above the dropped ones. -/
theorem lt_of_dropBits (mag extra : ℕ) : mag < 2 ^ 24 * 2 ^ dropBits mag extra := by
  rw [← pow_add]
  refine Nat.lt_log2_self.trans_le (Nat.pow_le_pow_right (by norm_num) ?_)
  unfold dropBits
  omega

/-- Where more than `extra` bits are dropped, exactly 24 significant bits stay. -/
theorem le_of_dropBits {mag extra : ℕ} (h : extra < dropBits mag extra) : 2 ^ 23 * 2 ^ dropBits mag extra ≤ mag := by
  have hlog : dropBits mag extra = mag.log2 - 23 := by unfold dropBits at h ⊢; omega
  have hmag : mag ≠ 0 := by
    rintro rfl
    simp [hlog] at h
  rw [← pow_add]
  refine (Nat.pow_le_pow_right (by norm_num) ?_).trans (Nat.log2_self_le hmag)
  omega

/-- The significand that `roundedBits` keeps. -/
def significand (mag extra : ℕ) : ℕ := roundShift mag (dropBits mag extra)

/-- How far the kept significand's last place lies above 2^-149. -/
def lastPlace (mag extra : ℕ) : ℕ := dropBits mag extra - extra

theorem roundedBits_eq (mag extra : ℕ) :
    roundedBits mag extra = lastPlace mag extra * 2 ^ 23 + significand mag extra := rfl

theorem dropBits_eq (mag extra : ℕ) : dropBits mag extra = lastPlace mag extra + extra :=
  (Nat.sub_add_cancel (le_dropBits mag extra)).symm

theorem significand_le (mag extra : ℕ) : significand mag extra ≤ 2 ^ 24 := by
  have hq := Nat.div_lt_of_lt_mul ((mul_comm _ _).trans_gt (lt_of_dropBits mag extra))
  unfold significand
  rcases roundShift_eq_or mag (dropBits mag extra) with ⟨h, -⟩ | ⟨h, -⟩ <;> omega

theorem le_significand {mag extra : ℕ} (h : 0 < lastPlace mag extra) : 2 ^ 23 ≤ significand mag extra := by
  have hq := (Nat.le_div_iff_mul_le (by positivity)).2 (le_of_dropBits (Nat.lt_of_sub_pos h))
  unfold significand
  rcases roundShift_eq_or mag (dropBits mag extra) with ⟨h, -⟩ | ⟨h, -⟩ <;> omega

/-- The carry of a significand that rounds up to 2^24 goes into the exponent by itself. -/
theorem magnitudeOfBits_add {e s : ℕ} (hle : s ≤ 2 ^ 24) (hge : 0 < e → 2 ^ 23 ≤ s) :
    magnitudeOfBits (e * 2 ^ 23 + s) = s * 2 ^ e := by
  unfold magnitudeOfBits
  rcases Nat.lt_or_ge s (2 ^ 23) with hsub | hnorm
  · obtain rfl : e = 0 := by omega
    rw [if_pos (by omega)]
    omega
  rcases Nat.lt_or_ge s (2 ^ 24) with hs | hs
  · rw [if_neg (by omega), show (e * 2 ^ 23 + s) / 2 ^ 23 - 1 = e by omega]
    congr 1
    omega
  · obtain rfl : s = 2 ^ 24 := by omega
    rw [if_neg (by omega), show (e * 2 ^ 23 + 2 ^ 24) / 2 ^ 23 - 1 = e + 1 by omega,
      show (e * 2 ^ 23 + 2 ^ 24) % 2 ^ 23 = 0 by omega]
    ring

theorem magnitudeOfBits_roundedBits (mag extra : ℕ) :
    magnitudeOfBits (roundedBits mag extra) = significand mag extra * 2 ^ lastPlace mag extra :=
  magnitudeOfBits_add (significand_le mag extra) le_significand

/-- The kept significand is at most half a step away from the exact value. -/
theorem significand_near (mag extra : ℕ) :
    2 * (significand mag extra * 2 ^ dropBits mag extra) ≤ 2 * mag + 2 ^ dropBits mag extra
      ∧ 2 * mag ≤ 2 * (significand mag extra * 2 ^ dropBits mag extra) + 2 ^ dropBits mag extra :=
  roundShift_near mag _

/-- Ties go to the even significand (R16). -/
theorem significand_even {mag extra : ℕ}
    (h : 2 * (significand mag extra * 2 ^ dropBits mag extra) = 2 * mag + 2 ^ dropBits mag extra
      ∨ 2 * mag = 2 * (significand mag extra * 2 ^ dropBits mag extra) + 2 ^ dropBits mag extra) :
    significand mag extra % 2 = 0 := roundShift_even h

/-- R16: the rounding overflows from half a unit beyond the largest finite value on. There the last place is
2^253 units, and the tie goes to the even significand 2^24. -/
theorem roundedBits_overflow (mag extra : ℕ) :
    0x7F800000 ≤ roundedBits mag extra ↔ (2 ^ 25 - 1) * 2 ^ 252 * 2 ^ extra ≤ mag := by
  have hle := significand_le mag extra
  have hd := dropBits_eq mag extra
  have hpos : 0 < 2 ^ extra := by positivity
  rw [roundedBits_eq]
  rcases lt_trichotomy (lastPlace mag extra) 253 with he | he | he
  · have hlt := lt_of_dropBits mag extra
    have hstep : 2 ^ dropBits mag extra ≤ 2 ^ 252 * 2 ^ extra := by
      rw [← pow_add]
      exact Nat.pow_le_pow_right (by norm_num) (by omega)
    omega
  · have hstep : 2 ^ dropBits mag extra = 2 ^ 253 * 2 ^ extra := by rw [hd, he, pow_add]
    have hnear := significand_near mag extra
    have heven := @significand_even mag extra
    rw [hstep] at hnear heven
    rw [he]
    constructor
    · intro h
      rw [show significand mag extra = 2 ^ 24 by omega] at hnear
      omega
    · intro h
      by_contra hlt
      have hmul := Nat.mul_le_mul_right (2 ^ 253 * 2 ^ extra) (by omega : significand mag extra ≤ 2 ^ 24 - 1)
      have hodd := heven (.inr (by omega))
      have hmul2 := Nat.mul_le_mul_right (2 ^ 253 * 2 ^ extra) (by omega : significand mag extra ≤ 2 ^ 24 - 2)
      omega
  · have hge := le_significand (by omega : 0 < lastPlace mag extra)
    have hmag := le_of_dropBits (by omega : extra < dropBits mag extra)
    have hstep : 2 ^ 254 * 2 ^ extra ≤ 2 ^ dropBits mag extra := by
      rw [← pow_add]
      exact Nat.pow_le_pow_right (by norm_num) (by omega)
    omega

end Sys2Proof.Machine
end

section
/-! RNE32 (R16) of a signed integer over a power of two: `roundScaled_isRne`. -/

namespace Sys2Proof.Machine

/-- An integer of a sign and a magnitude. -/
def signedInt (neg : Bool) (z : ℤ) : ℤ := if neg then -z else z

theorem scaled_eq_signedInt (a : F32) : scaled a = signedInt (signBit a) (magnitude a) := rfl

theorem signedInt_signedInt (neg : Bool) (z : ℤ) : signedInt neg (signedInt neg z) = z := by
  cases neg
  · rfl
  · exact neg_neg z

theorem abs_signedInt (neg : Bool) (z : ℤ) : |signedInt neg z| = |z| := by
  cases neg
  · rfl
  · exact abs_neg z

theorem abs_scaled (a : F32) : |scaled a| = magnitude a := by
  rw [scaled_eq_signedInt, abs_signedInt, Nat.abs_cast]

/-- The distance from a word's value to a signed quotient, in units of the quotient. -/
theorem abs_valueOf_sub (u : F32) (neg : Bool) (mag extra : ℕ) :
    |valueOf u - signedInt neg mag / 2 ^ (149 + extra)|
      = ((|signedInt neg (scaled u) * 2 ^ extra - mag| : ℤ) : ℝ) / 2 ^ (149 + extra) := by
  have hpos : (0 : ℝ) < 2 ^ (149 + extra) := by positivity
  have hdist : |signedInt neg (scaled u) * 2 ^ extra - mag| = |scaled u * 2 ^ extra - signedInt neg mag| := by
    cases neg
    · rfl
    · rw [← abs_neg]
      congr 1
      simp only [signedInt, if_true]
      ring
  rw [hdist, Int.cast_abs, ← abs_of_pos hpos, ← abs_div, abs_of_pos hpos, valueOf]
  congr 1
  push_cast
  rw [pow_add]
  field_simp

/-- Every word but the rounded one is at least half a step away from the exact value: it lies on the step's grid,
or its exponent is smaller and it lies below every value that has the step. -/
theorem far_of_ne_significand {mag extra : ℕ} {z : ℤ} {u : F32} (hz : |z| = magnitude u)
    (hne : z ≠ significand mag extra * 2 ^ lastPlace mag extra) :
    2 * (z * 2 ^ extra) + 2 ^ dropBits mag extra ≤ 2 * mag
      ∨ 2 * mag + 2 ^ dropBits mag extra ≤ 2 * (z * 2 ^ extra) := by
  have hd := dropBits_eq mag extra
  obtain ⟨hlo, hhi⟩ := significand_near mag extra
  zify at hlo hhi
  rcases magnitude_on_grid u (lastPlace mag extra) with hdvd | ⟨he, hsmall⟩
  · zify at hdvd
    rw [← hz, dvd_abs] at hdvd
    obtain ⟨t, rfl⟩ := hdvd
    have hgrid : 2 ^ lastPlace mag extra * t * 2 ^ extra = t * 2 ^ dropBits mag extra := by rw [hd]; ring
    rw [hgrid]
    have hts : t ≠ significand mag extra := fun h => hne (by rw [h, mul_comm])
    have hpos : (0 : ℤ) < 2 ^ dropBits mag extra := by positivity
    rcases lt_or_gt_of_ne hts with h | h
    · exact .inl (by nlinarith)
    · exact .inr (by nlinarith)
  · have hmag := le_of_dropBits (by omega : extra < dropBits mag extra)
    have hstep : 2 ^ dropBits mag extra = 2 * 2 ^ (lastPlace mag extra - 1) * 2 ^ extra := by
      rw [hd, ← pow_succ', Nat.sub_add_cancel he, pow_add]
    zify at hsmall
    have hbelow : z ≤ (2 ^ 24 - 1) * 2 ^ (lastPlace mag extra - 1) := (le_abs_self z).trans (hz.trans_le hsmall)
    have hscaled := mul_le_mul_of_nonneg_right hbelow (by positivity : (0 : ℤ) ≤ 2 ^ extra)
    zify at hmag hstep
    left
    rw [hstep] at hmag ⊢
    linarith

/-- No word is nearer to the exact value than the rounded one. -/
theorem significand_nearest {mag extra : ℕ} {z : ℤ} {u : F32} (hz : |z| = magnitude u) :
    |(significand mag extra * 2 ^ lastPlace mag extra * 2 ^ extra - mag : ℤ)| ≤ |z * 2 ^ extra - mag| := by
  by_cases hne : z = significand mag extra * 2 ^ lastPlace mag extra
  · rw [hne]
  obtain ⟨hlo, hhi⟩ := significand_near mag extra
  zify at hlo hhi
  rw [mul_assoc, ← pow_add, ← dropBits_eq]
  have hfar := far_of_ne_significand hz hne
  rw [abs_le]
  rcases abs_cases (z * 2 ^ extra - mag : ℤ) with ⟨habs, hside⟩ | ⟨habs, hside⟩ <;> omega

/-- Where another word is as near, the kept significand is even. -/
theorem significand_even_of_tie {mag extra : ℕ} {z : ℤ} {u : F32} (hz : |z| = magnitude u)
    (hne : z ≠ significand mag extra * 2 ^ lastPlace mag extra)
    (htie : |z * 2 ^ extra - mag| = |(significand mag extra * 2 ^ lastPlace mag extra * 2 ^ extra - mag : ℤ)|) :
    significand mag extra % 2 = 0 := by
  obtain ⟨hlo, hhi⟩ := significand_near mag extra
  have hfar := far_of_ne_significand hz hne
  refine significand_even ?_
  rw [mul_assoc, ← pow_add, ← dropBits_eq] at htie
  zify at hlo hhi ⊢
  rcases abs_eq_abs.1 htie with h | h <;> omega

/-- `roundScaled` is `signedWord` of its bits, until they overflow. -/
theorem roundScaled_of_lt (neg : Bool) {mag extra : ℕ} (h : roundedBits mag extra < 0x7F800000) :
    roundScaled neg mag extra = signedWord neg (roundedBits mag extra) := if_neg (not_le.2 h)

theorem roundScaled_of_ge (neg : Bool) {mag extra : ℕ} (h : 0x7F800000 ≤ roundedBits mag extra) :
    roundScaled neg mag extra = infinity neg := if_pos h

/-- The value of the rounded word, up to its sign. -/
theorem scaled_roundScaled (neg : Bool) {mag extra : ℕ} (h : roundedBits mag extra < 0x7F800000) :
    signedInt neg (scaled (roundScaled neg mag extra)) = significand mag extra * 2 ^ lastPlace mag extra := by
  rw [roundScaled_of_lt neg h, scaled_eq_signedInt, signedWord_signBit neg (by omega), signedInt_signedInt,
    signedWord_magnitude neg (by omega), magnitudeOfBits_roundedBits]
  push_cast
  rfl

theorem signBit_roundScaled (neg : Bool) (mag extra : ℕ) : signBit (roundScaled neg mag extra) = neg := by
  rcases Nat.lt_or_ge (roundedBits mag extra) 0x7F800000 with h | h
  · rw [roundScaled_of_lt neg h, signedWord_signBit neg (by omega)]
  · rw [roundScaled_of_ge neg h]
    cases neg <;> decide

theorem isFinite_roundScaled (neg : Bool) {mag extra : ℕ} (h : roundedBits mag extra < 0x7F800000) :
    isFinite (roundScaled neg mag extra) = true := by
  rw [roundScaled_of_lt neg h, isFinite, signedWord_expField neg (by omega), bne_iff_ne]
  omega

theorem isInf_infinity (neg : Bool) : isInf (infinity neg) = true := by cases neg <;> decide

/-- The overflow threshold of R16, in the units of a quotient. -/
theorem threshold_le_iff (neg : Bool) (mag extra : ℕ) :
    (2 : ℝ) ^ 128 - 2 ^ 103 ≤ |(signedInt neg mag : ℝ) / 2 ^ (149 + extra)| ↔ 0x7F800000 ≤ roundedBits mag extra := by
  rw [roundedBits_overflow, abs_div, abs_of_pos (by positivity : (0 : ℝ) < 2 ^ (149 + extra)), ← Int.cast_abs,
    abs_signedInt, Nat.abs_cast, le_div_iff₀ (by positivity), ← Nat.cast_le (α := ℝ)]
  have : ((2 : ℝ) ^ 128 - 2 ^ 103) * 2 ^ (149 + extra) = (((2 ^ 25 - 1) * 2 ^ 252 * 2 ^ extra : ℕ) : ℝ) := by
    push_cast
    rw [pow_add]
    ring
  rw [this, Int.cast_natCast]

/-- A negative quotient has the sign of a negative number. -/
theorem eq_true_of_signedInt_div_neg {neg : Bool} {mag : ℕ} {d : ℝ} (hd : 0 ≤ d)
    (h : (signedInt neg mag : ℝ) / d < 0) : neg = true := by
  cases neg with
  | true => rfl
  | false => exact absurd h (not_lt.2 (div_nonneg (Int.cast_nonneg (Int.natCast_nonneg mag)) hd))

/-- A positive quotient has the sign of a positive number. -/
theorem eq_false_of_signedInt_div_pos {neg : Bool} {mag : ℕ} {d : ℝ} (hd : 0 ≤ d)
    (h : 0 < (signedInt neg mag : ℝ) / d) : neg = false := by
  cases neg with
  | false => rfl
  | true =>
    have hle : ((signedInt true mag : ℤ) : ℝ) ≤ 0 := Int.cast_nonpos.2 (neg_nonpos.2 (Int.natCast_nonneg mag))
    exact absurd h (not_lt.2 (div_nonpos_of_nonpos_of_nonneg hle hd))

/-- Two words of one signed integer have one value. -/
theorem valueOf_eq_of_signedInt_eq {u w : F32} (neg : Bool) (h : signedInt neg (scaled u) = signedInt neg (scaled w)) :
    valueOf u = valueOf w := by
  rw [valueOf, valueOf, ← signedInt_signedInt neg (scaled u), h, signedInt_signedInt]

theorem fracField_roundScaled (neg : Bool) {mag extra : ℕ} (h : roundedBits mag extra < 0x7F800000) :
    fracField (roundScaled neg mag extra) % 2 = significand mag extra % 2 := by
  rw [roundScaled_of_lt neg h, signedWord_fracField neg (by omega), roundedBits_eq]
  omega

/-- R16: `roundScaled` is RNE32 of its signed quotient. -/
theorem roundScaled_isRne (neg : Bool) (mag extra : ℕ) :
    IsRne (signedInt neg mag / 2 ^ (149 + extra)) (roundScaled neg mag extra) := by
  have hpos : (0 : ℝ) < 2 ^ (149 + extra) := by positivity
  have hlt : |(signedInt neg mag : ℝ) / 2 ^ (149 + extra)| < 2 ^ 128 - 2 ^ 103 →
      roundedBits mag extra < 0x7F800000 :=
    fun h => not_le.1 fun hge => not_lt.2 ((threshold_le_iff neg mag extra).2 hge) h
  have habs : ∀ u, |signedInt neg (scaled u)| = magnitude u := fun u => (abs_signedInt neg _).trans (abs_scaled u)
  refine ⟨fun h => ?_, fun h => isFinite_roundScaled neg (hlt h), fun h u _ => ?_, fun h u _ hne htie => ?_,
    fun h _ => ?_, fun h _ => ?_⟩
  · rw [roundScaled_of_ge neg ((threshold_le_iff neg mag extra).1 h)]
    exact isInf_infinity neg
  · rw [abs_valueOf_sub, abs_valueOf_sub, scaled_roundScaled neg (hlt h)]
    exact div_le_div_of_nonneg_right (Int.cast_le.2 (significand_nearest (habs u))) hpos.le
  · rw [abs_valueOf_sub, abs_valueOf_sub, div_left_inj' hpos.ne', Int.cast_inj, scaled_roundScaled neg (hlt h)] at htie
    rw [fracField_roundScaled neg (hlt h)]
    refine significand_even_of_tie (habs u) (fun hz => hne ?_) htie
    exact valueOf_eq_of_signedInt_eq neg (hz.trans (scaled_roundScaled neg (hlt h)).symm)
  · rw [signBit_roundScaled, eq_true_of_signedInt_div_neg hpos.le h]
  · rw [signBit_roundScaled, eq_false_of_signedInt_div_pos hpos.le h]

end Sys2Proof.Machine
end

section
/-! RNE32 (R16) of numbers that are known only by where they lie: between two numbers that round alike, or between
neighbouring multiples of 2^-150. So `roundRatio` rounds every quotient, and a word that an enclosure settles on rounds
what it encloses: `settle_isRne`. -/

namespace Sys2Proof.Machine

/-! ## RNE32 where the rounded number is only known between two others -/

/-- Of two values the nearer one is the one on the number's side of the halfway point. -/
theorem abs_sub_le_abs_sub_iff {u w x : ℝ} : |w - x| ≤ |u - x| ↔ 0 ≤ (u - w) * (u + w - 2 * x) := by
  rw [← sq_le_sq, ← sub_nonneg, show (u - x) ^ 2 - (w - x) ^ 2 = (u - w) * (u + w - 2 * x) by ring]

/-- Two different values are equally near only to their halfway point. -/
theorem add_eq_of_abs_sub_eq {u w x : ℝ} (hne : u ≠ w) (h : |u - x| = |w - x|) : u + w = 2 * x := by
  rcases abs_eq_abs.1 h with h | h
  · exact absurd (sub_left_inj.1 h) hne
  · linarith

/-- The overflow threshold 2^128 - 2^103 of R16. -/
theorem threshold_pos : (0 : ℝ) < 2 ^ 128 - 2 ^ 103 := by norm_num

/-- An infinity is no finite word. -/
theorem isFinite_eq_false_of_isInf {w : F32} (h : isInf w = true) : isFinite w = false := by
  simp only [isInf, Bool.and_eq_true, beq_iff_eq] at h
  simp [isFinite, h.1]

/-- A word that rounds a number rounds it finitely exactly when the number is below the threshold. -/
theorem IsRne.isFinite_iff {x : ℝ} {w : F32} (h : IsRne x w) :
    isFinite w = true ↔ |x| < (2 : ℝ) ^ 128 - 2 ^ 103 := by
  refine ⟨fun hw => not_le.1 fun hx => ?_, h.finite⟩
  simp [isFinite_eq_false_of_isInf (h.overflow hx)] at hw

theorem magnitude_ne_zero_of_isInf {w : F32} (h : isInf w = true) : magnitude w ≠ 0 := by
  simp only [isInf, Bool.and_eq_true, beq_iff_eq] at h
  rw [magnitude, if_neg (by omega)]
  positivity

/-- Below the threshold no number lies between two that round to one infinity: they have the infinity's sign. -/
theorem IsRne.isFinite_between {a x b : ℝ} {w : F32} (ha : IsRne a w) (hb : IsRne b w) (hax : a ≤ x) (hxb : x ≤ b)
    (hx : |x| < (2 : ℝ) ^ 128 - 2 ^ 103) : isFinite w = true := by
  obtain ⟨hlo, hhi⟩ := abs_lt.1 hx
  by_contra hw
  have hfara := not_lt.1 (mt ha.isFinite_iff.2 hw)
  have hfarb := not_lt.1 (mt hb.isFinite_iff.2 hw)
  have hmag := magnitude_ne_zero_of_isInf (ha.overflow hfara)
  have hneg := ha.negative (by rcases le_abs.1 hfara with h | h <;> linarith [threshold_pos]) hmag
  have hpos := hb.positive (by rcases le_abs.1 hfarb with h | h <;> linarith [threshold_pos]) hmag
  exact Bool.false_ne_true (hpos.symm.trans hneg)

/-- A number between two that round to one word rounds to that word. -/
theorem IsRne.between {a x b : ℝ} {w : F32} (ha : IsRne a w) (hb : IsRne b w) (hax : a ≤ x) (hxb : x ≤ b) :
    IsRne x w := by
  have hfin := ha.isFinite_between hb hax hxb
  have hsides : |x| < (2 : ℝ) ^ 128 - 2 ^ 103 → ∀ u, isFinite u = true →
      0 ≤ (valueOf u - valueOf w) * (valueOf u + valueOf w - 2 * a)
        ∧ 0 ≤ (valueOf u - valueOf w) * (valueOf u + valueOf w - 2 * b) := fun hx u hu =>
    ⟨abs_sub_le_abs_sub_iff.1 (ha.nearest (ha.isFinite_iff.1 (hfin hx)) u hu),
      abs_sub_le_abs_sub_iff.1 (hb.nearest (hb.isFinite_iff.1 (hfin hx)) u hu)⟩
  refine ⟨fun hx => ?_, hfin, fun hx u hu => ?_, fun hx u hu hne htie => ?_, fun hx => ha.negative (hax.trans_lt hx),
    fun hx => hb.positive (hx.trans_le hxb)⟩
  · rcases le_abs.1 hx with h | h
    · exact hb.overflow (le_abs.2 (.inl (h.trans hxb)))
    · exact ha.overflow (le_abs.2 (.inr (h.trans (neg_le_neg hax))))
  · obtain ⟨hwa, hwb⟩ := hsides hx u hu
    rw [abs_sub_le_abs_sub_iff]
    rcases le_total (valueOf w) (valueOf u) with h | h
    · exact hwb.trans (mul_le_mul_of_nonneg_left (by linarith) (sub_nonneg.2 h))
    · exact hwa.trans (mul_le_mul_of_nonpos_left (by linarith) (sub_nonpos.2 h))
  · obtain ⟨hwa, hwb⟩ := hsides hx u hu
    rw [add_eq_of_abs_sub_eq hne htie] at hwa hwb
    -- x is a halfway point, so it can only be the end on the other word's side
    rcases lt_or_gt_of_ne hne with h | h
    · have hxa : x = a := le_antisymm (by nlinarith) hax
      exact ha.even (ha.isFinite_iff.1 (hfin hx)) u hu hne (hxa ▸ htie)
    · have hxb : x = b := le_antisymm hxb (by nlinarith)
      exact hb.even (hb.isFinite_iff.1 (hfin hx)) u hu hne (hxb ▸ htie)

/-- The number lies strictly between two neighbouring multiples of 2^-150. -/
structure InCell (k : ℤ) (x : ℝ) : Prop where
  lower : k < x * 2 ^ 150
  upper : x * 2 ^ 150 < k + 1

theorem InCell.lt_iff {k : ℤ} {x : ℝ} (h : InCell k x) (t : ℤ) : x * 2 ^ 150 < t ↔ k < t := by
  refine ⟨fun hx => by exact_mod_cast h.lower.trans hx, fun hk => h.upper.trans_le ?_⟩
  exact_mod_cast hk

theorem InCell.gt_iff {k : ℤ} {x : ℝ} (h : InCell k x) (t : ℤ) : t < x * 2 ^ 150 ↔ t ≤ k := by
  refine ⟨fun hx => Int.lt_add_one_iff.1 (by exact_mod_cast hx.trans h.upper), fun hk => lt_of_le_of_lt ?_ h.lower⟩
  exact_mod_cast hk

theorem InCell.neg {k : ℤ} {x : ℝ} (h : InCell k x) : InCell (-k - 1) (-x) := by
  obtain ⟨lower, upper⟩ := h
  constructor <;> push_cast <;> linarith

theorem InCell.neg_iff {k : ℤ} {x : ℝ} (h : InCell k x) : x < 0 ↔ k < 0 := by
  rw [← h.lt_iff 0, Int.cast_zero, ← not_le, ← not_le, mul_nonneg_iff_of_pos_right (by positivity)]

theorem InCell.pos_iff {k : ℤ} {x : ℝ} (h : InCell k x) : 0 < x ↔ 0 ≤ k := by
  rw [← h.gt_iff 0, Int.cast_zero, mul_pos_iff_of_pos_right (by positivity)]

/-- The threshold is a multiple of 2^-150. -/
theorem InCell.abs_lt_threshold_iff {k : ℤ} {x : ℝ} (h : InCell k x) :
    |x| < (2 : ℝ) ^ 128 - 2 ^ 103 ↔ -((2 ^ 25 - 1) * 2 ^ 253) ≤ k ∧ k < (2 ^ 25 - 1) * 2 ^ 253 := by
  rw [← h.lt_iff, ← h.gt_iff, abs_lt]
  push_cast
  constructor <;> rintro ⟨h1, h2⟩ <;> constructor <;> linarith

/-- The halfway point of two values is a multiple of 2^-150. -/
theorem halfway_eq (u w : F32) (x : ℝ) :
    valueOf u + valueOf w - 2 * x = (((scaled u + scaled w : ℤ) : ℝ) - x * 2 ^ 150) / 2 ^ 149 := by
  unfold valueOf
  push_cast
  ring

/-- What rounds one number strictly between two neighbouring multiples of 2^-150 rounds every such number: halfway
points of values, zero and the overflow threshold are such multiples. -/
theorem IsRne.of_inCell {k : ℤ} {x y : ℝ} {w : F32} (hy : IsRne y w) (cx : InCell k x) (cy : InCell k y) :
    IsRne x w := by
  have hthreshold : |x| < (2 : ℝ) ^ 128 - 2 ^ 103 ↔ |y| < (2 : ℝ) ^ 128 - 2 ^ 103 :=
    cx.abs_lt_threshold_iff.trans cy.abs_lt_threshold_iff.symm
  refine ⟨?_, ?_, ?_, ?_, ?_, ?_⟩
  · exact fun hx => hy.overflow (not_lt.1 fun h => not_lt.2 hx (hthreshold.2 h))
  · exact fun hx => hy.finite (hthreshold.1 hx)
  · intro hx u hu
    have hnear := hy.nearest (hthreshold.1 hx) u hu
    rw [abs_sub_le_abs_sub_iff, halfway_eq] at hnear ⊢
    rcases le_or_gt (scaled u + scaled w) k with hk | hk
    · have hyn := div_neg_of_neg_of_pos (sub_neg.2 ((cy.gt_iff _).2 hk)) (by positivity : (0 : ℝ) < 2 ^ 149)
      have hxn := div_neg_of_neg_of_pos (sub_neg.2 ((cx.gt_iff _).2 hk)) (by positivity : (0 : ℝ) < 2 ^ 149)
      exact mul_nonneg_of_nonpos_of_nonpos (nonpos_of_mul_nonneg_left hnear hyn) hxn.le
    · have hyp := div_pos (sub_pos.2 ((cy.lt_iff _).2 hk)) (by positivity : (0 : ℝ) < 2 ^ 149)
      have hxp := div_pos (sub_pos.2 ((cx.lt_iff _).2 hk)) (by positivity : (0 : ℝ) < 2 ^ 149)
      exact mul_nonneg (nonneg_of_mul_nonneg_left hnear hyp) hxp.le
  · intro _ u _ hne htie
    have hx : x * 2 ^ 150 = ((scaled u + scaled w : ℤ) : ℝ) := by
      have h := halfway_eq u w x
      rw [add_eq_of_abs_sub_eq hne htie, sub_self, eq_comm, div_eq_zero_iff] at h
      linarith [h.resolve_right (by positivity)]
    exact absurd ((cx.gt_iff _).2 (not_lt.1 fun h => absurd hx ((cx.lt_iff _).2 h).ne)) hx.not_gt
  · exact fun hx => hy.negative (cy.neg_iff.2 (cx.neg_iff.1 hx))
  · exact fun hx => hy.positive (cy.pos_iff.2 (cx.pos_iff.1 hx))

/-! ## RNE32 of a quotient, and of what an interval that settles encloses -/

/-- The magnitude `roundRatio` takes is the quotient, where that is a multiple of 2^-150. -/
theorem ratioMagnitude_of_eq {num den u : ℕ} (hd : 0 < den) (h : num * 2 ^ 150 = u * den) :
    ratioMagnitude num den = 4 * u := by
  have h2 : num * 2 ^ 151 = 2 * u * den := by rw [mul_assoc 2 u, ← h]; ring
  rw [ratioMagnitude, h2, Nat.mul_div_cancel _ hd, Nat.mul_mod_left, if_pos rfl]
  ring

/-- Anywhere else it lies in the quotient's cell: the last bit keeps it off the multiples. -/
theorem ratioMagnitude_inCell {num den : ℕ} (hd : 0 < den) (h : ∀ u, num * 2 ^ 150 ≠ u * den) :
    InCell (num * 2 ^ 150 / den : ℕ) (num / den)
      ∧ InCell (num * 2 ^ 150 / den : ℕ) (ratioMagnitude num den / 2 ^ 152) := by
  have hdr : (0 : ℝ) < den := by exact_mod_cast hd
  have hmod := ratioMagnitude_mod h
  have hdiv := ratioMagnitude_div num (den := den)
  have hle := (Nat.div_mul_le_self (num * 2 ^ 150) den).lt_of_ne (h _).symm
  have hlt := (Nat.div_lt_iff_lt_mul hd).1 (Nat.lt_succ_self (num * 2 ^ 150 / den))
  generalize num * 2 ^ 150 / den = k at *
  refine ⟨⟨?_, ?_⟩, ⟨?_, ?_⟩⟩
  · rw [div_mul_eq_mul_div, lt_div_iff₀ hdr]
    exact_mod_cast hle
  · rw [div_mul_eq_mul_div, div_lt_iff₀ hdr]
    exact_mod_cast hlt
  · have hlow : (4 * k : ℝ) < ratioMagnitude num den := by exact_mod_cast (by omega : 4 * k < ratioMagnitude num den)
    push_cast
    linarith
  · have hhigh : (ratioMagnitude num den : ℝ) < 4 * (k + 1) := by
      exact_mod_cast (by omega : ratioMagnitude num den < 4 * (k + 1))
    push_cast
    linarith

theorem signedInt_div_congr (neg : Bool) {m n : ℕ} {c d : ℝ} (h : m / c = n / d) :
    (signedInt neg m / c : ℝ) = signedInt neg n / d := by
  cases neg
  · exact h
  · simpa [signedInt, neg_div] using h

/-- R16: `roundRatio` is RNE32 of its signed quotient. -/
theorem roundRatio_isRne (neg : Bool) (num : ℕ) {den : ℕ} (hd : 0 < den) :
    IsRne (signedInt neg num / den) (roundRatio neg num den) := by
  have hr := roundScaled_isRne neg (ratioMagnitude num den) 3
  rw [roundRatio_eq]
  by_cases hu : ∃ u, num * 2 ^ 150 = u * den
  · obtain ⟨u, hu⟩ := hu
    have hdr : (0 : ℝ) < den := by exact_mod_cast hd
    have hur : (num : ℝ) * 2 ^ 150 = u * den := by exact_mod_cast hu
    have hval : (num / den : ℝ) = (4 * u : ℕ) / 2 ^ (149 + 3) := by
      rw [div_eq_div_iff hdr.ne' (by positivity)]
      push_cast
      linarith
    rw [ratioMagnitude_of_eq hd hu] at hr ⊢
    rwa [signedInt_div_congr neg hval]
  · obtain ⟨cq, cm⟩ := ratioMagnitude_inCell hd (not_exists.1 hu)
    cases neg with
    | false => exact hr.of_inCell cq cm
    | true =>
      simp only [signedInt, if_true, Int.cast_neg, Int.cast_natCast, neg_div] at hr ⊢
      exact hr.of_inCell cq.neg cm.neg

/-- R16: `roundIntRatio` is RNE32 of its quotient. -/
theorem roundIntRatio_isRne (num : ℤ) {den : ℕ} (hd : 0 < den) : IsRne (num / den) (roundIntRatio num den) := by
  have hnum : signedInt (decide (num < 0)) num.natAbs = num := by
    rw [signedInt]
    split
    next hneg => rw [decide_eq_true_iff] at hneg; omega
    next hpos => rw [decide_eq_true_iff] at hpos; omega
  have h := roundRatio_isRne (decide (num < 0)) num.natAbs hd
  rwa [hnum] at h

/-- A word that an enclosure of x at scale 2^p settles on is RNE32 of the enclosed quotient. -/
theorem settle_isRne {r : Interval} {x : ℝ} {p den : ℕ} {w : F32} (hd : 0 < den) (hx : r.Holds (x * 2 ^ p))
    (h : settle r (2 ^ p * den) = some w) : IsRne (x / den) w := by
  have hpos : 0 < 2 ^ p * den := by positivity
  have hlo := roundIntRatio_isRne r.lo hpos
  have hhi := roundIntRatio_isRne r.hi hpos
  have hval : x / den = x * 2 ^ p / (2 ^ p * den : ℕ) := by
    push_cast
    field_simp
  obtain ⟨hxlo, hxhi⟩ := hx
  unfold settle at h
  split at h
  next heq =>
    obtain rfl := Option.some.inj h
    rw [← heq] at hhi
    rw [hval]
    exact hlo.between hhi (div_le_div_of_nonneg_right hxlo (by positivity))
      (div_le_div_of_nonneg_right hxhi (by positivity))
  next => cases h

/-- Every precision tried is at least the first. -/
theorem le_of_mem_precisions {start need p : ℕ} (h : p ∈ precisions start need) : start ≤ p := by
  obtain ⟨k, -, rfl⟩ := List.mem_map.1 h
  exact Nat.le_mul_of_pos_right _ (by positivity)

end Sys2Proof.Machine
end

section
/-! The window tables (R201, R202). -/

namespace Sys2Proof.Machine

/-- What the search for a window entry finds is the sine, rounded once. -/
theorem windowSearch_isRne {len den i : ℕ} {w : F32} (hlen : i < len) (hden : 0 < den)
    (h : windowSearch len den i = some w) : IsRne (Real.sin (Real.pi * i / (2 * len - 1 : ℕ)) / den) w := by
  obtain ⟨p, hp, hw⟩ := List.exists_of_findSome?_eq_some h
  have hprec := le_of_mem_precisions hp
  obtain ⟨hholds, -⟩ := sinPi_spec (a := i) (b := 2 * len - 1) (F := p) (by omega) (by omega) (by omega)
  exact settle_isRne hden hholds hw

theorem zero_isRne : IsRne 0 0x00000000#32 := by
  have hzero : roundIntRatio 0 1 = 0x00000000#32 := by decide
  simpa [hzero] using roundIntRatio_isRne 0 one_pos

/-- A window entry is the sine of its rule, rounded once: the search always settles, and entry 0 is exact. -/
theorem windowEntry_isRne {len den i : ℕ} (hlen : i < len) (hden : 0 < den) :
    IsRne (Real.sin (Real.pi * i / (2 * len - 1)) / den) (windowEntry len den i) := by
  unfold windowEntry
  split
  next h0 =>
    rw [h0]
    simpa using zero_isRne
  next h0 =>
    obtain ⟨w, hw⟩ := windowSearch_settles (Nat.one_le_iff_ne_zero.2 h0) hlen hden
    have h := windowSearch_isRne hlen hden hw
    rw [Nat.cast_sub (by omega)] at h
    rw [hw, Option.getD_some]
    exact_mod_cast h

theorem windowEntry_zero (len den : ℕ) : windowEntry len den 0 = 0x00000000#32 := rfl

/-- Every entry of a table of window entries is its sine, rounded once, and entry 0 is +0.0. -/
theorem windowTable_getElem?_isRne {len den i : ℕ} {w : F32} (hden : 0 < den)
    (h : (tabulate len (windowEntry len den))[i]? = some w) :
    IsRne (Real.sin (Real.pi * i / (2 * len - 1)) / den) w ∧ (i = 0 → w = 0x00000000#32) := by
  rw [tabulate_getElem?] at h
  split at h
  next hi =>
    obtain rfl := Option.some.inj h
    exact ⟨windowEntry_isRne hi hden, fun h0 => h0 ▸ windowEntry_zero len den⟩
  next => cases h

/-- Settles O44: both tables are tabulations of `windowEntry`, with the scales 1/(2N) and 1. -/
theorem windowEntriesAreCorrectlyRounded : Obligations.WindowEntriesAreCorrectlyRounded := by
  intro b hn hl
  refine ⟨tabulate_length _ _, tabulate_length _ _, fun i w h => ?_, fun j w h => ?_⟩
  · have entry := windowTable_getElem?_isRne (by omega : 0 < 2 * b.n) h
    push_cast at entry
    exact entry
  · have entry := windowTable_getElem?_isRne one_pos h
    push_cast at entry
    rwa [div_one] at entry

end Sys2Proof.Machine
end

section
/-! The two loops of an overlap-add call (R241, R242) as lists. -/

namespace Sys2Proof.Machine

/-- A tabulation over a stretch of one list and the elements of another is a zip. -/
theorem tabulate_getD_stretch_zipWith {α β γ : Type} (f : α → β → γ) (d : α) (e : β) {n off : Nat} {xs : List α}
    {ys : List β} (hx : off + n ≤ xs.length) (hy : ys.length = n) :
    tabulate n (fun i => f (xs.getD (off + i) d) (ys.getD i e)) = List.zipWith f ((xs.drop off).take n) ys := by
  have stretch : ∀ i < n, xs.getD (off + i) d = ((xs.drop off).take n).getD i d := fun i hi => by
    rw [← tabulate_getD_stretch d hx, tabulate_getD n _ d hi]
  rw [tabulate_congr fun i hi => congrArg (f · (ys.getD i e)) (stretch i hi)]
  exact tabulate_getD_zipWith f d e n _ ys (by rw [List.length_take, List.length_drop]; omega) hy

/-- R241: the first half meets the window, and the sum with the old tail is taken of the rounded products. -/
theorem olaOutput_eq {b : Build} {ws tail yhat : List F32} (hy : yhat.length = 2 * b.nl) (hw : ws.length = b.nl)
    (ht : tail.length = b.nl) :
    olaOutput b ws tail yhat = List.zipWith fadd (List.zipWith fmul (yhat.take b.nl) ws) tail := by
  have products : tabulate b.nl (fun j => fmul (yhat.getD j 0) (ws.getD j 0))
      = List.zipWith fmul (yhat.take b.nl) ws := by
    simpa using tabulate_getD_stretch_zipWith (off := 0) fmul 0 0 (by omega : 0 + b.nl ≤ yhat.length) hw
  calc olaOutput b ws tail yhat
      = tabulate b.nl fun j => fadd ((List.zipWith fmul (yhat.take b.nl) ws).getD j 0) (tail.getD j 0) :=
        tabulate_congr fun j hj => by rw [← products, tabulate_getD _ _ _ hj]
    _ = List.zipWith fadd (List.zipWith fmul (yhat.take b.nl) ws) tail :=
        tabulate_getD_zipWith fadd 0 0 b.nl _ tail (by rw [← products, tabulate_length]) ht

/-- R242: the second half meets the reversed window. -/
theorem olaTail_eq {b : Build} {ws yhat : List F32} (hy : yhat.length = 2 * b.nl) (hw : ws.length = b.nl) :
    olaTail b ws yhat = List.zipWith fmul (yhat.drop b.nl) ws.reverse := by
  have half : (yhat.drop b.nl).take b.nl = yhat.drop b.nl :=
    List.take_of_length_le (by rw [List.length_drop]; omega)
  calc olaTail b ws yhat
      = tabulate b.nl fun j => fmul (yhat.getD (b.nl + j) 0) (ws.reverse.getD j 0) :=
        tabulate_congr fun j hj => by rw [List.getD_reverse j (hw ▸ hj), hw]
    _ = List.zipWith fmul ((yhat.drop b.nl).take b.nl) ws.reverse :=
        tabulate_getD_stretch_zipWith fmul 0 0 (by omega) (by rw [List.length_reverse, hw])
    _ = List.zipWith fmul (yhat.drop b.nl) ws.reverse := by rw [half]

/-- Settles O47: the output reads the tail of the lane as it came; the new tail reads only the transform. -/
theorem olaCallAddsTheOldTail : Obligations.OlaCallAddsTheOldTail := by
  intro b ws l yhat hy hw ht
  exact ⟨olaOutput_eq hy hw ht, congrArg (fun t => { l with tail := t }) (olaTail_eq hy hw)⟩

end Sys2Proof.Machine
end

section
/-! The IEEE comparison with zero (R263) on each class of words: NaN, finite, infinite. -/

namespace Sys2Proof.Machine

theorem geZero_iff (a : F32) : geZero a = true ↔ isNaN a = false ∧ (signBit a = false ∨ magnitude a = 0) := by
  simp only [geZero, Bool.and_eq_true, Bool.or_eq_true, Bool.not_eq_true', beq_iff_eq]

/-! ## The classes of words exclude each other -/

theorem isInf_iff (a : F32) : isInf a = true ↔ expField a = 0xFF ∧ fracField a = 0 := by
  simp only [isInf, Bool.and_eq_true, beq_iff_eq]

theorem isNaN_eq_false_of_isFinite {a : F32} (h : isFinite a = true) : isNaN a = false := by
  rw [isNaN, beq_eq_false_iff_ne.2 (bne_iff_ne.1 h), Bool.false_and]

theorem isNaN_eq_false_of_isInf {a : F32} (h : isInf a = true) : isNaN a = false := by
  simp [isNaN, ((isInf_iff a).1 h).2]

/-- An infinity is determined by its sign. -/
theorem eq_infinity_of_isInf {a : F32} (h : isInf a = true) : a = infinity (signBit a) := by
  obtain ⟨hexp, hfrac⟩ := (isInf_iff a).1 h
  rw [expField] at hexp
  rw [fracField] at hfrac
  apply BitVec.eq_of_toNat_eq
  cases hs : signBit a with
  | false =>
    rw [signBit_eq_decide, decide_eq_false_iff_not] at hs
    change a.toNat = 0x7F800000
    omega
  | true =>
    rw [signBit_eq_decide, decide_eq_true_eq] at hs
    change a.toNat = 0xFF800000
    omega

/-! ## The sign of a value -/

theorem scaled_nonneg_iff (a : F32) : 0 ≤ scaled a ↔ signBit a = false ∨ magnitude a = 0 := by
  rw [scaled_eq_signedInt]
  cases signBit a <;> simp [signedInt]

theorem valueOf_nonneg_iff (a : F32) : 0 ≤ valueOf a ↔ 0 ≤ scaled a := by
  rw [valueOf, le_div_iff₀ (by positivity), zero_mul, Int.cast_nonneg_iff]

/-! ## The comparison -/

/-- A NaN compares false. -/
theorem geZero_of_isNaN {a : F32} (h : isNaN a = true) : geZero a = false := by
  rw [geZero, h, Bool.not_true, Bool.false_and]

/-- A finite word compares as its value does, so both zeros compare true. -/
theorem geZero_iff_of_isFinite {a : F32} (h : isFinite a = true) : geZero a = true ↔ 0 ≤ valueOf a := by
  rw [geZero_iff, valueOf_nonneg_iff, scaled_nonneg_iff]
  exact and_iff_right (isNaN_eq_false_of_isFinite h)

/-- Of the two infinities only the positive one compares true. -/
theorem geZero_iff_of_isInf {a : F32} (h : isInf a = true) : geZero a = true ↔ a = 0x7F800000#32 := by
  constructor
  · intro hge
    obtain ⟨-, hsign | hzero⟩ := (geZero_iff a).1 hge
    · rw [eq_infinity_of_isInf h, hsign]
      rfl
    · exact absurd hzero (magnitude_ne_zero_of_isInf h)
  · rintro rfl
    decide

/-- R263: the decision of a step is the comparison of its new integrator, in the lane and in the bit. -/
theorem nsStep_decision (l : Lane) (x : F32) :
    (nsStep l x).2 = geZero (nsStep l x).1.z1 ∧ (nsStep l x).1.z = (nsStep l x).2 := ⟨rfl, rfl⟩

/-- Settles O40: the decision is the comparison with zero, which each class of words answers by its own rule. -/
theorem decisionIsTheSignOfTheIntegrator : Obligations.DecisionIsTheSignOfTheIntegrator := by
  intro l x
  obtain ⟨hbit, hz⟩ := nsStep_decision l x
  refine ⟨fun h => ?_, fun h => ?_, fun h => ?_, hz⟩
  · exact hbit.trans (geZero_of_isNaN h)
  · rw [hbit]
    exact geZero_iff_of_isFinite h
  · rw [hbit]
    exact geZero_iff_of_isInf h

end Sys2Proof.Machine
end

section
/-! The command words are canonical (R125): the premise under which `hostTurn_effect` says what a host turn does. -/

namespace Sys2Proof

/-- A word whose IMM is 0 is the command word of its opcode and its lane (R121). -/
theorem commandWord_of_immField_eq_zero {w : Word32} (himm : immField w = 0) :
    commandWord (opField w) (chField w) = w := by
  apply BitVec.eq_of_toNat_eq
  have hFields := toNat_eq_fields w
  have hw := w.isLt
  have hImmField : (immField w).toNat = 0 := congrArg BitVec.toNat himm
  rw [commandWord_eq_ofNat, BitVec.toNat_ofNat]
  omega

/-- A word that decodes to a command is the word that command is written as (R122, R125). -/
theorem encodeCommand_of_decodeCommand {cMax : Nat} {w : Word32} {c : Command} (hc : decodeCommand cMax w = some c) :
    encodeCommand c = w := by
  simp only [decodeCommand] at hc
  split_ifs at hc with himm hNop hSrst hStart hAbort hStep hLoad
  all_goals
    obtain rfl := Option.some.inj hc
    have hword := commandWord_of_immField_eq_zero (not_not.1 himm)
  · rwa [hNop.1, hNop.2] at hword
  · rwa [hSrst.1, hSrst.2] at hword
  · rwa [hStart.1, hStart.2] at hword
  · rwa [hAbort.1, hAbort.2] at hword
  · rwa [hStep.1] at hword
  · rwa [hLoad.1] at hword

end Sys2Proof
end

section
/-! Fault entry (R342): the host write in error is the one turn that ends in FAULT from another state, and no turn that
ends in FAULT touches a record made before. -/

namespace Sys2Proof.Machine

/-- The core's next state is never FAULT (R302, R346). -/
theorem nextState_ne_fault (s : State) : nextState s ≠ .fault := by
  unfold nextState
  split_ifs <;> simp

/-- A core turn that ends in FAULT came from FAULT and keeps the record (R346). -/
theorem coreTurn_of_fault {s : State} (hu : (coreTurn s).fsr.state = .fault) :
    s.fsr.state = .fault ∧ (coreTurn s).err = s.err := by
  rcases coreTurn_cases s with ⟨-, -, hmove⟩ | ⟨-, hidle⟩
  · rw [hmove] at hu
    exact absurd hu (nextState_ne_fault s)
  · rw [hidle] at hu ⊢
    exact ⟨hu, rfl⟩

/-- An accepted sample leaves STATE or completes the frame (R293, R294). -/
theorem acceptSample_state (v : F32) (s : State) :
    (acceptSample v s).fsr.state = s.fsr.state ∨ (acceptSample v s).fsr.state = .resampling := by
  rcases acceptSample_cases v s with ⟨-, h⟩ | ⟨-, -, -, h⟩ | ⟨-, -, h⟩
  · exact .inl (by rw [h])
  · exact .inl (by rw [h])
  · exact .inr (by rw [h])

/-- A host turn that ends in FAULT is a write in error from another state, or came from FAULT and keeps the record. -/
theorem TurnEffect.of_fault {s u : State} {t : Transaction} (h : TurnEffect s t u) (hu : u.fsr.state = .fault) :
    (s.fsr.state ≠ .fault ∧ t.we = true ∧ ∃ code, code ≠ .none ∧ u = faulted code t.addr t.data s)
      ∨ (s.fsr.state = .fault ∧ u.err = s.err) := by
  cases h with
  | fault hw hf code hc => exact .inl ⟨hf, hw, code, hc, rfl⟩
  | read => exact .inr ⟨hu, rfl⟩
  | ignored => exact .inr ⟨hu, rfl⟩
  -- The effects that leave STATE as it is, and happen outside FAULT only.
  | nop hw hf => exact absurd hu hf
  | operand hw hf => exact absurd hu hf
  | nsStep hw hs => exact absurd hu (not_fault_of_between hs)
  | nsLoad hw hs => exact absurd hu (not_fault_of_between hs)
  | configure hw hs => exact absurd hu (not_fault_of_between hs)
  -- The effects that set STATE to another one.
  | reset => cases hu
  | abort => cases hu
  | start =>
    have hstart : (if s.regs.duration = 0 then FsrState.draining else .filling) = .fault := hu
    split_ifs at hstart
  | sample hw ha hs =>
    rcases acceptSample_state t.data s with hkept | hfull
    · exact absurd (hs.symm.trans (hkept.symm.trans hu)) (by simp)
    · exact absurd (hfull.symm.trans hu) (by simp)

/-- Settles O9, by the kind of turn: only a host turn can enter FAULT, and `TurnEffect.of_fault` says how. -/
theorem faultEntryRecordsTheWrite : Obligations.FaultEntryRecordsTheWrite := by
  intro s t hstep hfault
  rcases hs : s.schedule with - | ⟨tr | - | -, rest⟩
  · obtain rfl := Host.Outcome.next.inj ((step_of_nil hs).symm.trans hstep)
    obtain ⟨hf, herr⟩ := coreTurn_of_fault hfault
    exact ⟨fun h => absurd hf h, fun _ => herr⟩
  · have hcanon : ∀ c, decodeCommand s.build.cMax tr.data = some c → encodeCommand c = tr.data :=
      fun _ => encodeCommand_of_decodeCommand
    rcases (hostTurn_effect hs hcanon hstep).of_fault hfault with ⟨hf, hw, code, hcode, rfl⟩ | ⟨hf, herr⟩
    · exact ⟨fun _ => ⟨tr, rest, code, rfl, hw, hcode, rfl⟩, fun h => absurd h hf⟩
    · exact ⟨fun h => absurd hf h, fun _ => herr⟩
  · obtain rfl := Host.Outcome.next.inj ((step_of_core hs).symm.trans hstep)
    obtain ⟨hf, herr⟩ := coreTurn_of_fault hfault
    exact ⟨fun h => absurd hf h, fun _ => herr⟩
  · obtain rfl := Host.Outcome.next.inj ((step_of_reset hs).symm.trans hstep)
    cases hfault

end Sys2Proof.Machine
end

section
/-! The interrupt line (R347): the enables of IRQ_EN as numbers, and the line as a condition on the state. -/

namespace Sys2Proof.Machine

/-- A bit of a register as a digit of its number. -/
theorem getLsbD_iff_div_mod {n : Nat} (x : BitVec n) (k : Nat) : x.getLsbD k = true ↔ x.toNat / 2 ^ k % 2 = 1 := by
  rw [BitVec.getLsbD, Nat.testBit_eq_decide_div_mod_eq, decide_eq_true_eq]

/-- The line is high exactly while an enabled condition holds (R347). -/
theorem irq_iff (s : State) :
    irq s = true ↔
      (s.regs.irqEn.toNat % 2 = 1 ∧ s.fsr.state = .filling) ∨ (s.regs.irqEn.toNat / 2 % 2 = 1 ∧ s.fifo ≠ [])
        ∨ (s.regs.irqEn.toNat / 4 % 2 = 1 ∧ s.fsr.state = .done)
        ∨ (s.regs.irqEn.toNat / 8 = 1 ∧ s.fsr.state = .fault) := by
  -- IRQ_EN has four bits, so the top one is the whole quotient.
  have htop : s.regs.irqEn.toNat / 8 % 2 = s.regs.irqEn.toNat / 8 := by
    have := s.regs.irqEn.isLt
    omega
  simp only [irq, inReady, outValid_eq_decide, doneFlag, faultFlag, Bool.or_eq_true, Bool.and_eq_true,
    decide_eq_true_eq, getLsbD_iff_div_mod, or_assoc, Nat.reducePow, Nat.div_one, htop]

/-- With no condition enabled the line is low. -/
theorem irq_eq_false_of_irqEn_eq_zero {s : State} (h : s.regs.irqEn = 0) : irq s = false := by
  simp [irq, h]

/-- Settles O58: the line is `irq_iff`, and SRST leaves no condition enabled (R163, R381). -/
theorem interruptLineFollowsTheState : Obligations.InterruptLineFollowsTheState := by
  intro s
  refine ⟨irq_iff s, fun t ht => ?_⟩
  obtain rfl := Host.Outcome.next.inj ((exec_srst s).symm.trans ht)
  exact irq_eq_false_of_irqEn_eq_zero rfl

end Sys2Proof.Machine
end

section
/-! The block right after reset (R381, R382): what an idle block with an empty FIFO and no error shows and does,
and that reset leaves such a block. -/

namespace Sys2Proof.Machine

/-- An idle block with nothing to pop and no error recorded reads STATUS as 0: each field of R52 is 0. -/
theorem statusWord_eq_zero_of_idle {s : State} (hstate : s.fsr.state = .idle) (hfifo : s.fifo = [])
    (herr : s.err.code = .none) : statusWord s = 0 := by
  apply BitVec.eq_of_toNat_eq
  rw [statusWord_toNat]
  simp [stateCode, inReady, outValid, doneFlag, faultFlag, errCode, discardPending, flagBit, hstate, hfifo, herr]

/-- No frame is pending in an idle block, so the core's turn does nothing (R295). -/
theorem coreTurn_of_idle {s : State} (hstate : s.fsr.state = .idle) : coreTurn s = s := by
  rcases coreTurn_cases s with ⟨hpending, -, -⟩ | ⟨-, hkept⟩
  · simp [hstate] at hpending
  · exact hkept

/-- Settles O17: the elements have their values by the definition of reset; what the block shows and does
follows from IDLE, the empty FIFO, the clear error record and the clear IRQ_EN. -/
theorem resetLeavesTheBlockWaiting : Obligations.ResetLeavesTheBlockWaiting := by
  have hstatus : exec .rdStatus State.reset = .next { State.reset with response := some 0 } := by
    rw [← statusWord_eq_zero_of_idle (s := State.reset) rfl rfl rfl]
    exact hostRead_eq (statusWord State.reset) State.reset
  exact ⟨rfl, rfl, rfl, rfl, rfl, rfl, rfl, rfl, rfl, hstatus, irq_eq_false_of_irqEn_eq_zero rfl,
    coreTurn_of_idle rfl⟩

end Sys2Proof.Machine
end

section
/-! The encoder against the decoder (R122, R125, R127): the fields of a command word, the rows that the transactions of
the bus instructions select, and both directions of the round trip. -/

namespace Sys2Proof

/-! ## The fields of a command word (R121) -/

theorem commandWord_toNat (op ch : BitVec 8) :
    (commandWord op ch).toNat = op.toNat * 2 ^ 24 + ch.toNat * 2 ^ 16 + 0 := by
  have hop := op.isLt
  have hch := ch.isLt
  rw [commandWord_eq_ofNat, BitVec.toNat_ofNat]
  omega

@[simp] theorem opField_commandWord (op ch : BitVec 8) : opField (commandWord op ch) = op :=
  BitVec.eq_of_toNat_eq (fields_toNat_of_layout (commandWord_toNat op ch) ch.isLt (by norm_num)).1

@[simp] theorem chField_commandWord (op ch : BitVec 8) : chField (commandWord op ch) = ch :=
  BitVec.eq_of_toNat_eq (fields_toNat_of_layout (commandWord_toNat op ch) ch.isLt (by norm_num)).2.1

@[simp] theorem immField_commandWord (op ch : BitVec 8) : immField (commandWord op ch) = 0 :=
  BitVec.eq_of_toNat_eq (fields_toNat_of_layout (commandWord_toNat op ch) ch.isLt (by norm_num)).2.2

/-! ## The two formats -/

/-- A command with a legal lane is what its word decodes to (R122, R125). -/
theorem decodeCommand_encodeCommand {cMax : Nat} {c : Command} (hc : c.toInstr.wellFormed cMax = true) :
    decodeCommand cMax (encodeCommand c) = some c := by
  cases c with
  | nop => rfl
  | srst => rfl
  | start => rfl
  | abort => rfl
  | nsStep ch =>
    have hch : ch.toNat < cMax := of_decide_eq_true hc
    simp [encodeCommand, decodeCommand, hch]
  | nsLoad ch =>
    have hch : ch.toNat < cMax := of_decide_eq_true hc
    simp [encodeCommand, decodeCommand, hch]

/-- So decoding a command's word gives the command's instruction. -/
theorem decode_encodeCommand {cMax : Nat} {c : Command} (hc : c.toInstr.wellFormed cMax = true) :
    decode cMax (.cmd (encodeCommand c)) = some c.toInstr :=
  congrArg (Option.map Command.toInstr) (decodeCommand_encodeCommand hc)

/-- Settles O2, by the constructors of `Instr`: the commands by the fields of their words, every other instruction by
the row of the table that its key selects (R127). -/
theorem decodeInvertsEncode : Obligations.DecodeInvertsEncode := by
  intro cMax i hi
  cases i with
  | nop => exact decode_encodeCommand (c := .nop) hi
  | srst => exact decode_encodeCommand (c := .srst) hi
  | start => exact decode_encodeCommand (c := .start) hi
  | abort => exact decode_encodeCommand (c := .abort) hi
  | nsStep ch => exact decode_encodeCommand (c := .nsStep ch) hi
  | nsLoad ch => exact decode_encodeCommand (c := .nsLoad ch) hi
  | _ => rfl

/-- A word that decodes to a test command names a lane of the build (R123). -/
theorem wellFormed_of_decodeCommand {cMax : Nat} {w : Word32} {c : Command} (hc : decodeCommand cMax w = some c) :
    c.toInstr.wellFormed cMax = true := by
  simp only [decodeCommand] at hc
  split_ifs at hc with himm hNop hSrst hStart hAbort hStep hLoad
  all_goals obtain rfl := Option.some.inj hc
  iterate 4 rfl
  · exact decide_eq_true hStep.2
  · exact decide_eq_true hLoad.2

/-- Settles O3: the word is the command's own, and its lane passed the decoder's check. -/
theorem commandWordsAreCanonical : Obligations.CommandWordsAreCanonical :=
  fun _ _ _ hc => ⟨encodeCommand_of_decodeCommand hc, wellFormed_of_decodeCommand hc⟩

/-- Settles O1: the words of R122 are `encodeCommand` of their commands, the keys of R127 their rows' own. -/
theorem tableWordsDecode : Obligations.TableWordsDecode :=
  ⟨decodeCommand_encodeCommand (c := .nop) rfl, decodeCommand_encodeCommand (c := .srst) rfl,
    decodeCommand_encodeCommand (c := .start) rfl, decodeCommand_encodeCommand (c := .abort) rfl,
    decodeCommand_encodeCommand (c := .nsStep 1) rfl, decodeCommand_encodeCommand (c := .nsLoad 1) rfl, rfl, rfl, rfl⟩

/-- Settles O5, by the direction of the access. -/
theorem keysWithoutARow : Obligations.KeysWithoutARow := by
  intro t
  cases hw : t.we with
  | true => simp [decodeBus_eq_none_iff_of_write hw]
  | false => simp [decodeBus_eq_none_iff_of_read hw]

end Sys2Proof

namespace Sys2Proof.Machine

/-- A host turn whose key has a row runs it (R127). -/
theorem step_of_decodeBus_eq_some {s : State} {t : Transaction} {rest : List Turn} {i : Instr}
    (hs : s.schedule = .host t :: rest) (hd : decodeBus t = some i) :
    step s = exec i { s with schedule := rest } := by
  rw [step_of_host hs, hd]

/-- Every write to CMD is a WR_CMD (R81, R127). -/
theorem decodeBus_of_cmd {t : Transaction} (hw : t.we = true) (ha : t.addr = 0x10) :
    decodeBus t = some (.wrCmd t.data) := by
  rw [decodeBus, if_pos hw, ha]
  rfl

/-- A host turn that writes a command's word to CMD runs the command (R128). -/
theorem step_of_command {s : State} {t : Transaction} {rest : List Turn} {c : Command}
    (hs : s.schedule = .host t :: rest) (hw : t.we = true) (ha : t.addr = 0x10)
    (hc : decodeCommand s.build.cMax t.data = some c) : step s = exec c.toInstr { s with schedule := rest } :=
  (step_of_decodeBus_eq_some hs (decodeBus_of_cmd hw ha)).trans (exec_wrCmd_of_some hc)

/-- Settles O6: the two readings of a host turn, by its key and by the command word it carries. -/
theorem stepRunsTheDecodedInstruction : Obligations.StepRunsTheDecodedInstruction :=
  fun _ _ _ hs => ⟨fun _ hd => step_of_decodeBus_eq_some hs hd, fun _ hw ha hc => step_of_command hs hw ha hc⟩

end Sys2Proof.Machine
end

section
/-! Everything a step can do, said once (R14): `StepEffect`. With it the claims about every step: none stops the
machine, FAULT ignores writes (R160), the constants stay (R37, R54), and the configuration of a running stream stays (R387). -/

namespace Sys2Proof.Machine

/-! ## Every instruction and every step answers -/

/-- A debug view answers if the view of a lane does. -/
theorem debugRead_answers {s : State} {view : Lane → Answer} (h : ∀ l, ∃ t, view l = .next t) :
    ∃ t, debugRead s view = .next t := by
  unfold debugRead
  split
  · exact ⟨_, rfl⟩
  · split
    · exact ⟨_, rfl⟩
    · exact h _

theorem integratorRead_answers (a : F32) (s : State) : ∃ t, integratorRead a s = .next t := by
  unfold integratorRead
  split <;> exact ⟨_, rfl⟩

/-- Every instruction answers a next state: a write by its preamble, a read with its word. -/
theorem exec_answers (i : Instr) (s : State) : ∃ t, exec i s = .next t := by
  cases i with
  | nop => exact exec_command_answers .nop s
  | srst => exact exec_command_answers .srst s
  | start => exact exec_command_answers .start s
  | abort => exact exec_command_answers .abort s
  | nsStep ch => exact exec_command_answers (.nsStep ch) s
  | nsLoad ch => exact exec_command_answers (.nsLoad ch) s
  | wrCmd v =>
    cases hc : decodeCommand s.build.cMax v with
    | some c =>
      rw [exec_wrCmd_of_some hc]
      exact exec_command_answers c s
    | none =>
      rw [exec_wrCmd_of_none hc]
      exact hostWrite_answers _ _ _ _
  | wrIrqEn v | wrChCount v | wrDurationLo v | wrDurationHi v | wrSampleIn v | wrChSel v | wrData0 v | wrData1 v
  | wrData2 v =>
    simp only [exec_wrIrqEn, exec_wrChCount, exec_wrDurationLo, exec_wrDurationHi, exec_wrSampleIn, exec_wrChSel,
      exec_wrData0, exec_wrData1, exec_wrData2]
    exact hostWrite_answers _ _ s _
  | rdBitsOut =>
    cases hq : s.fifo with
    | nil => exact ⟨_, exec_rdBitsOut_of_nil hq⟩
    | cons g rest => exact ⟨_, exec_rdBitsOut_of_cons hq⟩
  | rdDbgZ => exact debugRead_answers fun l => ⟨_, hostRead_eq (bitWord l.z) s⟩
  | rdDbgZ1 => exact debugRead_answers fun l => integratorRead_answers l.z1 s
  | rdDbgZ2 => exact debugRead_answers fun l => integratorRead_answers l.z2 s
  | _ => exact ⟨_, rfl⟩

theorem structuralAccess_answers (t : Transaction) (s : State) : ∃ u, structuralAccess t s = .next u := by
  cases hw : t.we with
  | true =>
    rw [structuralAccess, if_pos hw]
    exact hostWrite_answers _ _ _ _
  | false => exact ⟨_, structuralAccess_of_read s hw⟩

/-- Settles O10, by the kind of turn. -/
theorem stepAlwaysAnswersNext : Obligations.StepAlwaysAnswersNext := by
  intro s
  rcases hs : s.schedule with - | ⟨t | - | -, rest⟩
  · exact ⟨_, step_of_nil hs⟩
  · cases hd : decodeBus t with
    | some i =>
      rw [step_of_decodeBus_eq_some hs hd]
      exact exec_answers i _
    | none =>
      rw [step_of_decodeBus_eq_none hs hd]
      exact structuralAccess_answers t _
  · exact ⟨_, step_of_core hs⟩
  · exact ⟨_, step_of_reset hs⟩

/-! ## Inversion of the step -/

/-- It is the core's turn (R14), or no turn is to come and the core goes on alone (log 2); `rest` is what is left. -/
def CoreTurnDue (s : State) (rest : List Turn) : Prop :=
  (s.schedule = [] ∧ rest = []) ∨ s.schedule = .core :: rest

/-- Everything a step can do. -/
inductive StepEffect (s : State) : State → Prop
  | frame (rest : List Turn) (due : CoreTurnDue s rest) (pending : s.fsr.state = .resampling ∨ s.fsr.state = .draining)
      (hq : s.fifo = []) : StepEffect s (frameStep { s with schedule := rest })
  | wait (rest : List Turn) (due : CoreTurnDue s rest)
      (blocked : ¬((s.fsr.state = .resampling ∨ s.fsr.state = .draining) ∧ s.fifo = [])) :
      StepEffect s { s with schedule := rest }
  | reset (rest : List Turn) (hs : s.schedule = .reset :: rest) :
      StepEffect s (resetBlock { s with schedule := rest })
  | host (tr : Transaction) (rest : List Turn) (hs : s.schedule = .host tr :: rest) {u : State}
      (effect : TurnEffect { s with schedule := rest } tr u) : StepEffect s u

theorem step_of_coreTurnDue {s : State} {rest : List Turn} (due : CoreTurnDue s rest) :
    step s = .next (coreTurn { s with schedule := rest }) := by
  rcases due with ⟨hs, rfl⟩ | hs
  · rw [step_of_nil hs, ← hs]
  · exact step_of_core hs

/-- The core's turn as an effect of the step. -/
theorem StepEffect.of_core {s : State} {rest : List Turn} (due : CoreTurnDue s rest) :
    StepEffect s (coreTurn { s with schedule := rest }) := by
  rcases coreTurn_cases { s with schedule := rest } with ⟨pending, hq, hmove⟩ | ⟨blocked, hkept⟩
  · rw [hmove]
    exact .frame rest due pending hq
  · rw [hkept]
    exact .wait rest due blocked

theorem step_effect {s t : State} (h : step s = .next t) : StepEffect s t := by
  rcases hs : s.schedule with - | ⟨tr | - | -, rest⟩
  · have due : CoreTurnDue s [] := .inl ⟨hs, rfl⟩
    obtain rfl := Host.Outcome.next.inj ((step_of_coreTurnDue due).symm.trans h)
    exact .of_core due
  · exact .host tr rest hs (hostTurn_effect hs (fun _ => encodeCommand_of_decodeCommand) h)
  · have due : CoreTurnDue s rest := .inr hs
    obtain rfl := Host.Outcome.next.inj ((step_of_coreTurnDue due).symm.trans h)
    exact .of_core due
  · obtain rfl := Host.Outcome.next.inj ((step_of_reset hs).symm.trans h)
    exact .reset rest hs

/-- Settles O48: the two outcomes of the core's turn. -/
theorem coreRunsExactlyWhenEnabled : Obligations.CoreRunsExactlyWhenEnabled := by
  intro s rest hs
  rw [step_of_coreTurnDue (hs.elim .inr .inl)]
  rcases coreTurn_cases { s with schedule := rest } with ⟨pending, hq, hmove⟩ | ⟨blocked, hkept⟩
  · rw [hmove]
    exact ⟨fun _ => rfl, fun hn => absurd ⟨pending, hq⟩ hn⟩
  · rw [hkept]
    exact ⟨fun hy => absurd hy blocked, fun _ => rfl⟩

/-! ## The gate of FAULT -/

/-- In FAULT a write is a reset, or it is ignored (R160). -/
theorem TurnEffect.of_write_in_fault {s u : State} {t : Transaction} (h : TurnEffect s t u) (hw : t.we = true)
    (hf : s.fsr.state = .fault) :
    (t.addr = 0x10 ∧ decodeCommand s.build.cMax t.data = some .srst) ∨ u = { s with response := none } := by
  cases h with
  | ignored => exact .inr rfl
  | nop => exact .inr rfl
  | reset _ ha hc => exact .inl ⟨ha, hc⟩
  -- A read is no write, and every other effect happens outside FAULT only.
  | read hr => simp [hw] at hr
  | fault _ hn => exact absurd hf hn
  | abort _ _ _ hn => exact absurd hf hn
  | operand _ hn => exact absurd hf hn
  | start _ _ _ hs => exact absurd hf (not_fault_of_between hs)
  | nsStep _ hs => exact absurd hf (not_fault_of_between hs)
  | nsLoad _ hs => exact absurd hf (not_fault_of_between hs)
  | configure _ hs => exact absurd hf (not_fault_of_between hs)
  | sample _ _ hs => exact absurd (hs.symm.trans hf) (by simp)

/-- Settles O8: the step answers, and the one write that FAULT does not ignore is SRST's own word (R125). -/
theorem faultGateIgnoresWrites : Obligations.FaultGateIgnoresWrites := by
  intro s t rest hs hw hf hn
  obtain ⟨u, hu⟩ := stepAlwaysAnswersNext s
  have effect := hostTurn_effect hs (fun _ => encodeCommand_of_decodeCommand) hu
  rcases effect.of_write_in_fault hw hf with ⟨ha, hc⟩ | rfl
  · have hword : encodeCommand .srst = t.data := encodeCommand_of_decodeCommand hc
    exact absurd ⟨ha, hword.symm⟩ hn
  · exact hu

/-! ## What stays -/

/-- An accepted sample reaches FRAMEBUF and the FSR, and nothing else (R293). -/
theorem acceptSample_eq (v : F32) (s : State) :
    acceptSample v s = { s with frameBuf := (acceptSample v s).frameBuf, fsr := (acceptSample v s).fsr } := by
  rcases acceptSample_cases v s with ⟨-, h⟩ | ⟨-, -, -, h⟩ | ⟨-, -, h⟩ <;> rw [h] <;> rfl

theorem TurnEffect.keeps_constants {s u : State} {t : Transaction} (h : TurnEffect s t u) :
    u.build = s.build ∧ u.wa = s.wa ∧ u.ws = s.ws := by
  cases h with
  | sample =>
    rw [acceptSample_eq]
    exact ⟨rfl, rfl, rfl⟩
  | _ => exact ⟨rfl, rfl, rfl⟩

/-- Settles O12, by the kinds of step. -/
theorem stepKeepsTheConstants : Obligations.StepKeepsTheConstants := by
  intro s t h
  cases step_effect h with
  | host tr rest hs effect => exact effect.keeps_constants
  | _ => exact ⟨rfl, rfl, rfl⟩

/-- While a stream runs, a host turn that does not end in IDLE keeps its configuration (R387). -/
theorem TurnEffect.keeps_configuration {s u : State} {t : Transaction} (h : TurnEffect s t u) (running : streaming s)
    (hu : u.fsr.state ≠ .idle) : u.regs.chCount = s.regs.chCount ∧ u.regs.duration = s.regs.duration := by
  cases h with
  | sample =>
    rw [acceptSample_eq]
    exact ⟨rfl, rfl⟩
  | operand _ _ regs _ hcount hduration => exact ⟨hcount, hduration⟩
  | reset => exact absurd rfl hu
  | configure _ between => exact absurd between (not_between_of_streaming running)
  | _ => exact ⟨rfl, rfl⟩

/-- Settles O13: only a reset gives the registers other values while a stream runs, and it ends in IDLE. -/
theorem configurationFixedWhileStreaming : Obligations.ConfigurationFixedWhileStreaming := by
  intro s t h running ht
  cases step_effect h with
  | frame => exact ⟨rfl, rfl⟩
  | wait => exact ⟨rfl, rfl⟩
  | reset => exact absurd rfl ht
  | host tr rest hs effect => exact effect.keeps_configuration running ht

end Sys2Proof.Machine
end

section
/-! What each instruction leaves unchanged (R88, R96). -/

namespace Sys2Proof.Machine

/-- The state elements an instruction may not reach are as before. -/
structure Frame (i : Instr) (s t : State) : Prop where
  build : t.build = s.build
  wa : t.wa = s.wa
  ws : t.ws = s.ws
  schedule : t.schedule = s.schedule
  lanes : mayWriteLanes i = false → t.lanes = s.lanes
  frameBuf : mayWriteFrameBuf i = false → t.frameBuf = s.frameBuf
  fifo : mayWriteFifo i = false → t.fifo = s.fifo
  shadows : mayWriteShadows i = false → t.shadows = s.shadows
  read : isRead i = true → t.fsr = s.fsr ∧ t.regs = s.regs ∧ t.err = s.err

/-! ## The reads -/

/-- A read that changes the shadows only where the instruction may reach them. -/
theorem Frame.of_read {i : Instr} {s t : State} {fifo : List Group} {shadows : Shadows} {w : Option Word32} {k : Nat}
    (hq : mayWriteFifo i = true ∨ fifo = s.fifo) (hsh : mayWriteShadows i = true ∨ shadows = s.shadows)
    (h : Host.Outcome.next (φ := Fault) (ρ := Refusal)
      { s with fifo := fifo, shadows := shadows, response := w, freeCount := k } = .next t) : Frame i s t := by
  obtain rfl := Host.Outcome.next.inj h
  refine ⟨rfl, rfl, rfl, rfl, fun _ => rfl, fun _ => rfl, fun hno => ?_, fun hno => ?_, fun _ => ⟨rfl, rfl, rfl⟩⟩
  · exact hq.resolve_left (by simp [hno])
  · exact hsh.resolve_left (by simp [hno])

/-- A read that only answers. -/
theorem Frame.of_answer {i : Instr} {s t : State} {w : Option Word32} {k : Nat}
    (h : Host.Outcome.next (φ := Fault) (ρ := Refusal) { s with response := w, freeCount := k } = .next t) :
    Frame i s t :=
  .of_read (.inr rfl) (.inr rfl) h

theorem Frame.of_debugRead {i : Instr} {s t : State} {view : Lane → Answer}
    (hview : ∀ l, view l = .next t → Frame i s t) (h : debugRead s view = .next t) : Frame i s t := by
  unfold debugRead at h
  split at h
  · exact .of_answer h
  · split at h
    · exact .of_answer h
    · exact hview _ h

theorem Frame.of_integratorRead {i : Instr} {s t : State} {a : F32} (h : integratorRead a s = .next t) :
    Frame i s t := by
  unfold integratorRead at h
  split at h <;> exact .of_answer h

theorem Frame.of_rdBitsOut {s t : State} (h : exec .rdBitsOut s = .next t) : Frame .rdBitsOut s t := by
  cases hq : s.fifo with
  | nil => exact .of_answer ((exec_rdBitsOut_of_nil hq).symm.trans h)
  | cons g rest => exact .of_read (.inl rfl) (.inr rfl) ((exec_rdBitsOut_of_cons hq).symm.trans h)

/-! ## The writes -/

/-- A write changes what its rule changes, or the error record and STATE, which a write may. -/
theorem Frame.of_hostWrite {i : Instr} {s t : State} {addr : BitVec 8} {v : Word32}
    {rule : State → Except ErrCode State} (hr : isRead i = false)
    (hrule : ∀ u, rule s = .ok u → Frame i s { u with response := none })
    (h : hostWrite addr v s rule = .next t) : Frame i s t := by
  have writes : ¬isRead i = true := by simp [hr]
  rcases hostWrite_cases h with ⟨-, rfl⟩ | ⟨-, u, hu, rfl⟩ | ⟨-, code, -, rfl⟩
  · exact .of_answer rfl
  · exact hrule u hu
  · exact ⟨rfl, rfl, rfl, rfl, fun _ => rfl, fun _ => rfl, fun _ => rfl, fun _ => rfl, fun hx => absurd hx writes⟩

/-- A write of host registers. -/
theorem Frame.of_regs {i : Instr} {s u : State} {regs : HostRegs} (hr : isRead i = false)
    (hu : u = { s with regs := regs }) : Frame i s { u with response := none } := by
  subst hu
  exact ⟨rfl, rfl, rfl, rfl, fun _ => rfl, fun _ => rfl, fun _ => rfl, fun _ => rfl, fun hx => by simp [hr] at hx⟩

theorem Frame.of_operand {i : Instr} {s t : State} {addr : BitVec 8} {v : Word32} {regs : State → HostRegs}
    (hr : isRead i = false) (h : hostWrite addr v s (fun s => .ok { s with regs := regs s }) = .next t) :
    Frame i s t := by
  refine .of_hostWrite hr (fun _ hu => ?_) h
  exact .of_regs hr (Except.ok.inj hu).symm

theorem Frame.of_configure {i : Instr} {s t : State} {addr : BitVec 8} {v : Word32} {regs : State → HostRegs}
    (hr : isRead i = false) (h : hostWrite addr v s (fun s => configure s (regs s)) = .next t) : Frame i s t :=
  .of_hostWrite hr (fun _ hu => .of_regs hr (configure_ok hu).2) h

theorem Frame.of_wrSampleIn {s t : State} {v : Word32} (h : exec (.wrSampleIn v) s = .next t) :
    Frame (.wrSampleIn v) s t := by
  refine .of_hostWrite rfl (fun u hu => ?_) ((exec_wrSampleIn v s).symm.trans h)
  obtain ⟨-, -, rfl⟩ := pushSample_ok hu
  rw [acceptSample_eq]
  exact ⟨rfl, rfl, rfl, rfl, fun _ => rfl, nofun, fun _ => rfl, fun _ => rfl, nofun⟩

/-! ## The commands -/

theorem Frame.of_command {c : Command} {s t : State} (h : exec c.toInstr s = .next t) : Frame c.toInstr s t := by
  cases c with
  | nop =>
    refine .of_hostWrite rfl (fun u hu => ?_) ((exec_nop s).symm.trans h)
    obtain rfl := Except.ok.inj hu
    exact .of_answer rfl
  | srst =>
    obtain rfl := Host.Outcome.next.inj ((exec_srst s).symm.trans h)
    exact ⟨rfl, rfl, rfl, rfl, nofun, nofun, nofun, nofun, nofun⟩
  | start =>
    refine .of_hostWrite rfl (fun u hu => ?_) ((exec_start s).symm.trans h)
    obtain ⟨-, -, -, -, -, rfl⟩ := startStream_ok hu
    exact ⟨rfl, rfl, rfl, rfl, nofun, nofun, fun _ => rfl, fun _ => rfl, nofun⟩
  | abort =>
    refine .of_hostWrite rfl (fun u hu => ?_) ((exec_abort s).symm.trans h)
    obtain rfl := Except.ok.inj hu
    exact ⟨rfl, rfl, rfl, rfl, nofun, nofun, nofun, fun _ => rfl, nofun⟩
  | nsStep ch =>
    refine .of_hostWrite rfl (fun u hu => ?_) ((exec_nsStep ch s).symm.trans h)
    obtain ⟨-, -, -, rfl⟩ := testStep_ok hu
    exact ⟨rfl, rfl, rfl, rfl, nofun, fun _ => rfl, fun _ => rfl, fun _ => rfl, nofun⟩
  | nsLoad ch =>
    refine .of_hostWrite rfl (fun u hu => ?_) ((exec_nsLoad ch s).symm.trans h)
    obtain ⟨-, -, -, -, rfl⟩ := testLoad_ok hu
    exact ⟨rfl, rfl, rfl, rfl, nofun, fun _ => rfl, fun _ => rfl, fun _ => rfl, nofun⟩

/-- A CMD write carries a command, so it may reach what any command reaches. -/
theorem Frame.of_wrCmd {v : Word32} {s t : State} (h : exec (.wrCmd v) s = .next t) : Frame (.wrCmd v) s t := by
  cases hc : decodeCommand s.build.cMax v with
  | some c =>
    have carried : Frame c.toInstr s t := .of_command ((exec_wrCmd_of_some hc).symm.trans h)
    exact ⟨carried.build, carried.wa, carried.ws, carried.schedule, nofun, nofun, nofun, nofun, nofun⟩
  | none =>
    refine .of_hostWrite rfl (fun _ hu => ?_) ((exec_wrCmd_of_none hc).symm.trans h)
    cases hu

theorem exec_frame {i : Instr} {s t : State} (h : exec i s = .next t) : Frame i s t := by
  cases i with
  | nop => exact .of_command (c := .nop) h
  | srst => exact .of_command (c := .srst) h
  | start => exact .of_command (c := .start) h
  | abort => exact .of_command (c := .abort) h
  | nsStep ch => exact .of_command (c := .nsStep ch) h
  | nsLoad ch => exact .of_command (c := .nsLoad ch) h
  | wrCmd v => exact .of_wrCmd h
  | wrSampleIn v => exact .of_wrSampleIn h
  | wrChCount v => exact .of_configure rfl ((exec_wrChCount v s).symm.trans h)
  | wrDurationLo v => exact .of_configure rfl ((exec_wrDurationLo v s).symm.trans h)
  | wrDurationHi v => exact .of_configure rfl ((exec_wrDurationHi v s).symm.trans h)
  | wrIrqEn v => exact .of_operand rfl ((exec_wrIrqEn v s).symm.trans h)
  | wrChSel v => exact .of_operand rfl ((exec_wrChSel v s).symm.trans h)
  | wrData0 v => exact .of_operand rfl ((exec_wrData0 v s).symm.trans h)
  | wrData1 v => exact .of_operand rfl ((exec_wrData1 v s).symm.trans h)
  | wrData2 v => exact .of_operand rfl ((exec_wrData2 v s).symm.trans h)
  | rdBitsOut => exact .of_rdBitsOut h
  | rdFrameIdxLo => exact .of_read (.inr rfl) (.inl rfl) h
  | rdInCountLo => exact .of_read (.inr rfl) (.inl rfl) h
  | rdOutCountLo => exact .of_read (.inr rfl) (.inl rfl) h
  | rdDbgZ => exact .of_debugRead (fun _ => .of_answer) h
  | rdDbgZ1 => exact .of_debugRead (fun _ => .of_integratorRead) h
  | rdDbgZ2 => exact .of_debugRead (fun _ => .of_integratorRead) h
  | _ => exact .of_answer h

/-- Settles O14: the clauses are those of `Frame`, which every instruction has. -/
theorem instructionsTouchOnlyTheirState : Obligations.InstructionsTouchOnlyTheirState := by
  intro i s t h
  obtain ⟨build, wa, ws, schedule, lanes, frameBuf, fifo, shadows, read⟩ := exec_frame h
  exact ⟨build, wa, ws, schedule, lanes, frameBuf, fifo, shadows, read⟩

end Sys2Proof.Machine
end

section
/-! The reads: the plain registers (R178), the counter pairs (R176, R177, R388) and the debug views (R179). -/

namespace Sys2Proof.Machine

/-! ## The plain reads -/

/-- FILL_POS is POS above CH_PTR (R56). -/
theorem fillPosWord_eq_ofNat (s : State) :
    fillPosWord s = BitVec.ofNat 32 (s.fsr.pos.toNat * 2 ^ 8 + s.fsr.chPtr.toNat) := by
  apply BitVec.eq_of_toNat_eq
  have hpos := s.fsr.pos.isLt
  have hptr := s.fsr.chPtr.isLt
  simp only [fillPosWord, toNat_append_eq_add, BitVec.toNat_ofNat]
  omega

/-- PARAM_C holds C_MAX, which fits its eight bits (R10, R54). -/
theorem paramCWord_eq_ofNat {b : Build} (h : b.cMax ≤ 255) : paramCWord b = BitVec.ofNat 32 b.cMax := by
  apply BitVec.eq_of_toNat_eq
  simp only [paramCWord, BitVec.toNat_setWidth, BitVec.toNat_ofNat]
  omega

/-- Settles O31: each read answers its register's word, and the words are the registers' numbers. -/
theorem plainReadsReturnTheRegister : Obligations.PlainReadsReturnTheRegister := by
  intro s
  simp only [← highWord_eq_ofNat, ← fillPosWord_eq_ofNat, BitVec.ofNat_toNat]
  refine ⟨hostRead_eq _ s, hostRead_eq _ s, hostRead_eq _ s, fun hc => ?_, hostRead_eq _ s, hostRead_eq _ s,
    hostRead_eq _ s, hostRead_eq _ s, hostRead_eq _ s, hostRead_eq _ s, hostRead_eq _ s, hostRead_eq _ s,
    hostRead_eq _ s, hostRead_eq _ s, hostRead_eq _ s, hostRead_eq _ s, hostRead_eq _ s⟩
  rw [← paramCWord_eq_ofNat hc]
  exact hostRead_eq _ s

/-! ## The counter pairs -/

theorem highWord_lowWord_toNat (x : BitVec 64) : (highWord x).toNat * 2 ^ 32 + (lowWord x).toNat = x.toNat := by
  have hx := x.isLt
  rw [highWord_eq_ofNat, lowWord_eq_ofNat, BitVec.toNat_ofNat, BitVec.toNat_ofNat]
  omega

/-- The core's turn leaves the shadows (R57) and the turns to come. -/
theorem coreTurn_shadows (s : State) : (coreTurn s).shadows = s.shadows := by
  rcases coreTurn_cases s with ⟨-, -, h⟩ | ⟨-, h⟩
  · rw [h, frameStep_shadows]
  · rw [h]

theorem coreTurn_schedule (s : State) : (coreTurn s).schedule = s.schedule := by
  rcases coreTurn_cases s with ⟨-, -, h⟩ | ⟨-, h⟩
  · rw [h, frameStep_schedule]
  · rw [h]

/-- A counter's two reads with a core turn between them: the LO read `iLo` answers the low half and leaves the high
half in the shadow, which no core turn reaches and the HI read `iHi` answers. -/
theorem counter_pair_halves {s a b c : State} {rest : List Turn} {lo hi : Transaction} {iLo iHi : Instr}
    (counter : State → BitVec 64) (shadow : Shadows → Word32) (latched : State → Shadows)
    (hlo : decodeBus lo = some iLo) (hhi : decodeBus hi = some iHi)
    (readLo : ∀ s, exec iLo s = .next { s with shadows := latched s, response := some (lowWord (counter s)) })
    (latches : ∀ s, shadow (latched s) = highWord (counter s))
    (readHi : ∀ s, exec iHi s = .next { s with response := some (shadow s.shadows) })
    (unscheduled : ∀ s r, counter { s with schedule := r } = counter s)
    (hs : s.schedule = .host lo :: .core :: .host hi :: rest)
    (ha : step s = .next a) (hb : step a = .next b) (hc : step b = .next c) :
    ∃ low high : Word32, a.response = some low ∧ c.response = some high
      ∧ high.toNat * 2 ^ 32 + low.toNat = (counter s).toNat := by
  rw [step_of_decodeBus_eq_some hs hlo, readLo] at ha
  obtain rfl := Host.Outcome.next.inj ha
  rw [step_of_core rfl] at hb
  obtain rfl := Host.Outcome.next.inj hb
  rw [step_of_decodeBus_eq_some (coreTurn_schedule _) hhi, readHi] at hc
  obtain rfl := Host.Outcome.next.inj hc
  refine ⟨lowWord (counter s), highWord (counter s), by rw [← unscheduled s], ?_, highWord_lowWord_toNat _⟩
  show some (shadow (coreTurn _).shadows) = _
  rw [coreTurn_shadows, latches, unscheduled]

/-- Settles O34: the three counters have their own reads and shadows, and one argument. -/
theorem counterPairIsNotTorn : Obligations.CounterPairIsNotTorn := by
  intro s a b c rest lo counter hcounter hs ha hb hc
  rcases hcounter with ⟨rfl, rfl⟩ | ⟨rfl, rfl⟩ | ⟨rfl, rfl⟩
  · exact counter_pair_halves (iLo := .rdFrameIdxLo) (iHi := .rdFrameIdxHi) (fun s => s.fsr.frameIdx) Shadows.frame
      (fun s => { s.shadows with frame := highWord s.fsr.frameIdx }) rfl rfl (fun _ => rfl) (fun _ => rfl)
      (fun _ => rfl) (fun _ _ => rfl) hs ha hb hc
  · exact counter_pair_halves (iLo := .rdInCountLo) (iHi := .rdInCountHi) (fun s => s.fsr.inCount) Shadows.input
      (fun s => { s.shadows with input := highWord s.fsr.inCount }) rfl rfl (fun _ => rfl) (fun _ => rfl)
      (fun _ => rfl) (fun _ _ => rfl) hs ha hb hc
  · exact counter_pair_halves (iLo := .rdOutCountLo) (iHi := .rdOutCountHi) (fun s => s.fsr.outCount) Shadows.output
      (fun s => { s.shadows with output := highWord s.fsr.outCount }) rfl rfl (fun _ => rfl) (fun _ => rfl)
      (fun _ => rfl) (fun _ _ => rfl) hs ha hb hc

/-! ## The debug views -/

theorem exec_rdDbgZ (s : State) : exec .rdDbgZ s = debugRead s fun l => hostRead (bitWord l.z) s := rfl

theorem exec_rdDbgZ1 (s : State) : exec .rdDbgZ1 s = debugRead s fun l => integratorRead l.z1 s := rfl

theorem exec_rdDbgZ2 (s : State) : exec .rdDbgZ2 s = debugRead s fun l => integratorRead l.z2 s := rfl

theorem debugRead_of_pending {s : State} (h : s.fsr.state = .resampling ∨ s.fsr.state = .draining)
    (view : Lane → Answer) : debugRead s view = hostReadFree id s :=
  if_pos (framePending_iff.2 h)

theorem debugRead_of_no_lane {s : State} (h : ¬(s.fsr.state = .resampling ∨ s.fsr.state = .draining))
    (hc : s.build.cMax ≤ s.regs.chSel.toNat) (view : Lane → Answer) : debugRead s view = hostRead 0 s :=
  (if_neg (mt framePending_iff.1 h)).trans (if_pos hc)

theorem debugRead_of_lane {s : State} (h : ¬(s.fsr.state = .resampling ∨ s.fsr.state = .draining))
    (hc : s.regs.chSel.toNat < s.build.cMax) {l : Lane} (hl : s.lanes[s.regs.chSel.toNat]? = some l)
    (view : Lane → Answer) : debugRead s view = view l := by
  rw [debugRead, if_neg (mt framePending_iff.1 h), if_neg hc.not_ge, laneAt_of_getElem? hl]

theorem integratorRead_of_not_nan {a : F32} (h : isNaN a = false) (s : State) : integratorRead a s = hostRead a s :=
  if_neg (Bool.eq_false_iff.1 h)

theorem integratorRead_of_nan {a : F32} (h : isNaN a = true) (s : State) : integratorRead a s = hostReadFree asNaN s :=
  if_pos h

theorem expField_eq_toNat (a : F32) : expField a = (a.extractLsb' 23 8).toNat := by
  rw [BitVec.extractLsb'_toNat, Nat.shiftRight_eq_div_pow, expField]

theorem fracField_eq_toNat (a : F32) : fracField a = (a.extractLsb' 0 23).toNat := by
  rw [BitVec.extractLsb'_toNat, Nat.shiftRight_zero, fracField]

/-- A NaN by its two fields (R87). -/
theorem isNaN_eq_fields (a : F32) : isNaN a = (a.extractLsb' 23 8 == 0xFF#8 && a.extractLsb' 0 23 != 0#23) := by
  rw [isNaN, expField_eq_toNat, fracField_eq_toNat, Bool.eq_iff_iff]
  simp [← BitVec.toNat_inj]

/-- A word shaped as a NaN pattern is one (U18). -/
theorem isNaN_asNaN (w : Word32) : isNaN (asNaN w) = true := by
  have hexp : (w ||| 0x7F800000#32).extractLsb' 23 8 = 0xFF#8 := by
    rw [BitVec.extractLsb'_or]
    exact BitVec.or_allOnes
  rw [isNaN_eq_fields]
  unfold asNaN
  dsimp only
  split
  next hzero =>
    rw [BitVec.extractLsb'_or, hexp, BitVec.extractLsb'_or, hzero]
    decide
  next hne => simpa [hexp] using hne

/-- Settles O35, by the three classes of views, and by whether an integrator holds a NaN. -/
theorem debugReadsShowTheLane : Obligations.DebugReadsShowTheLane := by
  intro s
  simp only [exec_rdDbgZ, exec_rdDbgZ1, exec_rdDbgZ2]
  refine ⟨fun pending => ?_, fun settled hc => ?_, fun l settled hc hl => ?_⟩
  · simp only [debugRead_of_pending pending, hostReadFree_eq]
    exact ⟨⟨_, trivial, rfl⟩, ⟨_, trivial, rfl⟩, ⟨_, trivial, rfl⟩⟩
  · simp only [debugRead_of_no_lane settled hc, hostRead_eq, and_self]
  · simp only [debugRead_of_lane settled hc hl]
    refine ⟨hostRead_eq _ s, fun h => ?_, fun h => ?_, fun h => ?_, fun h => ?_⟩
    · exact integratorRead_of_not_nan h s
    · exact integratorRead_of_not_nan h s
    · exact ⟨_, isNaN_asNaN _, integratorRead_of_nan h s⟩
    · exact ⟨_, isNaN_asNaN _, integratorRead_of_nan h s⟩

end Sys2Proof.Machine
end

section
/-! The resets (R163, R380) and the test commands on a lane the build does not have (R123). -/

namespace Sys2Proof.Machine

/-- Settles O20: both resets are `resetBlock`, whose values are those of R381. -/
theorem softResetRestoresEveryValue : Obligations.SoftResetRestoresEveryValue :=
  fun s => ⟨exec_srst s, fun _ hs => step_of_reset hs⟩

theorem testStep_of_no_lane {s : State} {ch : BitVec 8} (hc : s.build.cMax ≤ ch.toNat) :
    testStep ch s = .error .illegalCmd :=
  if_pos hc

theorem testLoad_of_no_lane {s : State} {ch : BitVec 8} (hc : s.build.cMax ≤ ch.toNat) :
    testLoad ch s = .error .illegalCmd :=
  if_pos hc

/-- Settles O25: the lane is the first check of both rules. -/
theorem laneOutOfRangeIsIllegal : Obligations.LaneOutOfRangeIsIllegal := by
  intro s ch hf hc
  rw [exec_nsStep, exec_nsLoad, encodeCommand_nsStep, encodeCommand_nsLoad]
  exact ⟨hostWrite_of_error hf (testStep_of_no_lane hc), hostWrite_of_error hf (testLoad_of_no_lane hc)⟩

end Sys2Proof.Machine
end

section
/-! The invariant (R310 with the shapes of R30 to R44) through every step. The sizes are kept by the lemmas on
`ShapeOk`; here are the clauses of `StreamOk` and `RecordOk`, first where an effect leaves them alone, then where a stream starts,
takes a sample, and runs a frame step. -/

namespace Sys2Proof.Machine

/-! ## Changes that the invariant does not see -/

/-- The stream clauses speak of the build, the FSR and the configuration alone. -/
theorem StreamOk.of_fields {s t : State} (h : StreamOk s) (hb : t.build = s.build) (hf : t.fsr = s.fsr)
    (hc : t.regs.chCount = s.regs.chCount) (hd : t.regs.duration = s.regs.duration) : StreamOk t := by
  obtain ⟨channels, bound, emitted, filling, resampling, draining⟩ := h
  constructor <;> simpa only [streaming, durationOf, hb, hf, hc, hd]

/-- Where no stream runs there is nothing to keep. -/
theorem StreamOk.of_not_streaming {s : State} (h : ¬streaming s) : StreamOk s where
  channels running := absurd running h
  bound running := absurd running h
  emitted running := absurd running h
  filling hs := absurd (.inl hs) h
  resampling hs := absurd (.inr (.inl hs)) h
  draining hs := absurd (.inr (.inr hs)) h

theorem not_streaming_of_between {s : State} (h : s.fsr.state = .idle ∨ s.fsr.state = .done) : ¬streaming s :=
  fun running => not_between_of_streaming running h

theorem not_streaming_of_fault {s : State} (h : s.fsr.state = .fault) : ¬streaming s :=
  fun running => not_fault_of_streaming running h

/-- The record clauses speak of the error record, FRAMEBUF, RESULT, and whether STATE is FAULT. -/
theorem RecordOk.of_fields {s t : State} (h : RecordOk s) (hf : t.fsr.state = .fault ↔ s.fsr.state = .fault)
    (he : t.err = s.err) (hb : t.frameBuf = s.frameBuf) (hr : t.regs.result = s.regs.result) : RecordOk t := by
  obtain ⟨noError, someError, finite, result⟩ := h
  constructor <;> simpa only [hf, he, hb, hr, ne_eq]

/-- A result of NS_STEP has only the two fields of R51. -/
theorem resultWord_ok (z : Bool) :
    0x80000000#32 ||| bitWord z = 0x00000000#32 ∨ 0x80000000#32 ||| bitWord z = 0x80000000#32
      ∨ 0x80000000#32 ||| bitWord z = 0x80000001#32 := by
  rw [resultWord_eq_ite]
  cases z <;> simp

/-! ## Resets -/

theorem isFinite_zero : isFinite 0x00000000#32 = true := by decide

/-- A cleared FRAMEBUF holds finite values. -/
theorem isFinite_of_mem_cleared {c n : Nat} :
    ∀ r ∈ List.replicate c (List.replicate n 0x00000000#32), ∀ v ∈ r, isFinite v = true := by
  intro r hr v hv
  obtain rfl := List.eq_of_mem_replicate hr
  obtain rfl := List.eq_of_mem_replicate hv
  exact isFinite_zero

theorem Inv.resetBlock {s : State} (h : Inv s) : Inv (resetBlock s) where
  shape := h.shape.resetBlock
  stream := .of_not_streaming (not_streaming_of_between (.inl rfl))
  record := ⟨fun _ => rfl, nofun, isFinite_of_mem_cleared, .inl rfl⟩

/-- The constants, the turns to come and the answers are no part of the invariant's clauses. -/
theorem Inv.of_answer {s : State} (h : Inv s) (sh : Shadows) (sch : List Turn) (w : Option Word32) (k : Nat) :
    Inv { s with shadows := sh, schedule := sch, response := w, freeCount := k } where
  shape := h.shape.of_memories rfl rfl rfl rfl rfl rfl
  stream := h.stream.of_fields rfl rfl rfl rfl
  record := h.record.of_fields Iff.rfl rfl rfl rfl

/-- A block of a legal build has the invariant right after reset (R381). -/
theorem inv_resetFor {b : Build} (hb : b.valid = true) : Inv (State.resetFor b) where
  shape := shape_resetFor hb
  stream := .of_not_streaming (not_streaming_of_between (.inl rfl))
  record := ⟨fun _ => rfl, nofun, isFinite_of_mem_cleared, .inl rfl⟩

/-- The open build is legal, whatever its seeds are (R7 to R12; log 1). -/
theorem configBuild_valid : Config.build.valid = true := by
  have hl : Config.oversample ≤ 2 ^ 16 := by unfold Config.oversample; omega
  have hn : Config.frameSize ≤ 2 ^ 24 / Config.oversample := by
    have hpos : 0 < 2 ^ 24 / Config.oversample := Nat.div_pos (by omega) (Nat.succ_pos _)
    have := Nat.mod_lt Config.frameSizeSeed hpos
    unfold Config.frameSize
    omega
  have hnl : Config.frameSize * Config.oversample ≤ 2 ^ 24 :=
    (Nat.mul_le_mul_right _ hn).trans (Nat.div_mul_le_self _ _)
  have hc : Config.laneCount ≤ 255 := by unfold Config.laneCount; omega
  rw [Build.valid_iff]
  exact ⟨Nat.succ_pos _, hn.trans (Nat.div_le_self _ _), Nat.succ_pos _, hl, hnl, Nat.succ_pos _, hc,
    Nat.le_add_right _ _⟩

/-- Settles O16: reset gives every legal build the invariant, and the open build is legal. -/
theorem resetHasTheInvariant : Obligations.ResetHasTheInvariant :=
  inv_resetFor configBuild_valid

/-! ## The start of a stream (R164) -/

/-- A fresh stream keeps the sizes and the record in whatever state it starts. -/
theorem RecordOk.freshStream {s : State} (h : RecordOk s) (hf : s.fsr.state ≠ .fault) {st : FsrState}
    (hst : st ≠ .fault) : RecordOk (freshStream s st) where
  noError _ := h.noError hf
  someError hx := absurd hx hst
  finite := isFinite_of_mem_cleared
  result := .inl rfl

theorem StreamOk.startStream {s : State} (hn : 1 ≤ s.build.n) (h1 : 1 ≤ s.regs.chCount.toNat)
    (h2 : s.regs.chCount.toNat ≤ s.build.cMax) (h3 : s.build.l * durationOf s ≤ 2 ^ 64 - 1) :
    StreamOk (freshStream s (if s.regs.duration = 0 then .draining else .filling)) where
  channels _ := ⟨h1, h2⟩
  bound _ := h3
  emitted _ := by
    show 0 = min (s.build.l * durationOf s) ((0 - 1) * s.build.nl)
    simp
  filling hs := by
    have hd : s.regs.duration ≠ 0 := by
      intro h0
      rw [freshStream_fsr, if_pos h0] at hs
      cases hs
    have hpos : 0 < durationOf s := Nat.pos_of_ne_zero fun h => hd (BitVec.eq_of_toNat_eq h)
    exact ⟨hpos, hn, h1, (Nat.zero_mul _).symm⟩
  resampling hs := by
    simp only [freshStream_fsr] at hs
    split at hs <;> cases hs
  draining hs := by
    have hd : s.regs.duration = 0 := by
      by_contra h0
      rw [freshStream_fsr, if_neg h0] at hs
      cases hs
    have hzero : durationOf s = 0 := congrArg BitVec.toNat hd
    show 0 = durationOf s ∧ 0 = ceilDiv (durationOf s) s.build.n
    rw [hzero]
    exact ⟨rfl, (Nat.div_eq_of_lt (by omega)).symm⟩

/-! ## An accepted sample (R293, R294) -/

/-- An element of a list modified in one place is an old one or a modified one. -/
theorem mem_or_eq_of_mem_modify {α : Type} {f : α → α} {xs : List α} {i : Nat} {x : α} (h : x ∈ xs.modify i f) :
    x ∈ xs ∨ ∃ y ∈ xs, x = f y := by
  obtain ⟨j, hj⟩ := List.mem_iff_getElem?.1 h
  rw [List.getElem?_modify] at hj
  obtain ⟨y, hy, rfl⟩ := Option.map_eq_some_iff.1 hj
  split
  · exact .inr ⟨y, List.mem_of_getElem? hy, rfl⟩
  · exact .inl (List.mem_of_getElem? hy)

theorem RecordOk.storeSample_finite {s : State} (h : RecordOk s) {v : F32} (hv : isFinite v = true) :
    ∀ r ∈ (storeSample v s).frameBuf, ∀ x ∈ r, isFinite x = true := by
  intro r hr x hx
  rcases mem_or_eq_of_mem_modify hr with hr | ⟨y, hy, rfl⟩
  · exact h.finite r hr x hx
  · rcases List.mem_or_eq_of_mem_set hx with hx | rfl
    · exact h.finite y hy x hx
    · exact hv

/-- The zero fill of a short frame puts in finite values. -/
theorem zeroFill_finite {s : State} (h : ∀ r ∈ s.frameBuf, ∀ x ∈ r, isFinite x = true) (pos : Nat) :
    ∀ r ∈ zeroFill s pos, ∀ x ∈ r, isFinite x = true := by
  intro r hr x hx
  obtain ⟨c, hc, rfl⟩ := List.mem_mapIdx.1 hr
  have hrow := h _ (List.getElem_mem hc)
  split at hx
  · rcases List.mem_append.1 hx with hx | hx
    · exact hrow x (List.mem_of_mem_take hx)
    · obtain rfl := List.eq_of_mem_replicate hx
      exact isFinite_zero
  · exact hrow x hx

/-- FRAMEBUF after an accepted sample: the rows as long as before, of finite values. -/
theorem acceptSample_frameBuf {s : State} (shape : ShapeOk s) (record : RecordOk s) {v : F32} (hv : isFinite v = true)
    (hpos : s.fsr.pos.toNat < s.build.n) :
    (acceptSample v s).frameBuf.length = s.build.cMax
      ∧ (∀ r ∈ (acceptSample v s).frameBuf, r.length = s.build.n)
      ∧ ∀ r ∈ (acceptSample v s).frameBuf, ∀ x ∈ r, isFinite x = true := by
  have stored := shape.storeSample v
  have finite := record.storeSample_finite hv
  rcases acceptSample_cases v s with ⟨-, h⟩ | ⟨-, -, -, h⟩ | ⟨-, -, h⟩
  · rw [h]
    exact ⟨stored.rows, stored.row, finite⟩
  · rw [h]
    exact ⟨stored.rows, stored.row, finite⟩
  · rw [h]
    obtain ⟨rows, row⟩ := zeroFill_shape stored (pos := s.fsr.pos.toNat + 1) hpos
    exact ⟨rows, row, zeroFill_finite finite _⟩

theorem ShapeOk.of_frameBuf {s : State} (h : ShapeOk s) {fb : List (List F32)} (fsr : Fsr)
    (rows : fb.length = s.build.cMax) (row : ∀ r ∈ fb, r.length = s.build.n) :
    ShapeOk { s with frameBuf := fb, fsr := fsr } :=
  ⟨h.build, h.wa, h.ws, h.lanes, h.inbuf, h.tail, rows, row, h.depth, h.groups⟩

/-- A register below its limit does not wrap when it is counted up. -/
theorem succ_toNat {w : Nat} {x : BitVec w} (h : x.toNat + 1 < 2 ^ w) : (x + 1).toNat = x.toNat + 1 := by
  have hone : (1 : BitVec w).toNat = 1 := by
    exact (BitVec.toNat_ofNat 1 w).trans (Nat.mod_eq_of_lt (by omega))
  rw [BitVec.toNat_add_of_lt (by rwa [hone]), hone]

/-- IN_COUNT of a stream that takes samples is below D. -/
theorem inCount_succ_toNat {s : State} (h : s.fsr.inCount.toNat < durationOf s) :
    (s.fsr.inCount + 1).toNat = s.fsr.inCount.toNat + 1 :=
  succ_toNat ((Nat.succ_le_of_lt h).trans_lt s.regs.duration.isLt)

/-- The slot that ends the stream, in numbers. -/
theorem inCount_succ_eq_duration_iff {s : State} (h : s.fsr.inCount.toNat < durationOf s) :
    s.fsr.inCount + 1 = s.regs.duration ↔ s.fsr.inCount.toNat + 1 = durationOf s := by
  rw [← BitVec.toNat_inj, inCount_succ_toNat h, durationOf]

theorem StreamOk.acceptSample {s : State} (h : StreamOk s) (hn : s.build.n ≤ 2 ^ 24) (hs : s.fsr.state = .filling)
    (v : F32) : StreamOk (acceptSample v s) := by
  have running : streaming s := .inl hs
  obtain ⟨hin, hpos, hptr, hcount⟩ := h.filling hs
  have hsucc := inCount_succ_toNat hin
  rcases acceptSample_cases v s with ⟨hmore, ha⟩ | ⟨hlast, hopen, hgoes, ha⟩ | ⟨hlast, hfull, ha⟩
  · rw [ha]
    have hptr' : (s.fsr.chPtr + 1).toNat = s.fsr.chPtr.toNat + 1 := succ_toNat (hmore.trans s.regs.chCount.isLt)
    refine ⟨fun _ => h.channels running, fun _ => h.bound running, fun _ => h.emitted running,
      fun _ => ⟨hin, hpos, ?_, hcount⟩, fun hr => ?_, fun hr => ?_⟩
    · exact hptr'.trans_lt hmore
    · exact absurd (hs.symm.trans hr) (by simp)
    · exact absurd (hs.symm.trans hr) (by simp)
  · rw [ha]
    have hpos' : (BitVec.ofNat 24 (s.fsr.pos.toNat + 1)).toNat = s.fsr.pos.toNat + 1 := by
      rw [BitVec.toNat_ofNat, Nat.mod_eq_of_lt (by omega)]
    have hne := mt (inCount_succ_eq_duration_iff hin).2 hgoes
    obtain ⟨hc1, -⟩ := h.channels running
    refine ⟨fun _ => h.channels running, fun _ => h.bound running, fun _ => h.emitted running,
      fun _ => ⟨?_, ?_, hc1, ?_⟩, fun hr => ?_, fun hr => ?_⟩
    · show (s.fsr.inCount + 1).toNat < durationOf s
      omega
    · show (BitVec.ofNat 24 (s.fsr.pos.toNat + 1)).toNat < s.build.n
      omega
    · show (s.fsr.inCount + 1).toNat = s.fsr.frameIdx.toNat * s.build.n + (BitVec.ofNat 24 (s.fsr.pos.toNat + 1)).toNat
      omega
    · exact absurd (hs.symm.trans hr) (by simp)
    · exact absurd (hs.symm.trans hr) (by simp)
  · rw [ha]
    rw [inCount_succ_eq_duration_iff hin] at hfull
    refine ⟨fun _ => h.channels running, fun _ => h.bound running, fun _ => h.emitted running, nofun,
      fun _ => ⟨rfl, rfl, ?_, ?_⟩, nofun⟩
    · show s.fsr.frameIdx.toNat * s.build.n < durationOf s
      omega
    · show (s.fsr.inCount + 1).toNat = min (durationOf s) ((s.fsr.frameIdx.toNat + 1) * s.build.n)
      rw [Nat.add_one_mul]
      omega

theorem Inv.acceptSample {s : State} (h : Inv s) (hs : s.fsr.state = .filling) {v : F32} (hv : isFinite v = true) :
    Inv (acceptSample v s) := by
  obtain ⟨-, hpos, -, -⟩ := h.stream.filling hs
  obtain ⟨-, hn, -⟩ := (Build.valid_iff _).1 h.shape.build
  obtain ⟨rows, row, finite⟩ := acceptSample_frameBuf h.shape h.record hv hpos
  have stream := h.stream.acceptSample hn hs v
  have noFault : (Machine.acceptSample v s).fsr.state ≠ .fault := by
    rcases acceptSample_state v s with hkept | hfull
    · rw [hkept, hs]
      simp
    · simp [hfull]
  rw [acceptSample_eq] at stream ⊢
  refine ⟨h.shape.of_frameBuf _ rows row, stream, fun _ => h.record.noError (by simp [hs]), fun hx => ?_, finite,
    h.record.result⟩
  exact absurd hx noFault

/-! ## The frame step (R296, R302) -/

/-- OUT_COUNT after one more frame: the bits of the frame, cut at D·L (R298, R299). -/
theorem emitted_succ {total perFrame frames out : Nat} (h : out = min total ((frames - 1) * perFrame)) :
    out + (if frames = 0 then 0 else min perFrame (total - out)) = min total (frames * perFrame) := by
  rcases frames with - | k
  · simp [h]
  · rw [if_neg k.succ_ne_zero, Nat.add_one_mul]
    rw [Nat.add_sub_cancel] at h
    omega

/-- W in numbers. -/
theorem pushWidth_eq (s : State) :
    pushWidth s = if s.fsr.frameIdx.toNat = 0 then 0
      else min s.build.nl (s.build.l * durationOf s - s.fsr.outCount.toNat) := by
  have hzero : s.fsr.frameIdx = 0 ↔ s.fsr.frameIdx.toNat = 0 := BitVec.toNat_inj.symm
  simp only [pushWidth, hzero]

/-- While OUT_COUNT is at most D·L and D·L is a 64-bit number, no count of output wraps. -/
theorem outCount_frameStep {s : State} (hb : s.build.l * durationOf s ≤ 2 ^ 64 - 1)
    (ho : s.fsr.outCount.toNat ≤ s.build.l * durationOf s) :
    (frameStep s).fsr.outCount.toNat = s.fsr.outCount.toNat + pushWidth s := by
  have hw := pushWidth_eq s
  have hlt : s.fsr.outCount.toNat + pushWidth s < 2 ^ 64 := by
    split at hw <;> omega
  show (s.fsr.outCount + BitVec.ofNat 64 (pushWidth s)).toNat = _
  rw [BitVec.toNat_add, BitVec.toNat_ofNat, Nat.mod_eq_of_lt (by omega : pushWidth s < 2 ^ 64), Nat.mod_eq_of_lt hlt]

/-- The output of the frames so far, after one more frame of a running stream. -/
theorem StreamOk.emitted_frameStep {s : State} (h : StreamOk s) (running : streaming s) :
    (frameStep s).fsr.outCount.toNat = min (s.build.l * durationOf s) (s.fsr.frameIdx.toNat * s.build.nl) := by
  have hout := h.emitted running
  rw [outCount_frameStep (h.bound running) (by omega), pushWidth_eq]
  exact emitted_succ hout

/-- The last frame's number (R303). -/
theorem ceilDiv_eq {d n k : Nat} (hlo : k * n < d + n) (hhi : d ≤ k * n) : ceilDiv d n = k := by
  rcases Nat.eq_zero_or_pos n with rfl | hn
  · omega
  · refine Nat.div_eq_of_lt_le (by omega) ?_
    rw [Nat.add_one_mul]
    omega

/-- FRAME_IDX does not wrap before the drain frame: a frame that is resampled has samples (R303). -/
theorem frameIdx_succ_toNat {s : State} (hn : 1 ≤ s.build.n) (h : s.fsr.frameIdx.toNat * s.build.n < durationOf s) :
    (s.fsr.frameIdx + 1).toNat = s.fsr.frameIdx.toNat + 1 := by
  have hle := Nat.le_mul_of_pos_right s.fsr.frameIdx.toNat hn
  exact succ_toNat ((Nat.succ_le_of_lt (hle.trans_lt h)).trans_lt s.regs.duration.isLt)

/-- NextState of R302 from RESAMPLING, in numbers. -/
theorem nextState_of_resampling {s : State} (hs : s.fsr.state = .resampling) :
    nextState s = if s.fsr.inCount.toNat = durationOf s then .draining else .filling := by
  have hd : s.fsr.inCount = s.regs.duration ↔ s.fsr.inCount.toNat = durationOf s := BitVec.toNat_inj.symm
  simp only [nextState, hs, hd, reduceCtorEq, if_false]

theorem nextState_of_draining {s : State} (hs : s.fsr.state = .draining) : nextState s = .done := if_pos hs

theorem StreamOk.frameStep_of_resampling {s : State} (h : StreamOk s) (hn : 1 ≤ s.build.n)
    (hs : s.fsr.state = .resampling) : StreamOk (frameStep s) := by
  have running : streaming s := .inr (.inl hs)
  obtain ⟨hpos, hptr, hidx, hin⟩ := h.resampling hs
  have hsucc := frameIdx_succ_toNat hn hidx
  have hnext : (frameStep s).fsr.state = if s.fsr.inCount.toNat = durationOf s then .draining else .filling :=
    nextState_of_resampling hs
  obtain ⟨hc1, hc2⟩ := h.channels running
  refine ⟨fun _ => ⟨hc1, hc2⟩, fun _ => h.bound running, fun _ => ?_, fun hr => ?_, fun hr => ?_, fun hr => ?_⟩
  · show (frameStep s).fsr.outCount.toNat
      = min (s.build.l * durationOf s) (((s.fsr.frameIdx + 1).toNat - 1) * s.build.nl)
    rw [hsucc]
    exact h.emitted_frameStep running
  · rw [hnext] at hr
    split at hr
    next => cases hr
    next hne =>
      show s.fsr.inCount.toNat < durationOf s ∧ s.fsr.pos.toNat < s.build.n
        ∧ s.fsr.chPtr.toNat < s.regs.chCount.toNat
        ∧ s.fsr.inCount.toNat = (s.fsr.frameIdx + 1).toNat * s.build.n + s.fsr.pos.toNat
      have hzero : s.fsr.pos.toNat = 0 := congrArg BitVec.toNat hpos
      rw [hsucc, hzero, hptr]
      exact ⟨by omega, hn, hc1, by omega⟩
  · rw [hnext] at hr
    split at hr <;> cases hr
  · rw [hnext] at hr
    split at hr
    next heq =>
      show s.fsr.inCount.toNat = durationOf s ∧ (s.fsr.frameIdx + 1).toNat = ceilDiv (durationOf s) s.build.n
      rw [hsucc]
      refine ⟨heq, (ceilDiv_eq ?_ ?_).symm⟩
      · rw [Nat.add_one_mul]
        omega
      · omega
    next => cases hr

theorem Inv.frameStep {s : State} (h : Inv s) (pending : s.fsr.state = .resampling ∨ s.fsr.state = .draining)
    (hq : s.fifo = []) : Inv (frameStep s) := by
  obtain ⟨-, hc⟩ := h.stream.channels (.inr pending)
  obtain ⟨hn, -⟩ := (Build.valid_iff _).1 h.shape.build
  have noFault : s.fsr.state ≠ .fault := not_fault_of_streaming (.inr pending)
  refine ⟨h.shape.frameStep hq hc, ?_, h.record.of_fields ?_ rfl rfl rfl⟩
  · rcases pending with hs | hs
    · exact h.stream.frameStep_of_resampling hn hs
    · exact .of_not_streaming (not_streaming_of_between (.inr (nextState_of_draining hs)))
  · exact iff_of_false (nextState_ne_fault s) noFault

/-! ## Every step -/

theorem Inv.turn {s u : State} {t : Transaction} (h : Inv s) (effect : TurnEffect s t u) : Inv u := by
  obtain ⟨shape, stream, record⟩ := h
  have hinv : Inv s := ⟨shape, stream, record⟩
  cases effect with
  | read hw fifo shadows w k hf =>
    have hkept : fifo.length ≤ s.fifo.length ∧ ∀ g ∈ fifo, g ∈ s.fifo := by
      rcases hf with rfl | ⟨g, hg⟩
      · exact ⟨le_rfl, fun _ hx => hx⟩
      · rw [hg]
        exact ⟨Nat.le_succ _, fun _ => List.mem_cons_of_mem _⟩
    refine ⟨⟨shape.build, shape.wa, shape.ws, shape.lanes, shape.inbuf, shape.tail, shape.rows, shape.row,
      hkept.1.trans shape.depth, fun g hg => shape.groups g (hkept.2 g hg)⟩, ?_, ?_⟩
    · exact stream.of_fields rfl rfl rfl rfl
    · exact record.of_fields Iff.rfl rfl rfl rfl
  | ignored => exact hinv.of_answer _ _ _ _
  | nop => exact hinv.of_answer _ _ _ _
  | reset => exact hinv.resetBlock.of_answer _ _ _ _
  | fault hw hf code hc =>
    exact ⟨shape.faulted code _ _, .of_not_streaming (not_streaming_of_fault rfl), fun hx => absurd rfl hx,
      fun _ => hc, record.finite, record.result⟩
  | start hw ha hc hs hq h1 h2 h3 =>
    obtain ⟨hn, -⟩ := (Build.valid_iff _).1 shape.build
    refine Inv.of_answer (s := freshStream s _) ⟨shape.freshStream _, StreamOk.startStream hn h1 h2 h3, ?_⟩ _ _ _ _
    refine record.freshStream (not_fault_of_between hs) ?_
    split <;> simp
  | abort hw ha hc hf =>
    have fresh := record.freshStream hf (st := .idle) (by simp)
    refine Inv.of_answer (s := abandonStream s) ⟨shape.abandonStream, ?_, ?_⟩ _ _ _ _
    · exact .of_not_streaming (not_streaming_of_between (.inl rfl))
    · exact fresh.of_fields Iff.rfl rfl rfl rfl
  | nsStep hw hs ch hc r hr =>
    obtain ⟨hi, ht⟩ := shape.laneAt ch.toNat
    subst hr
    have kept : ShapeOk (setLane s ch.toNat (nsStep (laneAt s ch.toNat) s.regs.data0).1) := shape.setLane _ hi ht
    refine ⟨kept.of_memories rfl rfl rfl rfl rfl rfl, ?_, record.noError, record.someError, record.finite,
      resultWord_ok _⟩
    exact .of_not_streaming (not_streaming_of_between hs)
  | nsLoad hw hs ch hc z z1 z2 =>
    obtain ⟨hi, ht⟩ := shape.laneAt ch.toNat
    have kept : ShapeOk (setLane s ch.toNat { laneAt s ch.toNat with z := z, z1 := z1, z2 := z2 }) :=
      shape.setLane _ hi ht
    refine ⟨kept.of_memories rfl rfl rfl rfl rfl rfl, ?_, ?_⟩
    · exact .of_not_streaming (not_streaming_of_between hs)
    · exact record.of_fields Iff.rfl rfl rfl rfl
  | configure hw hs regs hr =>
    refine ⟨shape.of_memories rfl rfl rfl rfl rfl rfl, ?_, record.of_fields Iff.rfl rfl rfl hr⟩
    exact .of_not_streaming (not_streaming_of_between hs)
  | operand hw hf regs hr hc hd =>
    exact ⟨shape.of_memories rfl rfl rfl rfl rfl rfl, stream.of_fields rfl rfl hc hd,
      record.of_fields Iff.rfl rfl rfl hr⟩
  | sample hw ha hs hv => exact (hinv.acceptSample hs hv).of_answer _ _ _ _

/-- Settles O15, by the kinds of step: `Inv.frameStep`, `Inv.resetBlock` and `Inv.turn`, on the state without the turn
that is performed. -/
theorem stepKeepsTheInvariant : Obligations.StepKeepsTheInvariant := by
  intro s t h hstep
  have left : ∀ rest, Inv { s with schedule := rest } := fun rest => h.of_answer _ _ _ _
  cases step_effect hstep with
  | frame rest due pending hq => exact (left rest).frameStep pending hq
  | wait rest => exact left rest
  | reset rest => exact (left rest).resetBlock
  | host tr rest hs effect => exact (left rest).turn effect

end Sys2Proof.Machine
end

section
/-! The changes of STATE (R291), each with its event and guard, and the totals at the end of a stream (R303). -/

namespace Sys2Proof.Machine

/-! ## The events -/

theorem eq_writeOf {tr : Transaction} {addr : BitVec 8} (hw : tr.we = true) (ha : tr.addr = addr) :
    tr = writeOf addr tr.data := by
  cases tr
  cases hw
  cases ha
  rfl

/-- A write to CMD that decodes to a command is the write of that command's word (R122, R125). -/
theorem eq_writeOf_command {cMax : Nat} {tr : Transaction} {c : Command} (hw : tr.we = true) (ha : tr.addr = 0x10)
    (hc : decodeCommand cMax tr.data = some c) : tr = writeOf 0x10 (encodeCommand c) := by
  rw [encodeCommand_of_decodeCommand hc]
  exact eq_writeOf hw ha

theorem CoreTurnDue.schedule {s : State} {rest : List Turn} (due : CoreTurnDue s rest) :
    s.schedule = [] ∨ ∃ rest, s.schedule = .core :: rest :=
  due.imp And.left fun hs => ⟨rest, hs⟩

/-! ## The guards -/

/-- From RESAMPLING the frame step goes to DRAINING when the stream has all its samples, and to FILLING before that
(R302). -/
theorem StreamOk.nextState_cases {s : State} (h : StreamOk s) (hs : s.fsr.state = .resampling) :
    (s.fsr.inCount.toNat < durationOf s ∧ nextState s = .filling)
      ∨ (s.fsr.inCount.toNat = durationOf s ∧ nextState s = .draining) := by
  obtain ⟨-, -, -, hin⟩ := h.resampling hs
  rw [nextState_of_resampling hs]
  by_cases hd : s.fsr.inCount.toNat = durationOf s
  · exact .inr ⟨hd, if_pos hd⟩
  · exact .inl ⟨by omega, if_neg hd⟩

/-- An accepted sample that changes STATE is the slot's last and completes its frame (R293). -/
theorem acceptSample_moves {s : State} (h : StreamOk s) (hs : s.fsr.state = .filling) {v : F32}
    (hne : (acceptSample v s).fsr.state ≠ s.fsr.state) :
    (acceptSample v s).fsr.state = .resampling ∧ s.fsr.chPtr.toNat + 1 = s.regs.chCount.toNat
      ∧ (s.fsr.pos.toNat + 1 = s.build.n ∨ s.fsr.inCount.toNat + 1 = durationOf s) := by
  obtain ⟨hin, -, hptr, -⟩ := h.filling hs
  rcases acceptSample_cases v s with ⟨-, ha⟩ | ⟨-, -, -, ha⟩ | ⟨hlast, hfull, ha⟩
  · exact absurd (congrArg (fun t => t.fsr.state) ha) hne
  · exact absurd (congrArg (fun t => t.fsr.state) ha) hne
  · rw [inCount_succ_eq_duration_iff hin] at hfull
    exact ⟨congrArg (fun t => t.fsr.state) ha, by omega, hfull⟩

/-- Settles O11, by the kinds of step: the effects that change STATE are the rows of the table, in its order. -/
theorem stateChangesOnlyByTheTable : Obligations.StateChangesOnlyByTheTable := by
  intro s t hinv hstep hne
  dsimp only
  have stream := hinv.stream
  cases step_effect hstep with
  | frame rest due pending hq =>
    rcases pending with hs | hs
    · exact .inr (.inr (.inl ⟨hs, ⟨hq, due.schedule⟩, stream.nextState_cases hs⟩))
    · exact .inr (.inr (.inr (.inl ⟨hs, ⟨hq, due.schedule⟩, nextState_of_draining hs⟩)))
  | wait => exact absurd rfl hne
  | reset rest hs => exact .inr (.inr (.inr (.inr (.inr (.inl ⟨.inl ⟨rest, hs⟩, rfl⟩)))))
  | host tr rest hs effect =>
    cases effect with
    | start hw ha hc hb hq h1 h2 h3 =>
      refine .inl ⟨hb, ⟨rest, by rw [hs, eq_writeOf_command hw ha hc]; rfl⟩, hq, h1, h2, ?_, ?_⟩
      · rw [Nat.mul_comm]
        exact h3
      · by_cases hd : s.regs.duration = 0
        · exact .inl ⟨congrArg BitVec.toNat hd, if_pos hd⟩
        · exact .inr ⟨Nat.pos_of_ne_zero fun h => hd (BitVec.eq_of_toNat_eq h), if_neg hd⟩
    | sample hw ha hf hv =>
      obtain ⟨hmoves, hlast, hfull⟩ := acceptSample_moves (s := { s with schedule := rest })
        (stream.of_fields rfl rfl rfl rfl) hf hne
      have event : s.schedule = .host (writeOf 0x30 tr.data) :: rest := by rw [hs, ← eq_writeOf hw ha]
      exact .inr (.inl ⟨hf, hmoves, ⟨tr.data, ⟨rest, event⟩, hv⟩, hlast, hfull⟩)
    | abort hw ha hc hf =>
      have event : s.schedule = .host (writeOf 0x10 0x03000000#32) :: rest := by
        rw [hs, eq_writeOf_command hw ha hc]
        rfl
      exact .inr (.inr (.inr (.inr (.inl ⟨hf, ⟨rest, event⟩, rfl⟩))))
    | reset hw ha hc =>
      have event : s.schedule = .host (writeOf 0x10 0x01000000#32) :: rest := by
        rw [hs, eq_writeOf_command hw ha hc]
        rfl
      exact .inr (.inr (.inr (.inr (.inr (.inl ⟨.inr ⟨rest, event⟩, rfl⟩)))))
    | fault hw hf code hc =>
      have event : s.schedule = .host (writeOf tr.addr tr.data) :: rest := by rw [hs, ← eq_writeOf hw rfl]
      exact .inr (.inr (.inr (.inr (.inr (.inr ⟨hf, rfl, tr.addr, tr.data, rest, code, event, rfl⟩)))))
    | _ => exact absurd rfl hne

/-! ## The totals of a stream -/

/-- The drain frame brings the output to D·L: the frames before it and the drain frame hold at least D·L bits. -/
theorem total_of_drain {d n l : Nat} (hn : 1 ≤ n) : min (l * d) (ceilDiv d n * (n * l)) = l * d := by
  have hle : d ≤ ceilDiv d n * n := by
    have := Nat.lt_div_mul_add (a := d + n - 1) hn
    show d ≤ (d + n - 1) / n * n
    omega
  have hmul := Nat.mul_le_mul_right l hle
  rw [Nat.mul_assoc] at hmul
  rw [Nat.min_eq_left]
  rwa [Nat.mul_comm l d]

theorem TurnEffect.keeps_done {s u : State} {t : Transaction} (h : TurnEffect s t u) (hs : s.fsr.state = .done)
    (hu : u.fsr.state = .done) : u.fsr = s.fsr := by
  cases h with
  | start =>
    simp only [freshStream_fsr] at hu
    split at hu <;> cases hu
  | sample _ _ hf => exact absurd (hf.symm.trans hs) (by simp)
  | reset => cases hu
  | abort => cases hu
  | fault => cases hu
  | _ => rfl

/-- Settles O56: DRAINING has all its samples and the number of its frames, and `emitted_frameStep` counts the output;
the effects that leave DONE as it is keep the FSR. -/
theorem drainFrameCompletesTheOutput : Obligations.DrainFrameCompletesTheOutput := by
  refine ⟨fun s hinv hs => ?_, fun s t hstep hs ht => ?_⟩
  · obtain ⟨hin, hidx⟩ := hinv.stream.draining hs
    obtain ⟨hn, -⟩ := (Build.valid_iff _).1 hinv.shape.build
    refine ⟨nextState_of_draining hs, hin, ?_, fun f hlo hhi => ?_⟩
    · rw [hinv.stream.emitted_frameStep (.inr (.inr hs)), hidx, total_of_drain hn, Nat.mul_comm]
    · show (s.fsr.frameIdx + 1).toNat = (f + 1) % 2 ^ 64
      rw [BitVec.toNat_add, hidx, ceilDiv_eq hhi hlo]
      rfl
  · cases step_effect hstep with
    | frame rest due pending =>
      rcases pending with h | h <;> exact absurd (hs.symm.trans h) (by simp)
    | wait => rfl
    | reset => cases ht
    | host tr rest _ effect => exact effect.keeps_done hs ht

end Sys2Proof.Machine
end

section
/-! The frame step (R296 to R300): the lanes it runs and the groups it pushes. -/

namespace Sys2Proof.Machine

/-! ## One lane: PRF, OLA, NS -/

/-- A run on the samples up to and with sample j is one more shaper step. -/
theorem nsRun_take_succ {l : Lane} {xs : List F32} {j : Nat} {v : F32} (h : xs[j]? = some v) :
    (nsRun l (xs.take (j + 1))).1 = (nsStep (nsRun l (xs.take j)).1 v).1 := by
  rw [List.take_add_one, h, Option.toList_some, nsRun_append]
  rfl

/-- Bit j of a run is that of the shaper step on sample j. -/
theorem nsRun_getElem? {l : Lane} {xs : List F32} {j : Nat} {v : F32} (h : xs[j]? = some v) :
    (nsRun l xs).2[j]? = some (nsStep (nsRun l (xs.take j)).1 v).2 := by
  obtain ⟨hj, hv⟩ := List.getElem?_eq_some_iff.1 h
  have split : xs = xs.take j ++ v :: xs.drop (j + 1) := by
    rw [← hv, ← List.drop_eq_getElem_cons hj, List.take_append_drop]
  have hlen : (nsRun l (xs.take j)).2.length = j := by
    rw [nsRun_length, List.length_take]
    omega
  calc (nsRun l xs).2[j]?
      = (nsRun l (xs.take j ++ v :: xs.drop (j + 1))).2[j]? := by rw [← split]
    _ = ((nsRun l (xs.take j)).2 ++ (nsRun (nsRun l (xs.take j)).1 (v :: xs.drop (j + 1))).2)[j]? := by
        rw [nsRun_append]
    _ = some (nsStep (nsRun l (xs.take j)).1 v).2 := by
        rw [List.getElem?_append_right (by omega), hlen, Nat.sub_self]
        rfl

/-- Settles O49: the shaper's run on the samples before j leaves the lane that its step j sees. -/
theorem laneFrameRunsTheThreeUnitsInOrder : Obligations.LaneFrameRunsTheThreeUnitsInOrder := by
  intro b wa ws l x prf ola r
  have hlen : ola.2.length = b.nl := (olaCall_length b ws prf.1 prf.2).1
  refine ⟨hlen, (laneFrame_shape b wa ws l x).1, fun j => (nsRun ola.1 (ola.2.take j)).1, rfl, ?_, fun j v hv => ?_⟩
  · show (nsRun ola.1 (ola.2.take b.nl)).1 = (nsRun ola.1 ola.2).1
    rw [List.take_of_length_le hlen.le]
  · exact ⟨nsRun_take_succ hv, nsRun_getElem? hv⟩

/-! ## The lanes of a frame step -/

/-- An active lane becomes what its own frame makes of it. -/
theorem frameStep_lane_of_active {s : State} {c : Nat} (hc : c < s.regs.chCount.toNat) :
    (frameStep s).lanes[c]? = some (laneFrame s.build s.wa s.ws (laneAt s c) (frameInput s c)).1 := by
  rw [frameStep_lanes, List.getElem?_append_left (by rwa [List.length_map, activeLanes_length]), List.getElem?_map,
    activeLanes_getElem?, if_pos hc]
  rfl

/-- The lanes from CH_COUNT on stay. -/
theorem frameStep_lane_of_idle {s : State} {c : Nat} (hc : s.regs.chCount.toNat ≤ c) :
    (frameStep s).lanes[c]? = s.lanes[c]? := by
  have hlen : ((activeLanes s).map Prod.fst).length = s.regs.chCount.toNat := by
    rw [List.length_map, activeLanes_length]
  rw [frameStep_lanes, List.getElem?_append_right (by omega), hlen, List.getElem?_drop, Nat.add_sub_cancel' hc]

theorem frameStep_lanes_length {s : State} (h : s.regs.chCount.toNat ≤ s.lanes.length) :
    (frameStep s).lanes.length = s.lanes.length := by
  rw [frameStep_lanes, List.length_append, List.length_map, activeLanes_length, List.length_drop]
  omega

theorem frameInput_of_not_draining {s : State} (h : s.fsr.state ≠ .draining) {c : Nat} {x : List F32}
    (hx : s.frameBuf[c]? = some x) : frameInput s c = x := by
  rw [frameInput, if_neg h, List.getD_eq_getElem?_getD, hx, Option.getD_some]

theorem frameInput_of_draining {s : State} (h : s.fsr.state = .draining) (c : Nat) :
    frameInput s c = List.replicate s.build.n 0x00000000#32 :=
  if_pos h

/-- Settles O50: active lanes run, the others stay, and the fields of the step are its lanes, FIFO and FSR. -/
theorem frameStepRunsEveryActiveLane : Obligations.FrameStepRunsEveryActiveLane := by
  intro s c l hcount hl
  refine ⟨fun hc hs x hx => ?_, fun hc => ?_, frameStep_lanes_length hcount, _, _, _, rfl, rfl, rfl, rfl, rfl⟩
  · rw [frameStep_lane_of_active hc, laneAt_of_getElem? hl, frameInput_of_not_draining hs hx]
  · rw [frameStep_lane_of_idle hc, hl]

/-- In DRAINING no lane reads FRAMEBUF (R297). -/
theorem activeLanes_of_draining {s : State} (h : s.fsr.state = .draining) (fb : List (List F32)) :
    activeLanes { s with frameBuf := fb } = activeLanes s := by
  apply tabulate_congr
  intro c _
  rw [frameInput_of_draining h, frameInput_of_draining (s := { s with frameBuf := fb }) h]
  rfl

/-- Settles O51: FRAMEBUF reaches the step through the active lanes alone, and in DRAINING they read zeros. -/
theorem drainFrameProcessesSilence : Obligations.DrainFrameProcessesSilence := by
  intro s hs
  refine ⟨fun fb => ?_, fun c l _ hc hl => ?_⟩
  · simp only [frameStep, activeLanes_of_draining hs fb]
    rfl
  · rw [frameStep_lane_of_active hc, laneAt_of_getElem? hl, frameInput_of_draining hs]
    rfl

/-! ## The groups of a lane (R300) -/

/-- The bits of a lane's k-th group: the frame's bits from 8·k on, up to the width. -/
def groupChunk (w : Nat) (bits : List Bool) (k : Nat) : List Bool := (bits.drop (8 * k)).take (min 8 (w - 8 * k))

/-- The k-th group of a lane. -/
def groupAt (c w : Nat) (bits : List Bool) (k : Nat) : Group :=
  { ch := BitVec.ofNat 8 c, nbits := min 8 (w - 8 * k), bits := packBits (groupChunk w bits k) }

theorem groupsOf_eq (c w : Nat) (bits : List Bool) : groupsOf c w bits = tabulate (ceilDiv w 8) (groupAt c w bits) :=
  rfl

theorem lt_ceilDiv_iff {w k : Nat} : k < ceilDiv w 8 ↔ 8 * k < w := by
  rw [ceilDiv, Nat.lt_div_iff_mul_lt (by norm_num)]
  omega

theorem groupsOf_getElem?_eq_some {c w k : Nat} {bits : List Bool} {g : Group}
    (h : (groupsOf c w bits)[k]? = some g) : 8 * k < w ∧ g = groupAt c w bits k := by
  rw [groupsOf_eq, tabulate_getElem?] at h
  split at h
  next hk => exact ⟨lt_ceilDiv_iff.1 hk, (Option.some.inj h).symm⟩
  next => cases h

theorem exists_of_mem_groupsOf {c w : Nat} {bits : List Bool} {g : Group} (h : g ∈ groupsOf c w bits) :
    ∃ k, 8 * k < w ∧ g = groupAt c w bits k := by
  obtain ⟨k, hk⟩ := List.mem_iff_getElem?.1 h
  exact ⟨k, groupsOf_getElem?_eq_some hk⟩

theorem groupAt_ch_toNat {c : Nat} (hc : c < 256) (w : Nat) (bits : List Bool) (k : Nat) :
    (groupAt c w bits k).ch.toNat = c :=
  (BitVec.toNat_ofNat c 8).trans (Nat.mod_eq_of_lt hc)

/-- The unused low bits are 0 (R130). -/
theorem groupAt_low (c w : Nat) (bits : List Bool) (k : Nat) :
    (groupAt c w bits k).bits.toNat % 2 ^ (8 - (groupAt c w bits k).nbits) = 0 :=
  packBits_low _ _ (Nat.min_le_left _ _) (List.length_take_le _ _)

/-- Where the lane has W bits, a group carries its chunk. -/
theorem groupBits_groupAt (c : Nat) {w : Nat} {bits : List Bool} (hw : w ≤ bits.length) (k : Nat) :
    groupBits (groupAt c w bits k) = groupChunk w bits k := by
  have hlen : (groupChunk w bits k).length = min 8 (w - 8 * k) := by
    rw [groupChunk, List.length_take, List.length_drop]
    omega
  apply List.ext_getElem?
  intro t
  show (tabulate (min 8 (w - 8 * k)) fun t => (packBits (groupChunk w bits k)).getLsbD (7 - t))[t]? = _
  rw [tabulate_getElem?]
  split
  next ht =>
    rw [packBits_getLsbD _ t (by omega), List.getD_eq_getElem _ _ (by omega), List.getElem?_eq_getElem (by omega)]
  next ht => rw [List.getElem?_eq_none (by omega)]

/-- The chunks of the first m groups are the first bits of the lane. -/
theorem flatMap_groupChunk (w : Nat) (bits : List Bool) (m : Nat) :
    (List.range m).flatMap (groupChunk w bits) = bits.take (min (8 * m) w) := by
  induction m with
  | zero => simp
  | succ m ih =>
    rw [List.range_succ, List.flatMap_append, ih, List.flatMap_singleton, groupChunk]
    rcases Nat.lt_or_ge w (8 * m) with h | h
    · rw [show min 8 (w - 8 * m) = 0 by omega, List.take_zero, List.append_nil]
      congr 1
      omega
    · rw [show min (8 * m) w = 8 * m by omega, ← List.take_add]
      congr 1
      omega

/-- The groups of a lane carry its first W bits, in time order. -/
theorem groupsOf_flatMap_groupBits (c : Nat) {w : Nat} {bits : List Bool} (hw : w ≤ bits.length) :
    (groupsOf c w bits).flatMap groupBits = bits.take w := by
  have chunks : ∀ k, groupBits (groupAt c w bits k) = groupChunk w bits k := groupBits_groupAt c hw
  have hcover : min (8 * ceilDiv w 8) w = w := by
    have : ¬ceilDiv w 8 < ceilDiv w 8 := lt_irrefl _
    rw [lt_ceilDiv_iff] at this
    omega
  rw [groupsOf_eq, List.flatMap_map]
  simp only [chunks]
  rw [flatMap_groupChunk, hcover]

/-- Settles O53: the chunks of the groups are W bits in a row, and only the last one can be cut. -/
theorem groupsCarryTheBits : Obligations.GroupsCarryTheBits := by
  intro c w bits hc hw
  refine ⟨groupsOf_flatMap_groupBits c hw, fun g hg => ?_, fun g hg => ?_⟩
  · obtain ⟨k, hk, rfl⟩ := exists_of_mem_groupsOf hg
    refine ⟨groupAt_ch_toNat hc w bits k, ?_, Nat.min_le_left _ _, groupAt_low c w bits k⟩
    show 1 ≤ min 8 (w - 8 * k)
    omega
  · obtain ⟨k, hk⟩ := List.mem_iff_getElem?.1 hg
    rw [List.getElem?_dropLast, groupsOf_length] at hk
    split at hk
    next hlast =>
      obtain ⟨-, rfl⟩ := groupsOf_getElem?_eq_some hk
      have hnext : 8 * (k + 1) < w := lt_ceilDiv_iff.1 (by omega)
      show min 8 (w - 8 * k) = 8
      omega
    next => cases hk

/-! ## What a frame step pushes -/

/-- The bits of a lane's frame. -/
def laneBits (s : State) (c : Nat) : List Bool := (laneFrame s.build s.wa s.ws (laneAt s c) (frameInput s c)).2

/-- The groups a frame step pushes: channel by channel (R300). -/
def pushedGroups (s : State) : List Group :=
  (List.range s.regs.chCount.toNat).flatMap fun c => groupsOf c (pushWidth s) (laneBits s c)

theorem frameStep_fifo_eq (s : State) : (frameStep s).fifo = s.fifo ++ pushedGroups s := by
  have perLane : ((activeLanes s).mapIdx fun c r => groupsOf c (pushWidth s) r.2)
      = (List.range s.regs.chCount.toNat).map fun c => groupsOf c (pushWidth s) (laneBits s c) := by
    apply List.ext_getElem?
    intro c
    rw [List.getElem?_mapIdx, activeLanes_getElem?, tabulate_getElem?]
    split <;> rfl
  rw [frameStep_fifo, perLane, pushedGroups, List.flatMap_def]

theorem exists_of_mem_pushedGroups {s : State} {g : Group} (h : g ∈ pushedGroups s) :
    ∃ c < s.regs.chCount.toNat, g ∈ groupsOf c (pushWidth s) (laneBits s c) := by
  obtain ⟨c, hc, hg⟩ := List.mem_flatMap.1 h
  exact ⟨c, List.mem_range.1 hc, hg⟩

/-- Every group of a channel has the channel's number: CH_COUNT has eight bits. -/
theorem ch_toNat_of_mem_groupsOf {s : State} {c w : Nat} {bits : List Bool} {g : Group}
    (hc : c < s.regs.chCount.toNat) (hg : g ∈ groupsOf c w bits) : g.ch.toNat = c := by
  obtain ⟨k, -, rfl⟩ := exists_of_mem_groupsOf hg
  exact groupAt_ch_toNat (hc.trans s.regs.chCount.isLt) w bits k

/-- The channels are pushed in order. -/
theorem pushedGroups_pairwise (s : State) : (pushedGroups s).Pairwise fun a b => a.ch.toNat ≤ b.ch.toNat := by
  refine List.pairwise_flatMap.2 ⟨fun c hc => ?_, ?_⟩
  · refine List.pairwise_of_forall_mem_list fun a ha b hb => ?_
    rw [ch_toNat_of_mem_groupsOf (List.mem_range.1 hc) ha, ch_toNat_of_mem_groupsOf (List.mem_range.1 hc) hb]
  · refine List.pairwise_lt_range.imp_of_mem fun {c d} hc hd hlt a ha b hb => ?_
    rw [ch_toNat_of_mem_groupsOf (List.mem_range.1 hc) ha, ch_toNat_of_mem_groupsOf (List.mem_range.1 hd) hb]
    exact hlt.le

/-- A sum of lists of which only one is not empty. -/
theorem flatMap_range_eq_single {α : Type} {f : Nat → List α} {c : Nat} :
    ∀ {n : Nat}, c < n → (∀ a < n, a ≠ c → f a = []) → (List.range n).flatMap f = f c
  | 0, hc, _ => absurd hc (Nat.not_lt_zero c)
  | n + 1, hc, h => by
    rw [List.range_succ, List.flatMap_append, List.flatMap_singleton]
    rcases Nat.lt_or_ge c n with hlt | hge
    · rw [flatMap_range_eq_single hlt fun a ha => h a (by omega), h n (by omega) (by omega), List.append_nil]
    · obtain rfl : c = n := by omega
      rw [List.flatMap_eq_nil_iff.2 fun a ha => h a (by have := List.mem_range.1 ha; omega)
        (List.mem_range.1 ha).ne, List.nil_append]

/-- The groups of one channel among those pushed. -/
theorem pushedGroups_filter {s : State} {c : Nat} (hc : c < s.regs.chCount.toNat) :
    ((pushedGroups s).filter fun g => g.ch.toNat = c) = groupsOf c (pushWidth s) (laneBits s c) := by
  rw [pushedGroups, List.filter_flatMap, flatMap_range_eq_single hc fun a ha hne => ?_]
  · refine List.filter_eq_self.2 fun g hg => decide_eq_true (ch_toNat_of_mem_groupsOf hc hg)
  · refine List.filter_eq_nil_iff.2 fun g hg => ?_
    rw [ch_toNat_of_mem_groupsOf ha hg, decide_eq_true_eq]
    exact hne

theorem pushWidth_of_first {s : State} (h : s.fsr.frameIdx = 0) : pushWidth s = 0 := if_pos h

/-- With nothing to push the FIFO stays. -/
theorem pushedGroups_of_pushWidth_eq_zero {s : State} (h : pushWidth s = 0) : pushedGroups s = [] := by
  refine List.flatMap_eq_nil_iff.2 fun c _ => ?_
  rw [h]
  rfl

/-- Settles O52: W is 0 in the first frame (R298). -/
theorem firstFrameIsDiscarded : Obligations.FirstFrameIsDiscarded := by
  intro s h
  have hw := pushWidth_of_first h
  refine ⟨?_, ?_, ?_⟩
  · rw [frameStep_fifo_eq, pushedGroups_of_pushWidth_eq_zero hw, List.append_nil]
  · rw [frameStep_fsr, hw]
    exact BitVec.add_zero _
  · rw [frameStep_fsr, h]
    rfl

/-- Settles O54: the groups of a channel are `groupsOf` of its bits and of W, which R299 says. -/
theorem frameStepPushesTheTruncatedBits : Obligations.FrameStepPushesTheTruncatedBits := by
  intro s hidx hout hbound w
  rw [Nat.mul_comm] at hout hbound
  have hw : pushWidth s = w := by
    rw [pushWidth, if_neg hidx, Nat.mul_comm s.build.l]
  refine ⟨pushedGroups s, frameStep_fifo_eq s, ?_, pushedGroups_pairwise s, fun g hg => ?_, fun c hc => ?_⟩
  · rw [outCount_frameStep hbound hout, hw]
  · obtain ⟨c, hc, hmem⟩ := exists_of_mem_pushedGroups hg
    rwa [ch_toNat_of_mem_groupsOf hc hmem]
  · have hlen : w ≤ (laneBits s c).length := by
      rw [laneBits, (laneFrame_shape ..).1, ← hw]
      exact pushWidth_le s
    intro mine bits
    have hmine : mine = groupsOf c w (laneBits s c) := by rw [← hw]; exact pushedGroups_filter hc
    have hceil : mine.length = ceilDiv w 8 := by rw [hmine, groupsOf_length]
    refine ⟨by rw [hmine]; exact groupsOf_flatMap_groupBits c hlen, ?_, ?_, fun k g hg => ?_⟩
    · simp only [hceil, ceilDiv]
      omega
    · simp only [hceil, ceilDiv]
      omega
    · rw [hmine] at hg
      obtain ⟨hk, rfl⟩ := groupsOf_getElem?_eq_some hg
      refine ⟨rfl, ?_, groupAt_low c w _ k⟩
      rw [groupBits_groupAt c hlen, groupChunk, ← List.take_take, ← List.drop_take]
      rfl

/-- Lane c's frame is a function of its own lane, its own samples, the build and STATE (R305). -/
theorem laneFrame_congr {s t : State} {c : Nat} (hb : t.build = s.build) (hstate : t.fsr.state = s.fsr.state)
    (ha : t.wa = s.wa) (hs : t.ws = s.ws) (hl : t.lanes[c]? = s.lanes[c]?) (hf : t.frameBuf[c]? = s.frameBuf[c]?) :
    laneFrame t.build t.wa t.ws (laneAt t c) (frameInput t c)
      = laneFrame s.build s.wa s.ws (laneAt s c) (frameInput s c) := by
  simp only [laneAt, frameInput, List.getD_eq_getElem?_getD, hb, hstate, ha, hs, hl, hf]

/-- Settles O55: lane and groups are functions of that frame and of W, which CH_COUNT does not reach. -/
theorem channelsAreIndependent : Obligations.ChannelsAreIndependent := by
  intro s t c hb ha hs hf hd hqs hqt hcs hct _ _ hl hbuf
  have hframe := laneFrame_congr hb (by rw [hf]) ha hs hl hbuf
  have hw : pushWidth t = pushWidth s := by simp only [pushWidth, durationOf, hb, hf, hd]
  refine ⟨?_, ?_⟩
  · rw [frameStep_lane_of_active hct, frameStep_lane_of_active hcs, hframe]
  · rw [frameStep_fifo_eq, frameStep_fifo_eq, hqs, hqt, List.nil_append, List.nil_append, pushedGroups_filter hct,
      pushedGroups_filter hcs, hw, laneBits, laneBits, hframe]

theorem coreTurn_of_enabled {s : State} (pending : s.fsr.state = .resampling ∨ s.fsr.state = .draining)
    (hq : s.fifo = []) : coreTurn s = frameStep s :=
  if_pos (frameEnabled_iff.2 ⟨pending, hq⟩)

/-- A core turn in which a stream drains in its first frame. -/
theorem step_drains_first_frame {s t : State} {rest : List Turn} (hsched : s.schedule = .core :: rest)
    (hs : s.fsr.state = .draining) (hq : s.fifo = []) (hidx : s.fsr.frameIdx = 0) (h : step s = .next t) :
    t.fsr.state = .done ∧ t.fsr.outCount = s.fsr.outCount ∧ t.fsr.frameIdx = 1 ∧ t.fifo = [] := by
  have hmove := (step_of_core hsched).trans
    (congrArg Host.Outcome.next (coreTurn_of_enabled (s := { s with schedule := rest }) (.inr hs) hq))
  obtain rfl := Host.Outcome.next.inj (hmove.symm.trans h)
  obtain ⟨hfifo, hcount, hnext⟩ := firstFrameIsDiscarded { s with schedule := rest } hidx
  exact ⟨nextState_of_draining hs, hcount, hnext, hfifo.trans hq⟩

/-- START of an empty stream is accepted and goes straight to DRAINING (R306). -/
theorem exec_start_of_empty {s : State} (hb : s.fsr.state = .idle ∨ s.fsr.state = .done) (hq : s.fifo = [])
    (h1 : 1 ≤ s.regs.chCount.toNat) (h2 : s.regs.chCount.toNat ≤ s.build.cMax) (hd : s.regs.duration = 0) :
    exec .start s = .next { freshStream s .draining with response := none } := by
  have hbound : s.build.l * durationOf s ≤ 2 ^ 64 - 1 := by simp [durationOf, hd]
  rw [exec_start, hostWrite_of_ok (not_fault_of_between hb) (startStream_of_valid hb hq h1 h2 hbound), if_pos hd]

/-- Settles O57: the drain frame of an empty stream is its first frame, which pushes nothing. -/
theorem emptyStreamEndsAtOnce : Obligations.EmptyStreamEndsAtOnce := by
  intro s a b rest hsched hb hq h1 h2 hd ha hb'
  have started := (step_of_command (c := .start) hsched rfl rfl (decodeCommand_encodeCommand (c := .start) rfl)).trans
    (exec_start_of_empty (s := { s with schedule := .core :: rest }) hb hq h1 h2 hd)
  obtain rfl := Host.Outcome.next.inj (started.symm.trans ha)
  refine ⟨rfl, step_drains_first_frame (rest := rest) ?_ ?_ ?_ ?_ hb'⟩
  exacts [rfl, rfl, hq, rfl]

end Sys2Proof.Machine
end

section
/-! The arithmetic of R16: sums and products of finite values are rounded once, zeros, infinities and NaN follow the
IEEE rules. With it the facts about the shaper's integrators (R266) and its idle pattern. -/

namespace Sys2Proof.Machine

/-! ## Fields of a word under a change of sign -/

@[simp] theorem expField_negate (a : F32) : expField (negate a) = expField a := by
  have hmask : (0x80000000#32).extractLsb' 23 8 = 0#8 := by decide
  rw [expField_eq_toNat, expField_eq_toNat, negate, BitVec.extractLsb'_xor, hmask, BitVec.xor_zero]

@[simp] theorem fracField_negate (a : F32) : fracField (negate a) = fracField a := by
  have hmask : (0x80000000#32).extractLsb' 0 23 = 0#23 := by decide
  rw [fracField_eq_toNat, fracField_eq_toNat, negate, BitVec.extractLsb'_xor, hmask, BitVec.xor_zero]

@[simp] theorem signBit_negate (a : F32) : signBit (negate a) = !signBit a := by
  have hmask : (0x80000000#32).msb = true := by decide
  rw [signBit, signBit, negate, BitVec.msb_xor, hmask, Bool.xor_true]

@[simp] theorem isFinite_negate (a : F32) : isFinite (negate a) = isFinite a := by
  rw [isFinite, isFinite, expField_negate]

@[simp] theorem isNaN_negate (a : F32) : isNaN (negate a) = isNaN a := by
  rw [isNaN, isNaN, expField_negate, fracField_negate]

@[simp] theorem isInf_negate (a : F32) : isInf (negate a) = isInf a := by
  rw [isInf, isInf, expField_negate, fracField_negate]

@[simp] theorem magnitude_negate (a : F32) : magnitude (negate a) = magnitude a := by
  rw [magnitude, magnitude, expField_negate, fracField_negate]

@[simp] theorem scaled_negate (a : F32) : scaled (negate a) = -scaled a := by
  rw [scaled_eq_signedInt, scaled_eq_signedInt, signBit_negate, magnitude_negate]
  cases signBit a <;> simp [signedInt]

theorem valueOf_negate (a : F32) : valueOf (negate a) = -valueOf a := by
  rw [valueOf, valueOf, scaled_negate, Int.cast_neg, neg_div]

/-! ## Zeros -/

theorem isInf_eq_false_of_isFinite {a : F32} (h : isFinite a = true) : isInf a = false := by
  rw [isInf, beq_eq_false_iff_ne.2 (bne_iff_ne.1 h), Bool.false_and]

/-- A zero is determined by its sign. -/
theorem eq_zeroOf_of_magnitude_eq_zero {a : F32} (h : magnitude a = 0) : a = zeroOf (signBit a) := by
  rw [magnitude] at h
  split at h
  next hexp =>
    rw [expField] at hexp
    rw [fracField] at h
    have ha := a.isLt
    apply BitVec.eq_of_toNat_eq
    rw [signBit_eq_decide]
    by_cases hs : 2 ^ 31 ≤ a.toNat
    · rw [decide_eq_true hs]
      change a.toNat = 0x80000000
      omega
    · rw [decide_eq_false hs]
      change a.toNat = 0
      omega
  next => exact absurd h (by positivity)

theorem signBit_zeroOf (neg : Bool) : signBit (zeroOf neg) = neg := by cases neg <;> decide

/-- Rounding zero gives the zero of the sign. -/
theorem roundScaled_zero (neg : Bool) : roundScaled neg 0 0 = zeroOf neg ∧ roundScaled neg 0 149 = zeroOf neg := by
  cases neg <;> decide

theorem scaled_eq_zero_iff (a : F32) : scaled a = 0 ↔ magnitude a = 0 := by
  rw [← abs_eq_zero, abs_scaled, Nat.cast_eq_zero]

theorem valueOf_eq_zero_iff (a : F32) : valueOf a = 0 ↔ magnitude a = 0 := by
  rw [valueOf, div_eq_zero_iff, or_iff_left (by positivity), Int.cast_eq_zero, scaled_eq_zero_iff]

/-- An integer is its sign and its magnitude. -/
theorem signedInt_natAbs (z : ℤ) : signedInt (decide (z < 0)) z.natAbs = z := by
  rw [signedInt]
  by_cases h : z < 0
  · rw [if_pos (decide_eq_true h)]
    omega
  · rw [if_neg (by simpa using h)]
    omega

/-! ## Sums -/

/-- A sum of finite values is the exact integer sum, rounded once. -/
theorem fadd_of_isFinite {a b : F32} (ha : isFinite a = true) (hb : isFinite b = true) :
    fadd a b = if scaled a + scaled b = 0 then zeroOf (signBit a && signBit b)
      else roundScaled (decide (scaled a + scaled b < 0)) (scaled a + scaled b).natAbs 0 := by
  simp [fadd, isNaN_eq_false_of_isFinite ha, isNaN_eq_false_of_isFinite hb, isInf_eq_false_of_isFinite ha,
    isInf_eq_false_of_isFinite hb]

theorem valueOf_add (a b : F32) : valueOf a + valueOf b = ((scaled a + scaled b : ℤ) : ℝ) / 2 ^ 149 := by
  rw [valueOf, valueOf, ← add_div, Int.cast_add]

theorem fadd_isRne {a b : F32} (ha : isFinite a = true) (hb : isFinite b = true) :
    IsRne (valueOf a + valueOf b) (fadd a b) := by
  rw [fadd_of_isFinite ha hb, valueOf_add]
  split
  next hz =>
    rw [hz, ← (roundScaled_zero (signBit a && signBit b)).1]
    have h := roundScaled_isRne (signBit a && signBit b) 0 0
    simpa [signedInt] using h
  next hz =>
    have h := roundScaled_isRne (decide (scaled a + scaled b < 0)) (scaled a + scaled b).natAbs 0
    rwa [signedInt_natAbs] at h

/-- The difference is the sum with the sign inverted, and so is its value. -/
theorem fsub_isRne {a b : F32} (ha : isFinite a = true) (hb : isFinite b = true) :
    IsRne (valueOf a - valueOf b) (fsub a b) := by
  rw [sub_eq_add_neg, ← valueOf_negate]
  exact fadd_isRne ha (by rwa [isFinite_negate])

/-- Two negative addends cancel only if both are -0. -/
theorem eq_negZero_of_scaled_add_eq_zero {a b : F32} (hz : scaled a + scaled b = 0) (ha : signBit a = true)
    (hb : signBit b = true) : a = 0x80000000#32 ∧ b = 0x80000000#32 := by
  rw [scaled_eq_signedInt, scaled_eq_signedInt, ha, hb] at hz
  simp only [signedInt, if_true] at hz
  have hzeroA := eq_zeroOf_of_magnitude_eq_zero (a := a) (by omega)
  have hzeroB := eq_zeroOf_of_magnitude_eq_zero (a := b) (by omega)
  rw [ha] at hzeroA
  rw [hb] at hzeroB
  exact ⟨hzeroA, hzeroB⟩

theorem fadd_of_sum_eq_zero {a b : F32} (ha : isFinite a = true) (hb : isFinite b = true)
    (hz : scaled a + scaled b = 0) :
    fadd a b = if a = 0x80000000#32 ∧ b = 0x80000000#32 then 0x80000000#32 else 0x00000000#32 := by
  rw [fadd_of_isFinite ha hb, if_pos hz]
  by_cases hs : signBit a = true ∧ signBit b = true
  · rw [if_pos (eq_negZero_of_scaled_add_eq_zero hz hs.1 hs.2), hs.1, hs.2]
    rfl
  · have hne : ¬(a = 0x80000000#32 ∧ b = 0x80000000#32) := by
      rintro ⟨rfl, rfl⟩
      exact hs ⟨by decide, by decide⟩
    rw [if_neg hne, Bool.eq_false_iff.2 (mt Bool.and_eq_true_iff.1 hs)]
    rfl

/-- Settles O36: the exact integer sum is rounded by `roundScaled`, and the exact zero by the rule of its signs. -/
theorem sumsAreCorrectlyRounded : Obligations.SumsAreCorrectlyRounded := by
  intro a b ha hb
  refine ⟨fadd_isRne ha hb, fsub_isRne ha hb, fun h => fadd_of_sum_eq_zero ha hb ?_⟩
  rw [valueOf_add, div_eq_zero_iff, or_iff_left (by positivity)] at h
  exact_mod_cast h

/-! ## Products -/

/-- A product of finite values is the exact integer product, rounded once. -/
theorem fmul_of_isFinite {a b : F32} (ha : isFinite a = true) (hb : isFinite b = true) :
    fmul a b = roundScaled (signBit a != signBit b) (magnitude a * magnitude b) 149 := by
  simp [fmul, isNaN_eq_false_of_isFinite ha, isNaN_eq_false_of_isFinite hb, isInf_eq_false_of_isFinite ha,
    isInf_eq_false_of_isFinite hb]

theorem signedInt_mul (p q : Bool) (x y : ℤ) : signedInt p x * signedInt q y = signedInt (p != q) (x * y) := by
  cases p <;> cases q <;> simp [signedInt]

theorem valueOf_mul (a b : F32) :
    valueOf a * valueOf b
      = (signedInt (signBit a != signBit b) ((magnitude a * magnitude b : ℕ) : ℤ) : ℝ) / 2 ^ (149 + 149) := by
  rw [Nat.cast_mul, ← signedInt_mul, ← scaled_eq_signedInt, ← scaled_eq_signedInt, valueOf, valueOf, div_mul_div_comm,
    ← pow_add, Int.cast_mul]

/-- Settles O37: the exact integer product is rounded by `roundScaled` with the product's sign. -/
theorem productsAreCorrectlyRounded : Obligations.ProductsAreCorrectlyRounded := by
  intro a b ha hb
  have hpos : (0 : ℝ) ≤ 2 ^ (149 + 149) := by positivity
  rw [fmul_of_isFinite ha hb]
  refine ⟨?_, ⟨fun h => ?_, fun h => ?_⟩, fun h => ?_⟩
  · rw [valueOf_mul]
    exact roundScaled_isRne _ _ _
  · rw [valueOf_mul] at h
    rw [signBit_roundScaled, eq_true_of_signedInt_div_neg hpos h]
  · rw [valueOf_mul] at h
    rw [signBit_roundScaled, eq_false_of_signedInt_div_pos hpos h]
  · rw [mul_eq_zero, valueOf_eq_zero_iff, valueOf_eq_zero_iff, ← mul_eq_zero] at h
    rw [h, (roundScaled_zero _).2]
    by_cases hs : signBit a = signBit b
    · rw [if_pos hs, bne_eq_false_iff_eq.2 hs]
      rfl
    · rw [if_neg hs, bne_iff_ne.2 hs]
      rfl

/-! ## Infinities and NaN -/

theorem isNaN_coreNaN : isNaN coreNaN = true := by decide

theorem fadd_of_isNaN {a b : F32} (h : isNaN a = true ∨ isNaN b = true) : fadd a b = coreNaN :=
  if_pos (Bool.or_eq_true_iff.2 h)

theorem fmul_of_isNaN {a b : F32} (h : isNaN a = true ∨ isNaN b = true) : fmul a b = coreNaN :=
  if_pos (Bool.or_eq_true_iff.2 h)

/-- A finite addend leaves an infinity, on either side. -/
theorem fadd_of_isInf_of_isFinite {a b : F32} (ha : isInf a = true) (hb : isFinite b = true) :
    fadd a b = a ∧ fadd b a = a := by
  simp [fadd, isNaN_eq_false_of_isInf ha, isNaN_eq_false_of_isFinite hb, ha, isInf_eq_false_of_isFinite hb]

/-- Two infinities have a sum only if their signs agree. -/
theorem fadd_of_isInf {a b : F32} (ha : isInf a = true) (hb : isInf b = true) :
    fadd a b = if signBit a = signBit b then a else coreNaN := by
  simp [fadd, isNaN_eq_false_of_isInf ha, isNaN_eq_false_of_isInf hb, ha, hb]

theorem isInf_sum {a b : F32} (ha : isInf a = true) (hb : isInf b = true) :
    (signBit a = signBit b → fadd a b = a) ∧ (signBit a ≠ signBit b → isNaN (fadd a b) = true) := by
  rw [fadd_of_isInf ha hb]
  refine ⟨fun hs => if_pos hs, fun hs => ?_⟩
  rw [if_neg hs]
  exact isNaN_coreNaN

theorem signBit_infinity (neg : Bool) : signBit (infinity neg) = neg := by cases neg <;> decide

/-- An infinity times a zero is a NaN, times anything else an infinity of the product's sign. -/
theorem fmul_of_isInf {a b : F32} (ha : isInf a = true) (hb : isNaN b = false) :
    fmul a b = if magnitude b = 0 then coreNaN else infinity (signBit a != signBit b) := by
  simp [fmul, isNaN_eq_false_of_isInf ha, hb, ha, magnitude_ne_zero_of_isInf ha]

theorem fmul_comm (a b : F32) : fmul a b = fmul b a := by
  have hsign : (signBit a != signBit b) = (signBit b != signBit a) := bne_comm
  simp only [fmul, hsign, Bool.or_comm (isNaN a), Bool.or_comm (isInf a), Bool.or_comm (decide (magnitude a = 0)),
    Nat.mul_comm (magnitude a)]

/-- Settles O38, rule by rule; a difference is the sum with the sign inverted. -/
theorem specialValuesFollowTheIeeeRules : Obligations.SpecialValuesFollowTheIeeeRules := by
  intro a b
  refine ⟨fun h => ?_, fun ha hb => ?_, fun ha hb => ?_, fun ha hb => ?_⟩
  · have hneg : isNaN a = true ∨ isNaN (negate b) = true := by rwa [isNaN_negate]
    rw [fadd_of_isNaN h, fmul_of_isNaN h, fsub, fadd_of_isNaN hneg]
    exact ⟨isNaN_coreNaN, isNaN_coreNaN, isNaN_coreNaN⟩
  · obtain ⟨hleft, hright⟩ := fadd_of_isInf_of_isFinite ha hb
    obtain ⟨hsub, -⟩ := fadd_of_isInf_of_isFinite (b := negate b) ha (by rwa [isFinite_negate])
    exact ⟨hleft, hright, hsub⟩
  · obtain ⟨sameSum, otherSum⟩ := isInf_sum ha hb
    obtain ⟨sameSub, otherSub⟩ := isInf_sum (b := negate b) ha (by rwa [isInf_negate])
    rw [signBit_negate] at sameSub otherSub
    refine ⟨fun hs => ⟨sameSum hs, otherSub ?_⟩, fun hs => ⟨otherSum hs, sameSub ?_⟩⟩
    · simp [hs]
    · exact Bool.eq_not_of_ne hs
  · rw [fmul_comm b a, fmul_of_isInf ha hb]
    refine ⟨fun hz => ?_, fun hz => ?_⟩
    · rw [if_pos hz]
      exact ⟨isNaN_coreNaN, isNaN_coreNaN⟩
    · rw [if_neg hz]
      exact ⟨isInf_infinity _, signBit_infinity _, rfl⟩

/-! ## The shaper's integrators -/

/-- A nonzero multiple of 2^-149 does not round to zero: there the quantum of subnormals is exact. -/
theorem magnitude_roundScaled_ne_zero (neg : Bool) {mag : ℕ} (h : mag ≠ 0) : magnitude (roundScaled neg mag 0) ≠ 0 := by
  rcases Nat.lt_or_ge (roundedBits mag 0) 0x7F800000 with hlt | hge
  · have hsig : significand mag 0 ≠ 0 := by
      rcases Nat.eq_zero_or_pos (lastPlace mag 0) with hlast | hlast
      · have hdrop : dropBits mag 0 = 0 := by rw [dropBits_eq, hlast]
        have hnear := significand_near mag 0
        rw [hdrop] at hnear
        omega
      · have := le_significand hlast
        omega
    rw [roundScaled_of_lt neg hlt, signedWord_magnitude neg (by omega), magnitudeOfBits_roundedBits]
    positivity
  · rw [roundScaled_of_ge neg hge]
    exact magnitude_ne_zero_of_isInf (isInf_infinity neg)

/-- A sum with a nonzero finite value is never -0: either it is not zero, or the addends have opposite signs. -/
theorem fadd_ne_negZero {a b : F32} (hb : isFinite b = true) (hb0 : magnitude b ≠ 0) : fadd a b ≠ 0x80000000#32 := by
  have hzero : magnitude 0x80000000#32 = 0 := by decide
  intro h
  by_cases ha : isFinite a = true
  · rw [fadd_of_isFinite ha hb] at h
    split at h
    next hz =>
      have hsigns : (signBit a && signBit b) = true := by
        rw [← signBit_zeroOf (signBit a && signBit b), h]
        decide
      obtain ⟨hsa, hsb⟩ := Bool.and_eq_true_iff.1 hsigns
      rw [(eq_negZero_of_scaled_add_eq_zero hz hsa hsb).2] at hb0
      exact hb0 hzero
    next hz =>
      have hne := magnitude_roundScaled_ne_zero (decide (scaled a + scaled b < 0)) (Int.natAbs_ne_zero.2 hz)
      rw [h] at hne
      exact hne hzero
  · by_cases hnan : isNaN a = true
    · rw [fadd_of_isNaN (.inl hnan)] at h
      exact absurd h (by decide)
    · have hinf : isInf a = true := by
        simp only [isFinite, isNaN, isInf, bne_iff_ne, Bool.and_eq_true, beq_iff_eq, not_and, not_not] at *
        exact ⟨ha, hnan ha⟩
      rw [(fadd_of_isInf_of_isFinite hinf hb).1] at h
      rw [h] at hinf
      exact absurd hinf (by decide)

theorem fsub_unitOf_ne_negZero (a : F32) (plus : Bool) : fsub a (unitOf plus) ≠ 0x80000000#32 :=
  fadd_ne_negZero (by cases plus <;> decide) (by cases plus <;> decide)

/-- Settles O39: each new integrator is a difference with +1 or -1. -/
theorem shaperNeverMakesMinusZero : Obligations.ShaperNeverMakesMinusZero :=
  fun l _ => ⟨fsub_unitOf_ne_negZero _ l.z, fsub_unitOf_ne_negZero _ l.z⟩

/-! ## The idle pattern -/

/-- A lane with its three shaper registers given. -/
def shaperLane (l : Lane) (z : Bool) (z1 z2 : F32) : Lane := { l with z := z, z1 := z1, z2 := z2 }

/-- One shaper step in numbers. -/
theorem nsStep_shaperLane {l : Lane} {z zn : Bool} {z1 z2 x z1n z2n : F32}
    (h2 : fsub (fadd z2 x) (unitOf z) = z2n) (h1 : fsub (fadd z1 z2n) (unitOf z) = z1n) (hz : geZero z1n = zn) :
    nsStep (shaperLane l z z1 z2) x = (shaperLane l zn z1n z2n, zn) := by
  subst h2 h1 hz
  rfl

/-- The four steps of the idle pattern, with zero input from the reset values. -/
theorem idle_steps (l : Lane) :
    nsStep (shaperLane l true 0 0) 0 = (shaperLane l false 0xC0000000#32 0xBF800000#32, false)
      ∧ nsStep (shaperLane l false 0xC0000000#32 0xBF800000#32) 0 = (shaperLane l false 0xBF800000#32 0, false)
      ∧ nsStep (shaperLane l false 0xBF800000#32 0) 0 = (shaperLane l true 0x3F800000#32 0x3F800000#32, true)
      ∧ nsStep (shaperLane l true 0x3F800000#32 0x3F800000#32) 0 = (shaperLane l true 0 0, true) := by
  refine ⟨nsStep_shaperLane ?_ ?_ ?_, nsStep_shaperLane ?_ ?_ ?_, nsStep_shaperLane ?_ ?_ ?_,
    nsStep_shaperLane ?_ ?_ ?_⟩
  all_goals decide

/-- Four zero samples bring the lane back to its reset values. -/
theorem idle_period (l : Lane) :
    nsRun (shaperLane l true 0 0) (List.replicate 4 0) = (shaperLane l true 0 0, [false, false, true, true]) := by
  obtain ⟨first, second, third, fourth⟩ := idle_steps l
  simp only [List.replicate, nsRun, first, second, third, fourth]

/-- The pattern repeats for ever. -/
theorem idle_periods (l : Lane) (k : Nat) :
    nsRun (shaperLane l true 0 0) (List.replicate (4 * k) 0)
      = (shaperLane l true 0 0, (List.replicate k [false, false, true, true]).flatten) := by
  induction k with
  | zero => rfl
  | succ k ih =>
    rw [Nat.mul_succ, List.replicate_add, nsRun_append, ih, idle_period, List.replicate_succ', List.flatten_append,
      List.flatten_singleton]

/-- So after whole periods and some samples the lane is where those samples alone bring it. -/
theorem idle_run_add (l : Lane) (k j : Nat) :
    (nsRun (shaperLane l true 0 0) (List.replicate (4 * k + j) 0)).1
      = (nsRun (shaperLane l true 0 0) (List.replicate j 0)).1 := by
  rw [List.replicate_add, nsRun_append, idle_periods]

/-- Settles O41: whole periods by induction, the three states within one by its steps. -/
theorem idleLaneRepeatsItsPattern : Obligations.IdleLaneRepeatsItsPattern := by
  intro l k hz h1 h2
  have hl : l = shaperLane l true 0 0 := by
    cases l
    subst hz h1 h2
    rfl
  obtain ⟨first, second, third, -⟩ := idle_steps l
  refine ⟨?_, ?_, ?_, ?_⟩
  · rw [hl]
    exact idle_periods l k
  all_goals
    rw [hl, idle_run_add]
    simp only [List.replicate, nsRun, first, second, third]
    rfl

end Sys2Proof.Machine
end

section
/-! The exact map of the resampler (R207 to R209): its sums of phases, and the polyphase form of R211 they add up to. -/

namespace Sys2Proof.Machine

/-! ## Phases -/

/-- The phase of t steps of a circle of P steps. -/
noncomputable def phase (P : ℕ) (t : ℤ) : ℂ := Complex.exp (2 * Real.pi * Complex.I * t / P)

theorem phase_add (P : ℕ) (s t : ℤ) : phase P (s + t) = phase P s * phase P t := by
  rw [phase, phase, phase, ← Complex.exp_add]
  congr 1
  push_cast
  ring

/-- Whole turns do not count. -/
theorem phase_of_dvd {P : ℕ} (hP : 0 < P) {t : ℤ} (h : (P : ℤ) ∣ t) : phase P t = 1 := by
  obtain ⟨k, rfl⟩ := h
  have hPc : (P : ℂ) ≠ 0 := Nat.cast_ne_zero.2 hP.ne'
  rw [← Complex.exp_int_mul_two_pi_mul_I k, phase]
  congr 1
  push_cast
  field_simp

theorem phase_congr {P : ℕ} (hP : 0 < P) {s t : ℤ} (h : (P : ℤ) ∣ s - t) : phase P s = phase P t := by
  rw [← sub_add_cancel s t, phase_add, phase_of_dvd hP h, one_mul]

/-- Opposite phases are twice a cosine. -/
theorem phase_add_phase_neg (P : ℕ) (t : ℤ) :
    phase P t + phase P (-t) = ((2 * Real.cos (2 * Real.pi * t / P) : ℝ) : ℂ) := by
  push_cast
  rw [Complex.two_cos, phase, phase]
  congr 2 <;> push_cast <;> ring

/-- Half a turn is -1. -/
theorem phase_half_turns {n l : ℕ} (hn : 1 ≤ n) (hl : 1 ≤ l) (m i : ℕ) :
    phase (2 * n * l) (n * l * (m - i)) = (-1) ^ (m + i) := by
  have hnc : (n : ℂ) ≠ 0 := Nat.cast_ne_zero.2 (by omega)
  have hlc : (l : ℂ) ≠ 0 := Nat.cast_ne_zero.2 (by omega)
  have hsplit : (2 * Real.pi * Complex.I * ((n * l * (m - i) : ℤ) : ℂ) / ((2 * n * l : ℕ) : ℂ))
      = m * (Real.pi * Complex.I) - i * (Real.pi * Complex.I) := by
    push_cast
    field_simp
  have hinv : ((-1 : ℂ) ^ i)⁻¹ = (-1) ^ i := by rw [← inv_pow, inv_neg_one]
  rw [phase, hsplit, Complex.exp_sub, Complex.exp_nat_mul, Complex.exp_nat_mul, Complex.exp_pi_mul_I, div_eq_mul_inv,
    hinv, pow_add]

/-! ## The transforms as sums of phases -/

/-- The forward transform of R207 at any whole bin number. -/
noncomputable def dftAt (n l : ℕ) (b : List F32) (k : ℤ) : ℂ :=
  ∑ i ∈ Finset.range (2 * n), (valueOf (b.getD i 0) : ℂ) * phase (2 * n * l) (-(k * i * l))

theorem dftBin_eq {n l : ℕ} (hn : 1 ≤ n) (hl : 1 ≤ l) (b : List F32) (k : ℕ) : dftBin n b k = dftAt n l b k := by
  have hnc : (n : ℂ) ≠ 0 := Nat.cast_ne_zero.2 (by omega)
  have hlc : (l : ℂ) ≠ 0 := Nat.cast_ne_zero.2 (by omega)
  refine Finset.sum_congr rfl fun i _ => ?_
  rw [phase]
  congr 2
  push_cast
  field_simp

/-- Bins count modulo 2N. -/
theorem dftAt_congr {n l : ℕ} (hn : 1 ≤ n) (hl : 1 ≤ l) (b : List F32) {j k : ℤ} (h : j = k + 2 * n) :
    dftAt n l b j = dftAt n l b k := by
  refine Finset.sum_congr rfl fun i _ => ?_
  rw [phase_congr (by positivity) ⟨-i, ?_⟩]
  rw [h]
  push_cast
  ring

theorem exp_eq_phase (n l j m : ℕ) :
    Complex.exp (2 * Real.pi * Complex.I * j * m / (2 * n * l)) = phase (2 * n * l) (j * m) := by
  rw [phase]
  congr 1
  push_cast
  ring

/-- R208 by its three ranges of bins, which exclude each other. -/
theorem enlargedBin_eq {n l : ℕ} (hn : 1 ≤ n) (hl : 1 ≤ l) (b : List F32) {j : ℕ} (hj : j < 2 * n * l) :
    enlargedBin n l b j = (if j < n then dftAt n l b j else 0) + (if j = n * l then dftAt n l b n else 0)
      + (if 2 * n * l - n < j then dftAt n l b (j - (2 * n * l : ℕ)) else 0) := by
  have hnl : n ≤ n * l := Nat.le_mul_of_pos_right n hl
  have hP : 2 * n * l = 2 * (n * l) := Nat.mul_assoc 2 n l
  rw [enlargedBin]
  -- no bin is in two ranges: those combinations contradict the bounds
  split_ifs <;> try omega
  · rw [dftBin_eq hn hl, add_zero, add_zero]
  · rw [dftBin_eq hn hl, zero_add, add_zero]
  · rw [dftBin_eq hn hl, zero_add, zero_add]
    refine dftAt_congr hn hl b ?_
    omega
  · rw [add_zero, add_zero]

/-- R209 as the sum over the three ranges of R208. -/
theorem transformOutput_eq {n l : ℕ} (hn : 1 ≤ n) (hl : 1 ≤ l) (b : List F32) (m : ℕ) :
    transformOutput n l b m
      = ∑ k ∈ Finset.range n, dftAt n l b k * phase (2 * n * l) (k * m)
        + dftAt n l b n * phase (2 * n * l) (n * l * m)
        + ∑ k ∈ Finset.Ico 1 n, dftAt n l b (-k) * phase (2 * n * l) (-(k * m)) := by
  have hnl : n ≤ n * l := Nat.le_mul_of_pos_right n hl
  have hP : 2 * n * l = 2 * (n * l) := Nat.mul_assoc 2 n l
  have hterm : ∀ j ∈ Finset.range (2 * n * l),
      enlargedBin n l b j * Complex.exp (2 * Real.pi * Complex.I * j * m / (2 * n * l))
        = (if j < n then dftAt n l b j * phase (2 * n * l) (j * m) else 0)
          + (if j = n * l then dftAt n l b n * phase (2 * n * l) (j * m) else 0)
          + (if 2 * n * l - n < j then dftAt n l b (j - (2 * n * l : ℕ)) * phase (2 * n * l) (j * m) else 0) := by
    intro j hj
    rw [enlargedBin_eq hn hl b (Finset.mem_range.1 hj), exp_eq_phase, add_mul, add_mul, ite_mul, ite_mul, ite_mul,
      zero_mul]
  rw [transformOutput, Finset.sum_congr rfl hterm, Finset.sum_add_distrib, Finset.sum_add_distrib]
  congr 1
  · congr 1
    · rw [← Finset.sum_filter]
      refine Finset.sum_congr ?_ fun _ _ => rfl
      ext j
      simp only [Finset.mem_filter, Finset.mem_range]
      omega
    · rw [Finset.sum_ite_eq_of_mem' _ _ _ (Finset.mem_range.2 (by omega))]
      push_cast
      rfl
  · rw [← Finset.sum_filter]
    -- the high bins j = P - k, counted by k
    refine Finset.sum_nbij' (fun j => 2 * n * l - j) (fun k => 2 * n * l - k) ?_ ?_ ?_ ?_ ?_
    · intro j hj
      rw [Finset.mem_filter, Finset.mem_range] at hj
      rw [Finset.mem_Ico]
      omega
    · intro k hk
      rw [Finset.mem_Ico] at hk
      rw [Finset.mem_filter, Finset.mem_range]
      omega
    · intro j hj
      rw [Finset.mem_filter, Finset.mem_range] at hj
      omega
    · intro k hk
      rw [Finset.mem_Ico] at hk
      omega
    · intro j hj
      rw [Finset.mem_filter, Finset.mem_range] at hj
      rw [Nat.cast_sub hj.1.le, neg_sub]
      congr 1
      refine phase_congr (by positivity) ⟨m, ?_⟩
      ring

/-! ## The polyphase form -/

/-- What one input contributes to one output: the phases of the three ranges are the kernel of R211. -/
theorem kernel_eq {n l : ℕ} (hn : 1 ≤ n) (hl : 1 ≤ l) (m i : ℕ) :
    ∑ k ∈ Finset.range n, phase (2 * n * l) (k * (m - i * l)) + phase (2 * n * l) (n * l * (m - i))
        + ∑ k ∈ Finset.Ico 1 n, phase (2 * n * l) (-(k * (m - i * l)))
      = ((kernelD n l ((m : ℤ) - i * l) + (-1) ^ (m + i) : ℝ) : ℂ) := by
  have hzero : phase (2 * n * l) ((0 : ℕ) * (m - i * l)) = 1 := by simp [phase]
  have hcos : ∀ k ∈ Finset.Ico 1 n,
      phase (2 * n * l) (k * (m - i * l)) + phase (2 * n * l) (-(k * (m - i * l)))
        = ((2 * Real.cos (2 * Real.pi * k * ((m : ℤ) - i * l : ℤ) / (2 * n * l)) : ℝ) : ℂ) := by
    intro k _
    rw [phase_add_phase_neg]
    congr 3
    push_cast
    ring
  rw [Finset.range_eq_Ico, Finset.sum_eq_sum_Ico_succ_bot hn, hzero, phase_half_turns hn hl, kernelD]
  calc _ = 1 + ∑ k ∈ Finset.Ico 1 n, (phase (2 * n * l) (k * (m - i * l)) + phase (2 * n * l) (-(k * (m - i * l))))
          + (-1) ^ (m + i) := by rw [Finset.sum_add_distrib]; ring
    _ = _ := by rw [Finset.sum_congr rfl hcos, ← Complex.ofReal_sum, ← Finset.mul_sum]; push_cast; ring

/-- A bin's contribution to an output, input by input. -/
theorem dftAt_mul_phase (n l : ℕ) (b : List F32) (k t : ℤ) :
    dftAt n l b k * phase (2 * n * l) t
      = ∑ i ∈ Finset.range (2 * n), (valueOf (b.getD i 0) : ℂ) * phase (2 * n * l) (t - k * i * l) := by
  rw [dftAt, Finset.sum_mul]
  refine Finset.sum_congr rfl fun i _ => ?_
  rw [mul_assoc, ← phase_add]
  congr 2
  ring

/-- Settles O42: with the sums over bins and inputs exchanged, each input meets its kernel. -/
theorem transformIsThePolyphaseForm : Obligations.TransformIsThePolyphaseForm := by
  intro n l b m hn hl _
  simp only [transformOutput_eq hn hl, dftAt_mul_phase]
  rw [Finset.sum_comm, Finset.sum_comm (s := Finset.Ico 1 n), ← Finset.sum_add_distrib, ← Finset.sum_add_distrib,
    polyphaseOutput, Complex.ofReal_sum]
  refine Finset.sum_congr rfl fun i _ => ?_
  rw [Complex.ofReal_mul, ← kernel_eq hn hl, ← Finset.mul_sum, ← Finset.mul_sum, ← mul_add, ← mul_add]
  congr 2
  · congr 1
    · refine Finset.sum_congr rfl fun k _ => congrArg _ ?_
      ring
    · refine congrArg _ ?_
      ring
  · refine Finset.sum_congr rfl fun k _ => congrArg _ ?_
    ring

/-! ## L = 1 -/

theorem phase_eq_zpow (P : ℕ) (t : ℤ) : phase P t = rootOf P ^ t := by
  rw [rootOf, ← Complex.exp_int_mul, phase]
  congr 1
  ring

/-- The phases of all the multiples of a step cancel, unless the step is a whole turn. -/
theorem sum_phase {P : ℕ} (hP : 0 < P) (d : ℤ) :
    ∑ j ∈ Finset.range P, phase P (j * d) = if (P : ℤ) ∣ d then (P : ℂ) else 0 := by
  have hpow : ∀ j : ℕ, phase P (j * d) = phase P d ^ j := by
    intro j
    rw [phase_eq_zpow, phase_eq_zpow, mul_comm, zpow_mul, zpow_natCast]
  have hone : phase P d = 1 ↔ (P : ℤ) ∣ d := by
    rw [phase_eq_zpow]
    exact (rootOf_primitive hP).zpow_eq_one_iff_dvd d
  simp only [hpow]
  split
  next h => simp [hone.2 h]
  next h =>
    have hwhole : phase P d ^ P = 1 := by
      rw [← hpow]
      exact phase_of_dvd hP (dvd_mul_right _ _)
    have hgeom := mul_geom_sum (phase P d) P
    rw [hwhole, sub_self, mul_eq_zero] at hgeom
    exact hgeom.resolve_left (sub_ne_zero.2 (mt hone.1 h))

/-- With L = 1 nothing is enlarged: the bins are those of the forward transform. -/
theorem enlargedBin_of_rate_one {n : ℕ} (b : List F32) {j : ℕ} (hj : j < 2 * n * 1) :
    enlargedBin n 1 b j = dftBin n b j := by
  rw [enlargedBin]
  split_ifs with hlow hnyquist hhigh
  · rfl
  · rw [hnyquist, Nat.mul_one]
  · congr 1
    omega
  · omega

/-- Settles O43: the inverse transform of the forward one, by the orthogonality of phases. -/
theorem rateOneMapOnlyScales : Obligations.RateOneMapOnlyScales := by
  intro n b m hn hm
  have hterm : ∀ j ∈ Finset.range (2 * n * 1),
      enlargedBin n 1 b j * Complex.exp (2 * Real.pi * Complex.I * j * m / (2 * n * (1 : ℕ)))
        = ∑ i ∈ Finset.range (2 * n), (valueOf (b.getD i 0) : ℂ) * phase (2 * n * 1) (j * (m - i)) := by
    intro j hj
    rw [enlargedBin_of_rate_one b (Finset.mem_range.1 hj), exp_eq_phase, dftBin_eq hn le_rfl, dftAt_mul_phase]
    refine Finset.sum_congr rfl fun i _ => congrArg _ (congrArg _ ?_)
    push_cast
    ring
  have hself : ∀ i ∈ Finset.range (2 * n), ((2 * n * 1 : ℕ) : ℤ) ∣ (m : ℤ) - i ↔ i = m := by
    intro i hi
    have hi := Finset.mem_range.1 hi
    refine ⟨fun h => ?_, fun h => by simp [h]⟩
    have habs := Int.eq_zero_of_abs_lt_dvd h (by rw [abs_lt]; omega)
    omega
  rw [transformOutput, Finset.sum_congr rfl hterm, Finset.sum_comm]
  simp only [← Finset.mul_sum, sum_phase (by omega : 0 < 2 * n * 1)]
  rw [Finset.sum_congr rfl fun i hi => by rw [if_congr (hself i hi) rfl rfl]]
  simp only [mul_ite, mul_zero]
  rw [Finset.sum_ite_eq_of_mem' _ _ _ (Finset.mem_range.2 hm)]
  push_cast
  ring

end Sys2Proof.Machine
end

section
/-! PRF_IDEAL (R214): the zero test is sound, the coefficients are those of the polyphase form, and the search rounds
their sum. -/

namespace Sys2Proof.Machine

/-! ## The zero test is sound -/

/-- The coefficients of which `cosSumIsZero` asks: index j and its mirror image added up. -/
def mirrored (c : Coeffs) : Coeffs := tabulate c.length fun j => c.getD j 0 + c.getD ((c.length - j) % c.length) 0

theorem cosSumIsZero_eq (c : Coeffs) : cosSumIsZero c = vanishesAtRoot (mirrored c) := rfl

theorem mirrored_length (c : Coeffs) : (mirrored c).length = c.length := tabulate_length _ _

/-- The mirror image of an index, counted modulo P. -/
theorem mirror_mirror {P j : ℕ} (hj : j < P) : (P - (P - j) % P) % P = j := by
  rcases Nat.eq_zero_or_pos j with rfl | h0
  · simp
  · rw [Nat.mod_eq_of_lt (by omega : P - j < P), Nat.mod_eq_of_lt (by omega)]
    omega

/-- At a primitive root the mirrored polynomial is twice the cosine sum. -/
theorem coeffEval_mirrored {c : Coeffs} (hP : 0 < c.length) :
    coeffEval (mirrored c) (rootOf c.length) = ((2 * cosValue c : ℝ) : ℂ) := by
  have hlt : ∀ j, (c.length - j) % c.length < c.length := fun j => Nat.mod_lt _ hP
  have hterm : ∀ j ∈ Finset.range c.length, (((mirrored c).getD j 0 : ℤ) : ℂ) * rootOf c.length ^ j
      = (c.getD j 0 : ℂ) * rootOf c.length ^ j
        + (c.getD ((c.length - j) % c.length) 0 : ℂ) * rootOf c.length ^ j := by
    intro j hj
    rw [mirrored, tabulate_getD _ _ _ (Finset.mem_range.1 hj), Int.cast_add, add_mul]
  rw [coeffEval, mirrored_length, Finset.sum_congr rfl hterm, two_cosValue]
  simp only [mul_add, Finset.sum_add_distrib]
  congr 1
  refine Finset.sum_nbij' (fun j => (c.length - j) % c.length) (fun j => (c.length - j) % c.length)
    (fun j _ => Finset.mem_range.2 (hlt j)) (fun j _ => Finset.mem_range.2 (hlt j))
    (fun j hj => mirror_mirror (Finset.mem_range.1 hj)) (fun j hj => mirror_mirror (Finset.mem_range.1 hj))
    fun j hj => ?_
  rw [← rootOf_pow_mod (hlt j), mirror_mirror (Finset.mem_range.1 hj)]

theorem coeffEval_of_all_zero {f : Coeffs} (h : ∀ v ∈ f, v = 0) (z : ℂ) : coeffEval f z = 0 := by
  refine Finset.sum_eq_zero fun j hj => ?_
  rw [List.getD_eq_getElem _ _ (Finset.mem_range.1 hj), h _ (List.getElem_mem _), Int.cast_zero, zero_mul]

/-- The factors of the test kill no primitive root, so what passes it vanishes there. -/
theorem coeffEval_of_vanishesAtRoot {f : Coeffs} (hP : 0 < f.length) {ζ : ℂ} (hζ : IsPrimitiveRoot ζ f.length)
    (h : vanishesAtRoot f = true) : coeffEval f ζ = 0 := by
  obtain ⟨-, heval⟩ := timesOneMinus_foldl ((List.range (f.length + 1)).filter fun d => 1 < d && f.length % d == 0) f
  have hzero := heval ζ hζ.pow_eq_one
  rw [coeffEval_of_all_zero fun v hv => beq_iff_eq.1 (List.all_eq_true.1 h v hv), eq_comm, mul_eq_zero] at hzero
  refine hzero.resolve_right fun hprod => ?_
  obtain ⟨d, hd, hfactor⟩ := List.mem_map.1 (List.prod_eq_zero_iff.1 hprod)
  simp only [List.mem_filter, Bool.and_eq_true, decide_eq_true_eq, beq_iff_eq] at hd
  obtain ⟨-, hd1, hmod⟩ := hd
  have hlt : f.length / d < f.length := Nat.div_lt_self hP hd1
  have hpos : f.length / d ≠ 0 := by
    have hdvd := Nat.dvd_of_mod_eq_zero hmod
    exact (Nat.div_pos (Nat.le_of_dvd hP hdvd) (by omega)).ne'
  exact hζ.pow_ne_one_of_pos_of_lt hpos hlt (sub_eq_zero.1 hfactor).symm

/-- The zero test finds zeros only. -/
theorem cosValue_eq_zero_of_cosSumIsZero {c : Coeffs} (hP : 0 < c.length) (h : cosSumIsZero c = true) :
    cosValue c = 0 := by
  rw [cosSumIsZero_eq] at h
  have hroot : IsPrimitiveRoot (rootOf c.length) (mirrored c).length := by
    rw [mirrored_length]
    exact rootOf_primitive hP
  have hzero := coeffEval_of_vanishesAtRoot (by rwa [mirrored_length]) hroot h
  rw [coeffEval_mirrored hP, Complex.ofReal_eq_zero, mul_eq_zero] at hzero
  exact hzero.resolve_left two_ne_zero

/-! ## The coefficients of the map -/

theorem bump_getD (c : Coeffs) {j : ℕ} (hj : j < c.length) (v : ℤ) (k : ℕ) :
    (bump c j v).getD k 0 = c.getD k 0 + if k = j then v else 0 := by
  rw [bump, List.getD_eq_getElem?_getD, List.getElem?_modify, List.getD_eq_getElem?_getD]
  by_cases h : j = k
  · subst h
    simp [hj]
  · simp [h, Ne.symm h]

/-- A bumped coefficient adds its cosine. -/
theorem cosValue_bump {c : Coeffs} {j : ℕ} (hj : j < c.length) (v : ℤ) :
    cosValue (bump c j v) = cosValue c + v * Real.cos (2 * Real.pi * j / c.length) := by
  have hterm : ∀ k ∈ Finset.range c.length,
      ((bump c j v).getD k 0 : ℝ) * Real.cos (2 * Real.pi * k / c.length)
        = (c.getD k 0 : ℝ) * Real.cos (2 * Real.pi * k / c.length)
          + if k = j then v * Real.cos (2 * Real.pi * j / c.length) else 0 := by
    intro k _
    rw [bump_getD c hj, Int.cast_add, add_mul]
    split
    next h => rw [h]
    next => simp
  rw [cosValue, bump_length, Finset.sum_congr rfl hterm, Finset.sum_add_distrib,
    Finset.sum_ite_eq_of_mem' _ _ _ (Finset.mem_range.2 hj), cosValue]

/-- Cosines count indices modulo P. -/
theorem cos_index_congr {P : ℕ} (hP : 0 < P) {s t : ℤ} (h : (P : ℤ) ∣ s - t) :
    Real.cos (2 * Real.pi * s / P) = Real.cos (2 * Real.pi * t / P) := by
  obtain ⟨q, hq⟩ := h
  obtain rfl : s = t + P * q := by linarith
  have hPr : (P : ℝ) ≠ 0 := Nat.cast_ne_zero.2 hP.ne'
  rw [← Real.cos_add_int_mul_two_pi (2 * Real.pi * t / P) q]
  congr 1
  push_cast
  field_simp

/-- The fold over k of R211: index (k + 1)·x modulo P stands for the cosine of (k + 1)·d, where x is d modulo P. -/
theorem cosValue_foldl_bump {P x : ℕ} {d : ℤ} (hP : 0 < P) (hx : (P : ℤ) ∣ x - d) (v : ℤ) (N : ℕ) {c : Coeffs}
    (hc : c.length = P) :
    ((List.range N).foldl (fun c k => bump c (((k + 1) * x) % P) v) c).length = P
      ∧ cosValue ((List.range N).foldl (fun c k => bump c (((k + 1) * x) % P) v) c)
        = cosValue c + v * ∑ k ∈ Finset.range N, Real.cos (2 * Real.pi * (((k + 1 : ℕ) : ℤ) * d : ℤ) / P) := by
  induction N with
  | zero => simp [hc]
  | succ N ih =>
    obtain ⟨hlen, hval⟩ := ih
    have hindex : (P : ℤ) ∣ (((N + 1) * x % P : ℕ) : ℤ) - ((N + 1 : ℕ) : ℤ) * d := by
      have hmod : (P : ℤ) ∣ (((N + 1) * x % P : ℕ) : ℤ) - ((N + 1) * x : ℕ) := (Nat.mod_modEq _ P).symm.dvd
      have hstep : (P : ℤ) ∣ ((N + 1 : ℕ) : ℤ) * (x - d) := hx.mul_left _
      have hsum := dvd_add hmod hstep
      rwa [Nat.cast_mul, mul_sub, sub_add_sub_cancel] at hsum
    have hcos := cos_index_congr hP hindex
    rw [Int.cast_natCast] at hcos
    rw [List.range_succ, List.foldl_append, List.foldl_cons, List.foldl_nil, bump_length]
    refine ⟨hlen, ?_⟩
    rw [cosValue_bump (by rw [hlen]; exact Nat.mod_lt _ hP), hval, hlen, hcos, Finset.sum_range_succ]
    ring

/-- One input's coefficients are its value times the kernel of R211. -/
theorem cosValue_addInput {n l : ℕ} (hn : 1 ≤ n) (hl : 1 ≤ l) (m i : ℕ) (v : ℤ) {c : Coeffs}
    (hc : c.length = 2 * n * l) :
    (addInput n l m c i v).length = 2 * n * l
      ∧ cosValue (addInput n l m c i v) = cosValue c + v * (kernelD n l ((m : ℤ) - i * l) + (-1) ^ (m + i)) := by
  have hP : 0 < 2 * n * l := by positivity
  have hx : ((2 * n * l : ℕ) : ℤ) ∣ ((m + (2 * n * l - i * l % (2 * n * l)) : ℕ) : ℤ) - (m - i * l) := by
    have hmod : ((2 * n * l : ℕ) : ℤ) ∣ ((i * l : ℕ) : ℤ) - ((i * l % (2 * n * l) : ℕ) : ℤ) :=
      (Nat.mod_modEq (i * l) (2 * n * l)).dvd
    have hle := (Nat.mod_lt (i * l) hP).le
    have hsum := dvd_add (dvd_refl ((2 * n * l : ℕ) : ℤ)) hmod
    obtain ⟨q, hq⟩ := hsum
    rw [Nat.cast_mul i l] at hq
    refine ⟨q, ?_⟩
    rw [Nat.cast_add, Nat.cast_sub hle]
    linarith
  have hsign : ((v + if (m + i) % 2 = 0 then v else -v : ℤ) : ℝ) = v + v * (-1) ^ (m + i) := by
    rcases Nat.even_or_odd (m + i) with h | h
    · rw [if_pos (Nat.even_iff.1 h), h.neg_one_pow]
      push_cast
      ring
    · rw [if_neg (by rw [Nat.odd_iff.1 h]; norm_num), h.neg_one_pow]
      push_cast
      ring
  have hbase : (bump c 0 (v + if (m + i) % 2 = 0 then v else -v)).length = 2 * n * l := by rw [bump_length, hc]
  obtain ⟨hlen, hval⟩ := cosValue_foldl_bump hP hx (2 * v) (n - 1) hbase
  refine ⟨hlen, ?_⟩
  have hcos : ∑ k ∈ Finset.range (n - 1),
        Real.cos (2 * Real.pi * ((((k + 1 : ℕ) : ℤ) * ((m : ℤ) - i * l) : ℤ) : ℝ) / ((2 * n * l : ℕ) : ℝ))
      = ∑ k ∈ Finset.Ico 1 n, Real.cos (2 * Real.pi * k * (((m : ℤ) - i * l : ℤ) : ℝ) / (2 * n * l)) := by
    rw [Finset.sum_Ico_eq_sum_range]
    refine Finset.sum_congr rfl fun k _ => congrArg Real.cos ?_
    push_cast
    ring
  rw [addInput, hval, bump_cosValue (by omega), hcos, hsign, kernelD]
  push_cast
  ring

theorem cosValue_replicate_zero (P : ℕ) : cosValue (List.replicate P 0) = 0 := by
  refine Finset.sum_eq_zero fun j hj => ?_
  rw [List.length_replicate, Finset.mem_range] at hj
  rw [List.getD_replicate _ hj, Int.cast_zero, zero_mul]

/-- The coefficients of the map before input N. -/
def mapCoeffsUpTo (n l : ℕ) (b : List F32) (m N : ℕ) : Coeffs :=
  (List.range N).foldl (fun c i => addInput n l m c i (scaled (b.getD i 0))) (List.replicate (2 * n * l) 0)

theorem mapCoeffs_eq_upTo (n l : ℕ) (b : List F32) (m : ℕ) : mapCoeffs n l b m = mapCoeffsUpTo n l b m (2 * n) := rfl

theorem cosValue_mapCoeffsUpTo {n l : ℕ} (hn : 1 ≤ n) (hl : 1 ≤ l) (b : List F32) (m N : ℕ) :
    (mapCoeffsUpTo n l b m N).length = 2 * n * l
      ∧ cosValue (mapCoeffsUpTo n l b m N)
        = ∑ i ∈ Finset.range N, (scaled (b.getD i 0) : ℝ) * (kernelD n l ((m : ℤ) - i * l) + (-1) ^ (m + i)) := by
  induction N with
  | zero => exact ⟨List.length_replicate, cosValue_replicate_zero _⟩
  | succ N ih =>
    obtain ⟨hlen, hval⟩ := ih
    have hstep : mapCoeffsUpTo n l b m (N + 1)
        = addInput n l m (mapCoeffsUpTo n l b m N) N (scaled (b.getD N 0)) := by
      rw [mapCoeffsUpTo, List.range_succ, List.foldl_append]
      rfl
    rw [hstep, Finset.sum_range_succ, ← hval]
    exact cosValue_addInput hn hl m N _ hlen

/-- The coefficients of the map, in units of 2^-149, are the polyphase form of R211. -/
theorem cosValue_mapCoeffs {n l : ℕ} (hn : 1 ≤ n) (hl : 1 ≤ l) (b : List F32) (m : ℕ) :
    polyphaseOutput n l b m = cosValue (mapCoeffs n l b m) / 2 ^ 149 := by
  rw [mapCoeffs_eq_upTo, (cosValue_mapCoeffsUpTo hn hl b m _).2, polyphaseOutput, Finset.sum_div]
  refine Finset.sum_congr rfl fun i _ => ?_
  rw [valueOf]
  ring

/-! ## What the search finds -/

/-- The first look finds an integer sum. -/
theorem nearestInt_cosSum {c : Coeffs} {q : ℤ} (h : cosValue c = q) :
    nearestInt (cosSum c (mapPrecision c)) (mapPrecision c) = q := by
  have hF : 40 ≤ mapPrecision c := by
    unfold mapPrecision
    omega
  obtain ⟨hholds, hwidth⟩ := cosSum_spec c (F := mapPrecision c) (by omega)
  rw [h] at hholds
  refine nearestInt_eq hholds ?_
  have hnarrow := hwidth.trans (mapPrecision_spec c)
  have hpow : (2 : ℝ) ^ mapPrecision c = 2 ^ (mapPrecision c - 2) * 4 := by
    rw [show (4 : ℝ) = 2 ^ 2 by norm_num, ← pow_add, Nat.sub_add_cancel (by omega)]
  have hpos : (0 : ℝ) < 2 ^ (mapPrecision c - 2) := by positivity
  have hlt : (2 : ℝ) * (cosSum c (mapPrecision c)).width < 2 ^ mapPrecision c := by linarith
  exact_mod_cast hlt

/-- The two ways the search ends: on an integer sum, whose rounding is exact, or on an enclosure that settles. -/
theorem cosSumSearch_cases {c : Coeffs} (hP : 0 < c.length) {w : F32} (h : cosSumSearch c = some w) :
    (∃ q : ℤ, cosValue c = q ∧ w = roundScaled (decide (q < 0)) q.natAbs 0)
      ∨ ((∀ q : ℤ, cosValue c ≠ q) ∧ ∃ p, 33 ≤ p ∧ settle (cosSum c p) (2 ^ p * 2 ^ 149) = some w) := by
  have hbump : ∀ q : ℤ, cosValue (bump c 0 (-q)) = cosValue c - q := fun q => by
    rw [bump_cosValue hP, Int.cast_neg, sub_eq_add_neg]
  unfold cosSumSearch at h
  dsimp only at h
  split at h
  next hz =>
    refine .inl ⟨_, ?_, (Option.some.inj h).symm⟩
    have hzero := cosValue_eq_zero_of_cosSumIsZero (by rwa [bump_length]) hz
    rwa [hbump, sub_eq_zero] at hzero
  next hz =>
    refine .inr ⟨fun q hq => hz ?_, ?_⟩
    · rw [nearestInt_cosSum hq]
      exact cosSumIsZero_of_zero (by rwa [bump_length]) (by rw [hbump, hq, sub_self])
    · obtain ⟨p, hp, hw⟩ := List.exists_of_findSome?_eq_some h
      have hle := le_of_mem_precisions hp
      refine ⟨p, ?_, hw⟩
      unfold mapPrecision at hle
      omega

theorem signBit_roundIntRatio (num : ℤ) (den : ℕ) : signBit (roundIntRatio num den) = decide (num < 0) := by
  rw [roundIntRatio, roundRatio_eq, signBit_roundScaled]

/-- A word that an enclosure settles on has the sign of both its ends, so of what it encloses. -/
theorem settle_keepsSign {r : Interval} {x : ℝ} {p den : ℕ} {w : F32} (hx : r.Holds (x * 2 ^ p))
    (h : settle r den = some w) : KeepsSign x w := by
  obtain ⟨hlo, hhi⟩ := hx
  have hpos : (0 : ℝ) < 2 ^ p := by positivity
  unfold settle at h
  split at h
  next heq =>
    obtain rfl := Option.some.inj h
    refine ⟨fun hneg => ?_, fun hxpos => ?_⟩
    · have hlt : (r.lo : ℝ) < 0 := hlo.trans_lt (mul_neg_of_neg_of_pos hneg hpos)
      rw [signBit_roundIntRatio, decide_eq_true_eq]
      exact_mod_cast hlt
    · have hgt : (0 : ℝ) < r.hi := (mul_pos hxpos hpos).trans_le hhi
      have hgt' : 0 < r.hi := by exact_mod_cast hgt
      rw [heq, signBit_roundIntRatio, decide_eq_false_iff_not]
      omega
  next => cases h

/-- A positive unit changes no sign. -/
theorem KeepsSign.div {x d : ℝ} {w : F32} (h : KeepsSign x w) (hd : 0 < d) : KeepsSign (x / d) w := by
  obtain ⟨hneg, hpos⟩ := h
  refine ⟨fun hx => hneg ?_, fun hx => hpos ((div_pos_iff_of_pos_right hd).1 hx)⟩
  rwa [div_lt_iff₀ hd, zero_mul] at hx

/-- An integer rounded with its own sign keeps it. -/
theorem roundScaled_keepsSign (q : ℤ) : KeepsSign q (roundScaled (decide (q < 0)) q.natAbs 0) := by
  refine ⟨fun hneg => ?_, fun hpos => ?_⟩
  · rw [signBit_roundScaled, decide_eq_true_eq]
    exact_mod_cast hneg
  · rw [signBit_roundScaled, decide_eq_false_iff_not, not_lt]
    exact (Int.cast_pos.1 hpos).le

/-- R214: what the search finds is RNE32 of the sum in units of 2^-149; it keeps its sign, and zero is +0.0. -/
theorem cosSumSearch_spec {c : Coeffs} (hP : 0 < c.length) {w : F32} (h : cosSumSearch c = some w) :
    IsRne (cosValue c / 2 ^ 149) w ∧ KeepsSign (cosValue c / 2 ^ 149) w
      ∧ (cosValue c / 2 ^ 149 = 0 → w = 0x00000000#32) := by
  have hunit : (0 : ℝ) < 2 ^ 149 := by positivity
  rcases cosSumSearch_cases hP h with ⟨q, hq, rfl⟩ | ⟨hno, p, hp, hw⟩
  · have hround := roundScaled_isRne (decide (q < 0)) q.natAbs 0
    rw [signedInt_natAbs] at hround
    rw [hq]
    refine ⟨hround, (roundScaled_keepsSign q).div hunit, fun hzero => ?_⟩
    obtain rfl : q = 0 := by
      rw [div_eq_zero_iff, or_iff_left hunit.ne'] at hzero
      exact_mod_cast hzero
    exact (roundScaled_zero false).1
  · obtain ⟨hholds, -⟩ := cosSum_spec c hp
    have hround : IsRne (cosValue c / (2 ^ 149 : ℕ)) w := settle_isRne (by positivity) hholds hw
    rw [Nat.cast_pow, Nat.cast_ofNat] at hround
    refine ⟨hround, (settle_keepsSign hholds hw).div hunit, fun hzero => ?_⟩
    rw [div_eq_zero_iff, or_iff_left hunit.ne'] at hzero
    exact absurd (hzero.trans Int.cast_zero.symm) (hno 0)

/-- On finite values PRF_IDEAL is the word the search finds. -/
theorem prfIdeal_of_isFinite {n l : ℕ} {b : List F32} (hb : ∀ v ∈ b, isFinite v = true) (m : ℕ) :
    prfIdeal n l b m = roundCosSum (mapCoeffs n l b m) :=
  if_pos (List.all_eq_true.2 fun v hv => hb v (List.mem_of_mem_take hv))

/-- Settles O45: the search settles, and what it finds is the polyphase form, rounded once. -/
theorem idealPathRoundsTheExactMap : Obligations.IdealPathRoundsTheExactMap := by
  intro n l b m hn hl _ hb _
  obtain ⟨w, hw⟩ := cosSumSearch_settles hn hl b m
  have hP : 0 < (mapCoeffs n l b m).length := by
    rw [(mapCoeffs_spec n l b m).2]
    positivity
  rw [prfIdeal_of_isFinite hb, roundCosSum, hw, Option.getD_some, cosValue_mapCoeffs hn hl]
  exact cosSumSearch_spec hP hw

end Sys2Proof.Machine
end
